-- ==== Sys2Proof/Word.lean ====
section
/-! DEFINITION. The word types of QRC (00_scope.md R7: every register and every command word is 32 bits; a GF(256) element is
8 bits). -/

namespace Sys2Proof

/-- A 32-bit register or command word (R7). -/
abbrev Word := BitVec 32

/-- A byte: a GF(256) element or a codeword (R7, R13). -/
abbrev Byte := BitVec 8

end Sys2Proof
end

