-- ==== Sys2Proof/Syntax.lean ====
section
/-! DEFINITION. The commands of QRC as syntax: one constructor per row of spec/opcode_table.json (30_encoding.md R107), each with
exactly the fields its row uses. Legal values of the fields are WellFormed.lean's. -/

namespace Sys2Proof

/-- A stream number 0..3, the fields SA and SB of format R (R102). -/
inductive StreamId where
  | s0 | s1 | s2 | s3
deriving DecidableEq, Repr

/-- A QRC command (R107). `a`, `b` are the streams of SA and SB, `n` the count or selector N, `ia`, `ib` the immediates, `row`,
`col`, `val` the fields of format M. -/
inductive Instr where
  -- 40_control.md
  | nop
  | clrerr
  | reset
  -- 41_bitstream.md
  | screate (a : StreamId)
  | sresize (a : StreamId)
  | sdup (a b : StreamId)
  | sseek (a : StreamId)
  | stell (a : StreamId)
  | sremain (a : StreamId)
  | sread (a : StreamId) (n : BitVec 6)
  | swrite (a : StreamId) (n : BitVec 6)
  | scopy (a b : StreamId)
  | sconcat (a b : StreamId)
  -- 42_gf_rs.md
  | gfmul (ia ib : Byte)
  | polymod
  | rsgen (n : BitVec 6)
  | rsclr
  | rsfeedi (ib : Byte)
  | rsfeed (a : StreamId)
  | rsemit (a : StreamId)
  | rssyn (a : StreamId)
  | rsrdg (n : BitVec 6)
  | rsrdr (n : BitVec 6)
  | rsrds (n : BitVec 6)
  -- 43_bch.md
  | fmtenc (ib : Byte)
  | fmtdec
  | fmtdec2
  | verenc (ib : Byte)
  | verdec
  | dimchk
  -- 44_grid_layout.md
  | ginit (ib : Byte)
  | modw (row col val : Byte)
  | modr (row col : Byte)
  | amw (row col val : Byte)
  | modw32 (row col : Byte)
  | modr32 (row col : Byte)
  | pbegin
  | pwrite (n : BitVec 6)
  | pread (n : BitVec 6)
  | pstore (a : StreamId)
  | pload (a : StreamId)
  -- 45_mask.md
  | mapply (ib : Byte)
  | mscore (n : BitVec 6)
  | mselect
deriving DecidableEq, Repr

end Sys2Proof
end

