-- ==== Sys2Proof/WellFormed.lean ====
section
/-! DEFINITION. Which commands are legal: the column "legal values" of 30_encoding.md R107, checked at decode (R109, condition 3).
Constraints that depend on state or on a parameter are not here: they raise RANGE when the command executes (R108). -/

namespace Sys2Proof

/-- The fields of the command hold legal values (R107). -/
def Instr.wf : Instr → Bool
  | .nop => true
  | .clrerr => true
  | .reset => true
  | .screate _ => true
  | .sresize _ => true
  | .sdup _ _ => true
  | .sseek _ => true
  | .stell _ => true
  | .sremain _ => true
  | .sread _ n => n.toNat ≤ 32
  | .swrite _ n => n.toNat ≤ 32
  | .scopy a b => a ≠ b
  | .sconcat a b => a ≠ b
  | .gfmul _ _ => true
  | .polymod => true
  | .rsgen _ => true
  | .rsclr => true
  | .rsfeedi _ => true
  | .rsfeed _ => true
  | .rsemit _ => true
  | .rssyn _ => true
  | .rsrdg _ => true
  | .rsrdr _ => true
  | .rsrds _ => true
  | .fmtenc ib => ib.toNat < 32
  | .fmtdec => true
  | .fmtdec2 => true
  | .verenc _ => true
  | .verdec => true
  | .dimchk => true
  | .ginit _ => true
  | .modw _ _ val => val.toNat < 2
  | .modr _ _ => true
  | .amw _ _ val => val.toNat < 2
  | .modw32 _ _ => true
  | .modr32 _ _ => true
  | .pbegin => true
  | .pwrite n => 1 ≤ n.toNat ∧ n.toNat ≤ 8
  | .pread n => 1 ≤ n.toNat ∧ n.toNat ≤ 8
  | .pstore _ => true
  | .pload _ => true
  | .mapply ib => ib.toNat < 8
  | .mscore n => n.toNat ≤ 4
  | .mselect => true

end Sys2Proof
end

