-- ==== Sys2Proof/Decode.lean ====
section
/-! DEFINITION. From a command word to a command and back (30_encoding.md R100-R111). The decoder is total: every word names one
command or is illegal, and an illegal word is rejected by the condition of R109 that fails first. -/

namespace Sys2Proof

/-- Why a command word is illegal: the three conditions of R109, in the order they are checked. -/
inductive Illegal where
  /-- Condition (1): w[31:24] is not an assigned opcode (R110). -/
  | unassignedOpcode (opc : BitVec 8)
  /-- Condition (2): an unused field or a must-be-0 field is not zero. -/
  | reservedField
  /-- Condition (3): a legal-values condition fails. -/
  | illegalValue
deriving DecidableEq, Repr

/-! ## Fields of a command word (R101-R104) -/

/-- OPC, bits 31:24 of every format. -/
def opcField (w : Word) : BitVec 8 := w.extractLsb' 24 8
/-- SA, bits 23:22 of format R. -/
def saField (w : Word) : BitVec 2 := w.extractLsb' 22 2
/-- SB, bits 21:20 of format R. -/
def sbField (w : Word) : BitVec 2 := w.extractLsb' 20 2
/-- N, bits 19:14 of format R. -/
def nField (w : Word) : BitVec 6 := w.extractLsb' 14 6
/-- Bits 13:0 of format R, which must be 0. -/
def lowField (w : Word) : BitVec 14 := w.extractLsb' 0 14
/-- Bits 23:16: ROW of format M, must be 0 in format I. -/
def rowField (w : Word) : BitVec 8 := w.extractLsb' 16 8
/-- Bits 15:8: COL of format M, IA of format I. -/
def colField (w : Word) : BitVec 8 := w.extractLsb' 8 8
/-- Bits 7:0: VAL of format M, IB of format I. -/
def valField (w : Word) : BitVec 8 := w.extractLsb' 0 8
/-- Bits 23:0 of format N, which must be 0. -/
def bodyField (w : Word) : BitVec 24 := w.extractLsb' 0 24

/-- The stream a two-bit field names (R102). -/
def StreamId.ofBits (b : BitVec 2) : StreamId :=
  match b.toNat with
  | 0 => .s0
  | 1 => .s1
  | 2 => .s2
  | _ => .s3

/-- The two-bit number of a stream (R102). -/
def StreamId.toBits : StreamId → BitVec 2
  | .s0 => 0
  | .s1 => 1
  | .s2 => 2
  | .s3 => 3

/-! ## Decoding: one form per set of used fields, the unused ones being 0 (R109, condition 2) -/

/-- The command `i` if every bit that must be 0 is 0. -/
def checkZero (zero : Bool) (i : Instr) : Except Illegal Instr :=
  if zero then .ok i else .error .reservedField

/-- Format N (R101). -/
def formN (w : Word) (i : Instr) : Except Illegal Instr :=
  checkZero (bodyField w == 0) i

/-- Format R (R102) with SA only. -/
def formRa (w : Word) (mk : StreamId → Instr) : Except Illegal Instr :=
  checkZero (sbField w == 0 && nField w == 0 && lowField w == 0) (mk (.ofBits (saField w)))

/-- Format R with SA and SB. -/
def formRab (w : Word) (mk : StreamId → StreamId → Instr) : Except Illegal Instr :=
  checkZero (nField w == 0 && lowField w == 0) (mk (.ofBits (saField w)) (.ofBits (sbField w)))

/-- Format R with SA and N. -/
def formRan (w : Word) (mk : StreamId → BitVec 6 → Instr) : Except Illegal Instr :=
  checkZero (sbField w == 0 && lowField w == 0) (mk (.ofBits (saField w)) (nField w))

/-- Format R with N only. -/
def formRn (w : Word) (mk : BitVec 6 → Instr) : Except Illegal Instr :=
  checkZero (saField w == 0 && sbField w == 0 && lowField w == 0) (mk (nField w))

/-- Format I (R103) with IB only. -/
def formIb (w : Word) (mk : Byte → Instr) : Except Illegal Instr :=
  checkZero (rowField w == 0 && colField w == 0) (mk (valField w))

/-- Format I with IA and IB. -/
def formIab (w : Word) (mk : Byte → Byte → Instr) : Except Illegal Instr :=
  checkZero (rowField w == 0) (mk (colField w) (valField w))

/-- Format M (R104) with ROW and COL only. -/
def formM (w : Word) (mk : Byte → Byte → Instr) : Except Illegal Instr :=
  checkZero (valField w == 0) (mk (rowField w) (colField w))

/-- Format M with ROW, COL and VAL: no bit must be 0. -/
def formMv (w : Word) (mk : Byte → Byte → Byte → Instr) : Except Illegal Instr :=
  .ok (mk (rowField w) (colField w) (valField w))

/-- Conditions (1) and (2) of R109, and the fields of the command (R107, R111). -/
def decodeFields (w : Word) : Except Illegal Instr :=
  match (opcField w).toNat with
  | 0x00 => formN w .nop
  | 0x01 => formN w .clrerr
  | 0x02 => formN w .reset
  | 0x10 => formRa w .screate
  | 0x11 => formRa w .sresize
  | 0x12 => formRab w .sdup
  | 0x13 => formRa w .sseek
  | 0x14 => formRa w .stell
  | 0x15 => formRa w .sremain
  | 0x16 => formRan w .sread
  | 0x17 => formRan w .swrite
  | 0x18 => formRab w .scopy
  | 0x19 => formRab w .sconcat
  | 0x20 => formIab w .gfmul
  | 0x21 => formN w .polymod
  | 0x22 => formRn w .rsgen
  | 0x23 => formN w .rsclr
  | 0x24 => formIb w .rsfeedi
  | 0x25 => formRa w .rsfeed
  | 0x26 => formRa w .rsemit
  | 0x27 => formRa w .rssyn
  | 0x28 => formRn w .rsrdg
  | 0x29 => formRn w .rsrdr
  | 0x2A => formRn w .rsrds
  | 0x30 => formIb w .fmtenc
  | 0x31 => formN w .fmtdec
  | 0x32 => formN w .fmtdec2
  | 0x33 => formIb w .verenc
  | 0x34 => formN w .verdec
  | 0x35 => formN w .dimchk
  | 0x40 => formIb w .ginit
  | 0x41 => formMv w .modw
  | 0x42 => formM w .modr
  | 0x43 => formMv w .amw
  | 0x44 => formM w .modw32
  | 0x45 => formM w .modr32
  | 0x48 => formN w .pbegin
  | 0x49 => formRn w .pwrite
  | 0x4A => formRn w .pread
  | 0x4B => formRa w .pstore
  | 0x4C => formRa w .pload
  | 0x50 => formIb w .mapply
  | 0x51 => formRn w .mscore
  | 0x52 => formN w .mselect
  | _ => .error (.unassignedOpcode (opcField w))

/-- The command a word names, or the first condition of R109 that makes it illegal (R111). -/
def decode (w : Word) : Except Illegal Instr :=
  match decodeFields w with
  | .ok i => if i.wf then .ok i else .error .illegalValue
  | .error e => .error e

/-! ## Encoding (R101-R104, R107) -/

/-- The opcode OPC of a command (R107). -/
def Instr.opcode : Instr → BitVec 8
  | .nop => 0x00
  | .clrerr => 0x01
  | .reset => 0x02
  | .screate _ => 0x10
  | .sresize _ => 0x11
  | .sdup _ _ => 0x12
  | .sseek _ => 0x13
  | .stell _ => 0x14
  | .sremain _ => 0x15
  | .sread _ _ => 0x16
  | .swrite _ _ => 0x17
  | .scopy _ _ => 0x18
  | .sconcat _ _ => 0x19
  | .gfmul _ _ => 0x20
  | .polymod => 0x21
  | .rsgen _ => 0x22
  | .rsclr => 0x23
  | .rsfeedi _ => 0x24
  | .rsfeed _ => 0x25
  | .rsemit _ => 0x26
  | .rssyn _ => 0x27
  | .rsrdg _ => 0x28
  | .rsrdr _ => 0x29
  | .rsrds _ => 0x2A
  | .fmtenc _ => 0x30
  | .fmtdec => 0x31
  | .fmtdec2 => 0x32
  | .verenc _ => 0x33
  | .verdec => 0x34
  | .dimchk => 0x35
  | .ginit _ => 0x40
  | .modw _ _ _ => 0x41
  | .modr _ _ => 0x42
  | .amw _ _ _ => 0x43
  | .modw32 _ _ => 0x44
  | .modr32 _ _ => 0x45
  | .pbegin => 0x48
  | .pwrite _ => 0x49
  | .pread _ => 0x4A
  | .pstore _ => 0x4B
  | .pload _ => 0x4C
  | .mapply _ => 0x50
  | .mscore _ => 0x51
  | .mselect => 0x52

/-- Format N: `OPC<<24` (R101). -/
def wordN (opc : BitVec 8) : Word := opc ++ 0#24

/-- Format R: `OPC<<24 | SA<<22 | SB<<20 | N<<14` (R102). -/
def wordR (opc : BitVec 8) (sa sb : BitVec 2) (n : BitVec 6) : Word := opc ++ sa ++ sb ++ n ++ 0#14

/-- Format I: `OPC<<24 | IA<<8 | IB` (R103). -/
def wordI (opc : BitVec 8) (ia ib : Byte) : Word := opc ++ 0#8 ++ ia ++ ib

/-- Format M: `OPC<<24 | ROW<<16 | COL<<8 | VAL` (R104). -/
def wordM (opc : BitVec 8) (row col val : Byte) : Word := opc ++ row ++ col ++ val

/-- The command word of a command (R107); unused fields are 0. -/
def encode (i : Instr) : Word :=
  match i with
  | .nop => wordN i.opcode
  | .clrerr => wordN i.opcode
  | .reset => wordN i.opcode
  | .screate a => wordR i.opcode a.toBits 0 0
  | .sresize a => wordR i.opcode a.toBits 0 0
  | .sdup a b => wordR i.opcode a.toBits b.toBits 0
  | .sseek a => wordR i.opcode a.toBits 0 0
  | .stell a => wordR i.opcode a.toBits 0 0
  | .sremain a => wordR i.opcode a.toBits 0 0
  | .sread a n => wordR i.opcode a.toBits 0 n
  | .swrite a n => wordR i.opcode a.toBits 0 n
  | .scopy a b => wordR i.opcode a.toBits b.toBits 0
  | .sconcat a b => wordR i.opcode a.toBits b.toBits 0
  | .gfmul ia ib => wordI i.opcode ia ib
  | .polymod => wordN i.opcode
  | .rsgen n => wordR i.opcode 0 0 n
  | .rsclr => wordN i.opcode
  | .rsfeedi ib => wordI i.opcode 0 ib
  | .rsfeed a => wordR i.opcode a.toBits 0 0
  | .rsemit a => wordR i.opcode a.toBits 0 0
  | .rssyn a => wordR i.opcode a.toBits 0 0
  | .rsrdg n => wordR i.opcode 0 0 n
  | .rsrdr n => wordR i.opcode 0 0 n
  | .rsrds n => wordR i.opcode 0 0 n
  | .fmtenc ib => wordI i.opcode 0 ib
  | .fmtdec => wordN i.opcode
  | .fmtdec2 => wordN i.opcode
  | .verenc ib => wordI i.opcode 0 ib
  | .verdec => wordN i.opcode
  | .dimchk => wordN i.opcode
  | .ginit ib => wordI i.opcode 0 ib
  | .modw row col val => wordM i.opcode row col val
  | .modr row col => wordM i.opcode row col 0
  | .amw row col val => wordM i.opcode row col val
  | .modw32 row col => wordM i.opcode row col 0
  | .modr32 row col => wordM i.opcode row col 0
  | .pbegin => wordN i.opcode
  | .pwrite n => wordR i.opcode 0 0 n
  | .pread n => wordR i.opcode 0 0 n
  | .pstore a => wordR i.opcode a.toBits 0 0
  | .pload a => wordR i.opcode a.toBits 0 0
  | .mapply ib => wordI i.opcode 0 ib
  | .mscore n => wordR i.opcode 0 0 n
  | .mselect => wordN i.opcode

/-! ## The host's view of the opcode table -/

/-- The command whose table word is the low `nbits` bits of `w`, the bits above being 0; none where the decoder refuses it or where
the word does not fit in one 32-bit command word (R100: there is one length). -/
def decodeTableWord (nbits w : Nat) : Option Instr :=
  let v := w % 2 ^ nbits
  if v < 2 ^ 32 then
    match decode (BitVec.ofNat 32 v) with
    | .ok i => some i
    | .error _ => none
  else none

end Sys2Proof
end

