-- ==== Sys2Proof/Config.lean ====
section
/-! DEFINITION. The implementation parameters of QRC-1 (00_scope.md R6) that have one value, and the open base address. The table
ALIGN_POS is a table argument and stands in `State.alignTable`; PENALTY_C_RULE is RUNS, which `Machine.penaltyC` states. -/

namespace Sys2Proof.Config

/-- `QRC_ID`, the value of the ID register (R6, R31): the ASCII bytes "QRC1". -/
def qrcId : Word := 0x51524331

/-- `STREAM_MAX_BITS` (R6): the largest capacity of one stream, in bits. -/
abbrev streamMaxBits : Nat := 32768

/-- `RS_MAX_K` (R6): the largest number of EC bytes per block. -/
abbrev rsMaxK : Nat := 32

/-- `VER_MIN` (R6): the least QR version of a grid. -/
abbrev verMin : Nat := 1

/-- `VER_MAX` (R6): the greatest QR version of a grid. -/
abbrev verMax : Nat := 40

/-- `DIM(v)` (R6, R49): the grid side of version v. -/
def dimOf (v : Nat) : Nat := 4 * v + 17

/-- `MMIO_BASE` (R6, R90): the bus address of the register window. OPEN in the spec, so it has no body here: no claim can rest on
its value. The model names registers by their offset from it. -/
opaque mmioBase : Nat

end Sys2Proof.Config
end

