-- ==== Sys2Proof/Machine/Bits.lean ====
section
/-! DEFINITION. Bit sequences and numbers: the MSB-first order of streams (00_scope.md R9, 20_memory.md R83), rounding to bytes, and
tables of bytes. -/

namespace Sys2Proof.Machine

/-- `ceil8(x)`: the least multiple of 8 that is ≥ x (R10). -/
def ceil8 (x : Nat) : Nat := (x + 7) / 8 * 8

/-- The low `n` bits of `v`, MSB-first: `v[n-1], …, v[0]` (R9). -/
def wordBits (n : Nat) (v : Word) : List Bool :=
  (List.range n).map fun i => v.getLsbD (n - 1 - i)

/-- The unsigned value of a bit sequence read MSB-first: `v <- (v << 1) | bit` for each bit (R9, R151). -/
def bitsToNat (bs : List Bool) : Nat :=
  bs.foldl (fun v b => 2 * v + b.toNat) 0

/-- The value of a bit sequence of at most 32 bits, zero-extended to a register (R8, R151). -/
def bitsToWord (bs : List Bool) : Word := BitVec.ofNat 32 (bitsToNat bs)

/-- The 8 bits of a byte, MSB-first (R9, R195). -/
def byteBits (b : Byte) : List Bool :=
  (List.range 8).map fun i => b.getLsbD (7 - i)

/-- `m` bytes read MSB-first from a bit sequence, 8 bits each (R202, R205). -/
def takeBytes : Nat → List Bool → List Byte
  | 0, _ => []
  | m + 1, bs => BitVec.ofNat 8 (bitsToNat (bs.take 8)) :: takeBytes m (bs.drop 8)

/-- `popcount(v)`: the number of 1 bits (R10). -/
def popcount (v : Word) : Nat :=
  (List.range 32).countP fun i => v.getLsbD i

/-- The table of `n` bytes whose entry `j` is `f j`. -/
def byteTable (n : Nat) (f : Nat → Byte) : Vector Byte n :=
  ⟨((List.range n).map f).toArray, by simp⟩

/-- Entry `j` of a table of bytes; no command asks beyond the table. -/
def byteAt {n : Nat} (v : Vector Byte n) (j : Nat) : Byte := (v[j]?).getD 0

end Sys2Proof.Machine
end

