-- ==== Sys2Proof/Machine/AlignTable.lean ====
section
/-! DEFINITION. The parameter ALIGN_POS (00_scope.md R6, 44_grid_layout.md R260): an alignment table, and the default one
(93_implementation_defined.md I1). -/

namespace Sys2Proof.Machine

/-- An alignment table: one row per version from 1 on, the centre coordinates of that version in increasing order (R260). -/
abbrev AlignTable := List (List Nat)

/-- Versions 1..10 of the default table (I1). -/
def alignRows1 : List (List Nat) :=
  [[], [6, 18], [6, 22], [6, 26], [6, 30], [6, 34], [6, 22, 38], [6, 24, 42], [6, 26, 46], [6, 28, 50]]

/-- Versions 11..20 of the default table (I1). -/
def alignRows2 : List (List Nat) :=
  [[6, 30, 54], [6, 32, 58], [6, 34, 62], [6, 26, 46, 66], [6, 26, 48, 70], [6, 26, 50, 74], [6, 30, 54, 78],
   [6, 30, 56, 82], [6, 30, 58, 86], [6, 34, 62, 90]]

/-- Versions 21..30 of the default table (I1). -/
def alignRows3 : List (List Nat) :=
  [[6, 28, 50, 72, 94], [6, 26, 50, 74, 98], [6, 30, 54, 78, 102], [6, 28, 54, 80, 106], [6, 32, 58, 84, 110],
   [6, 30, 58, 86, 114], [6, 34, 62, 90, 118], [6, 26, 50, 74, 98, 122], [6, 30, 54, 78, 102, 126],
   [6, 26, 52, 78, 104, 130]]

/-- Versions 31..40 of the default table (I1). -/
def alignRows4 : List (List Nat) :=
  [[6, 30, 56, 82, 108, 134], [6, 34, 60, 86, 112, 138], [6, 30, 58, 86, 114, 142], [6, 34, 62, 90, 118, 146],
   [6, 30, 54, 78, 102, 126, 150], [6, 24, 50, 76, 102, 128, 154], [6, 28, 54, 80, 106, 132, 158],
   [6, 32, 58, 84, 110, 136, 162], [6, 26, 54, 82, 110, 138, 166], [6, 30, 58, 86, 114, 142, 170]]

/-- The default of ALIGN_POS: the table I1 (R260, log 9). -/
def defaultAlignTable : AlignTable := alignRows1 ++ alignRows2 ++ alignRows3 ++ alignRows4

end Sys2Proof.Machine
end

