-- ==== Sys2Proof/Machine/State.lean ====
section
/-! DEFINITION. The state of QRC (10_state.md) and its reset value (R58), the host's side of the register window, and the reasons
a step can stop. -/

namespace Sys2Proof.Machine

/-- An error code of STATUS (60_exceptions.md R340). Codes 7..15 are "reserved, never written" and have no constructor (log 10). -/
inductive ErrCode where
  /-- 0: the command succeeded. -/
  | ok
  /-- 1: a stream would grow past STREAM_MAX_BITS. -/
  | alloc
  /-- 2: never raised in QRC. -/
  | invalidInput
  /-- 3: an operand or the state breaks a command's contract. -/
  | range
  /-- 4: DIMCHK dimensions are not a QR grid. -/
  | invalidSize
  /-- 5: neither format copy is a clean codeword. -/
  | malformed
  /-- 6: the command word is illegal (R109). -/
  | illegal
deriving DecidableEq, Repr

/-- The status fields written by commands (R36, R54). STATUS.GVALID and STATUS.PSTATE are in `Grid` and `Cursor`. -/
structure Status where
  /-- STATUS.LASTERR. -/
  lastErr : ErrCode
  /-- STATUS.FIRSTERR. -/
  firstErr : ErrCode
  /-- STATUS.FCHK. -/
  fchk : Bool
  /-- STATUS.FSEL. -/
  fsel : Bool
  /-- STATUS.SYNZ. -/
  synz : Bool
deriving DecidableEq, Repr

/-- One bit-stream channel (R44). `bits` holds the `count` bits of the stream, the first one first; `count` is its length. The stale
bits at index ≥ count are not held (R46, log 5). -/
structure Stream where
  /-- The read/write cursor. -/
  pos : Nat
  /-- The capacity in bits. -/
  cap : Nat
  /-- The bits of the stream, index 0 first. -/
  bits : List Bool
deriving DecidableEq, Repr

/-- The four streams S0..S3 (R44). -/
structure Streams where
  s0 : Stream
  s1 : Stream
  s2 : Stream
  s3 : Stream
deriving DecidableEq, Repr

/-- The Reed-Solomon state (R47, R48). -/
structure Rs where
  /-- K: the number of EC bytes of the current generator. -/
  k : Nat
  /-- G[j]: the coefficient of x^j of the generator. -/
  g : Vector Byte 33
  /-- R[j]: the LFSR registers. -/
  r : Vector Byte 32
  /-- SYN[i]: the syndromes of the last RSSYN. -/
  syn : Vector Byte 32
deriving DecidableEq, Repr

/-- A bit per module, by row and then by column (R49). -/
abbrev BitGrid := List (List Bool)

/-- The module grid (R49). -/
structure Grid where
  /-- VER: the version, 0 when no grid is defined. -/
  ver : Nat
  /-- DIM: the side, 0 when no grid is defined. -/
  dim : Nat
  /-- STATUS.GVALID: a grid is defined. -/
  gvalid : Bool
  /-- Mod[r][c]: true is dark (R50). -/
  mod : BitGrid
  /-- Asg[r][c]: true is assignable. -/
  asg : BitGrid
deriving DecidableEq, Repr

/-- PSTATE (R52). The value 3 never occurs and has no constructor (log 10). -/
inductive PState where
  /-- 0: no traversal in progress. -/
  | idle
  /-- 1: the cursor is on an assignable module not yet passed over. -/
  | active
  /-- 2: the cursor has passed the last assignable module. -/
  | done
deriving DecidableEq, Repr

/-- The placement cursor (R51). -/
structure Cursor where
  /-- PX: the right-hand column of the current strip. -/
  px : Nat
  /-- PY: the row. -/
  py : Nat
  /-- PUP: moving upward, toward row 0. -/
  pup : Bool
  /-- PSIDE: false is the strip's right column PX, true its left column PX - 1. -/
  pside : Bool
  /-- PSTATE. -/
  pstate : PState
  /-- PBITS: the modules passed over since the last PBEGIN or GINIT (R39). -/
  pbits : Nat
deriving DecidableEq, Repr

/-- The mask unit's visible state (R53). -/
structure MaskUnit where
  /-- SCORE0..SCORE7 (R42). -/
  scores : Vector Word 8
  /-- BEST (R41). -/
  best : BitVec 3
deriving DecidableEq, Repr

/-- One thing the host does to QRC (20_memory.md R97). `offset` counts bytes from MMIO_BASE, `size` is the width in bytes. -/
inductive Access where
  /-- `MemRead(MMIO_BASE + offset, size)`. -/
  | read (offset size : Nat)
  /-- `MemWrite(MMIO_BASE + offset, size, value)`. -/
  | write (offset size : Nat) (value : Word)
  /-- The platform's reset signal (70_reset_and_hazards.md R380). -/
  | reset
deriving DecidableEq, Repr

/-- The host's side of the register window: the model's own fields, not the spec's (log 1, log 2). -/
structure HostPort where
  /-- The host's accesses that have not taken effect yet, oldest first (R92): the program (R56). -/
  pending : List Access
  /-- What the host got back from its last access: a value for a read, nothing for a write or a reset (R97). -/
  response : Option Word
deriving DecidableEq, Repr

/-- The whole machine: the architectural state of 10_state.md, the parameter an instance is given, and the host's port. -/
structure State where
  /-- ARG0 (R33). -/
  arg0 : Word
  /-- ARG1 (R34). -/
  arg1 : Word
  /-- RESULT (R35). -/
  result : Word
  status : Status
  streams : Streams
  rs : Rs
  grid : Grid
  cursor : Cursor
  mask : MaskUnit
  /-- The parameter ALIGN_POS of the instance, an argument of the model (R6, R260): no step writes it, reset included (log 9). -/
  alignTable : AlignTable
  host : HostPort
deriving DecidableEq, Repr

/-- QRC never stops with a fault: an error is a code in STATUS and the next command is accepted normally (R341, R346), so there is
no constructor (log 8). -/
inductive Fault where
deriving DecidableEq, Repr

/-- Why a step is refused. -/
inductive Refusal where
  /-- Raised by `exec` for an instruction that has no meaning yet. Safe: nothing can be proved of its effect. -/
  | notModelled (mnemonic : String)
  /-- Raised by `perform` for a host access that is not an aligned 32-bit access to 0x000..0x0FC: it "has no meaning in this spec; a
  model refuses it" (20_memory.md R81, U3; log 3). Safe: a claim about a host that makes such an access cannot be proved. -/
  | unsupportedAccess (offset size : Nat)
deriving DecidableEq, Repr

/-- An empty stream (R44). -/
def Stream.empty : Stream := { pos := 0, cap := 0, bits := [] }

/-- The machine right after reset (R58): every field at the spec's value, no grid, nothing pending, and the default alignment table. -/
def State.reset : State where
  arg0 := 0
  arg1 := 0
  result := 0
  status := { lastErr := .ok, firstErr := .ok, fchk := false, fsel := false, synz := false }
  streams := { s0 := .empty, s1 := .empty, s2 := .empty, s3 := .empty }
  rs := { k := 0, g := (Vector.replicate 33 0).set 0 1, r := Vector.replicate 32 0, syn := Vector.replicate 32 0 }
  grid := { ver := 0, dim := 0, gvalid := false, mod := [], asg := [] }
  cursor := { px := 0, py := 0, pup := false, pside := false, pstate := .idle, pbits := 0 }
  mask := { scores := Vector.replicate 8 0, best := 0 }
  alignTable := defaultAlignTable
  host := { pending := [], response := none }

end Sys2Proof.Machine
end

