-- ==== Sys2Proof/Machine/GfArith.lean ====
section
/-! DEFINITION. The arithmetic of the GF/RS unit: GF(256) (42_gf_rs.md R190, R191), the GF(2) residue (R192), the generator (R193), the
LFSR clock (R194) and the syndromes (R205). -/

namespace Sys2Proof.Machine

/-- `a << 1`, reduced by the field polynomial 0x11D when bit 8 is set (R190). -/
def xtime (a : Byte) : Byte :=
  let t : BitVec 9 := a.setWidth 9 <<< 1
  (if t.getLsbD 8 then t ^^^ 0x11D#9 else t).setWidth 8

/-- The loop of `gfmul`, `n` turns of it: `p` gathers the product (R190). -/
def gfmulLoop : Nat → Byte → Byte → Byte → Byte
  | 0, _, _, p => p
  | n + 1, a, b, p => gfmulLoop n (xtime a) (b >>> 1) (if b.getLsbD 0 then p ^^^ a else p)

/-- `gfmul(a, b)`: the product in GF(256). Eight turns empty every `b`, and a turn with `b = 0` changes no product (R190). -/
def gfmul (a b : Byte) : Byte := gfmulLoop 8 a b 0

/-- `alpha(i)`: 2 raised to the power i in GF(256) (R191). -/
def alpha : Nat → Byte
  | 0 => 1
  | i + 1 => gfmul (alpha i) 2

/-- The index of the highest 1 bit of a non-zero word (R192). -/
def degree (v : Word) : Nat := v.toNat.log2

/-- The xor long division of R192, `n` turns of it. -/
def polymodLoop : Nat → Word → Word → Word
  | 0, v, _ => v
  | n + 1, v, m =>
    if v ≠ 0 ∧ degree m ≤ degree v then polymodLoop n (v ^^^ (m <<< (degree v - degree m))) m else v

/-- `polymod(v, m)` for m ≠ 0. Every turn lowers the degree of a 32-bit `v`, so 32 turns end the division (R192). -/
def polymod (v m : Word) : Word := polymodLoop 32 v m

/-- One factor of the generator: `g` multiplied by (x + alpha(i)), for a `g` of degree i (the inner loop of R193). -/
def genStep (g : Vector Byte 33) (i : Nat) : Vector Byte 33 :=
  byteTable 33 fun j =>
    if j = 0 then gfmul (byteAt g 0) (alpha i)
    else if j ≤ i + 1 then byteAt g (j - 1) ^^^ gfmul (byteAt g j) (alpha i)
    else byteAt g j

/-- The generator for `k` EC bytes: g(x) = (x + alpha(0)) … (x + alpha(k-1)) (R193). -/
def generator (k : Nat) : Vector Byte 33 :=
  (List.range k).foldl genStep (byteTable 33 fun j => if j = 0 then 1 else 0)

/-- One LFSR clock with data byte `d` (R194). -/
def lfsrClock (rs : Rs) (d : Byte) : Rs :=
  if rs.k = 0 then rs
  else
    let fb := d ^^^ byteAt rs.r (rs.k - 1)
    { rs with
      r := byteTable 32 fun j =>
        if j = 0 then gfmul fb (byteAt rs.g 0)
        else if j < rs.k then byteAt rs.r (j - 1) ^^^ gfmul fb (byteAt rs.g j)
        else byteAt rs.r j }

/-- The LFSR clocked with each byte in turn (R202). -/
def lfsrFeed (rs : Rs) (ds : List Byte) : Rs := ds.foldl lfsrClock rs

/-- Every LFSR register 0 (R200). -/
def lfsrClear (rs : Rs) : Rs := { rs with r := byteTable 32 fun _ => 0 }

/-- The EC bytes in the order they are emitted: R[K-1], …, R[0] (R195). -/
def ecBytes (rs : Rs) : List Byte := (List.range rs.k).map fun i => byteAt rs.r (rs.k - 1 - i)

/-- C(alpha(i)) for the codeword whose first byte is the highest-degree coefficient (R205). -/
def syndrome (i : Nat) (cs : List Byte) : Byte :=
  cs.foldl (fun acc c => gfmul acc (alpha i) ^^^ c) 0

/-- SYN after the codeword `cs`: its syndromes for i < K, 0 above (R205). -/
def syndromes (k : Nat) (cs : List Byte) : Vector Byte 32 :=
  byteTable 32 fun i => if i < k then syndrome i cs else 0

/-- SYN[i] = 0 for every i in 0..K-1 (R205). -/
def allZeroBelow (k : Nat) (syn : Vector Byte 32) : Bool :=
  (List.range k).all fun i => byteAt syn i == 0

end Sys2Proof.Machine
end

