-- ==== Sys2Proof/Machine/BchArith.lean ====
section
/-! DEFINITION. The functions of the BCH unit (43_bch.md R230, R231, R235, R237). -/

namespace Sys2Proof.Machine

/-- The format generator 0x537 (R230). -/
def fmtGen : Word := 0x537
/-- The format mask 0x5412 (R230). -/
def fmtMask : Word := 0x5412
/-- The version generator 0x1F25 (R230). -/
def verGen : Word := 0x1F25

/-- The EC levels (R13, R230). -/
inductive EcLevel where
  | l | m | q | h
deriving DecidableEq, Repr

/-- The 2-bit code of an EC level: not the natural order (R230). -/
def EcLevel.code : EcLevel → BitVec 2
  | .l => 1
  | .m => 0
  | .q => 3
  | .h => 2

/-- `fmtword`: the 15-bit format word of the 5 payload bits `ec << 3 | mask` (R231). -/
def fmtword (payload : BitVec 5) : Word :=
  let t : Word := payload.setWidth 32 <<< 10
  (t ||| polymod t fmtGen) ^^^ fmtMask

/-- The word unmasked: `x xor 0x5412` (R233). -/
def fmtUnmask (x : Word) : Word := x ^^^ fmtMask

/-- The unmasked word is a format codeword: its residue is 0 (R233). -/
def fmtClean (w : Word) : Bool := polymod w fmtGen == 0

/-- `w[14:10]`: the payload of an unmasked word (R233). -/
def fmtPayload (w : Word) : BitVec 5 := w.extractLsb' 10 5

/-- `verword(v)`: the 18-bit version word (R235). -/
def verword (v : Nat) : Word :=
  let t : Word := BitVec.ofNat 32 v <<< 12
  t ||| polymod t verGen

/-- The number of bits in which the version word of `v` differs from `x` (R237). -/
def verDistance (x : Word) (v : Nat) : Nat := popcount (verword v ^^^ x)

/-- The scan of VERDEC over candidate versions: the best version so far and its distance; an exact match stops it (R237). -/
def verScan (x : Word) : List Nat → Nat × Nat → Nat × Nat
  | [], best => best
  | v :: vs, (best, bd) =>
    let d := verDistance x v
    if d = 0 then (v, 0)
    else if d < bd then verScan x vs (v, d)
    else verScan x vs (best, bd)

/-- The versions that have a version word, 7..40 (R235). -/
def verCandidates : List Nat := List.range' 7 34

/-- The version nearest to `x` and its distance (R237). -/
def nearestVersion (x : Word) : Nat × Nat := verScan x verCandidates (7, 19)

end Sys2Proof.Machine
end

