-- ==== Sys2Proof/Machine/Ops.lean ====
section
/-! DEFINITION. The shared operations: named updates of State, the streams and their two primitives (41_bitstream.md R150, R151), the
bit grids, and the end of every command: success, or the error that is taken (60_exceptions.md R341-R343). -/

namespace Sys2Proof.Machine

/-! ## Updates of one part of the state -/

def State.setResult (s : State) (v : Word) : State := { s with result := v }
def State.setArg0 (s : State) (v : Word) : State := { s with arg0 := v }
def State.setArg1 (s : State) (v : Word) : State := { s with arg1 := v }
def State.setStatus (s : State) (st : Status) : State := { s with status := st }
def State.setRs (s : State) (rs : Rs) : State := { s with rs := rs }
def State.setGrid (s : State) (g : Grid) : State := { s with grid := g }
def State.setCursor (s : State) (c : Cursor) : State := { s with cursor := c }
def State.setMask (s : State) (m : MaskUnit) : State := { s with mask := m }
def State.setHost (s : State) (h : HostPort) : State := { s with host := h }

/-! ## The streams (R44) -/

def Streams.get (ss : Streams) : StreamId → Stream
  | .s0 => ss.s0
  | .s1 => ss.s1
  | .s2 => ss.s2
  | .s3 => ss.s3

def Streams.set (ss : Streams) (a : StreamId) (st : Stream) : Streams :=
  match a with
  | .s0 => { ss with s0 := st }
  | .s1 => { ss with s1 := st }
  | .s2 => { ss with s2 := st }
  | .s3 => { ss with s3 := st }

/-- Stream `a`. -/
def State.stream (s : State) (a : StreamId) : Stream := s.streams.get a

/-- Replace stream `a`. -/
def State.setStream (s : State) (a : StreamId) (st : Stream) : State :=
  { s with streams := s.streams.set a st }

/-- `S[s].count`: the logical length in bits (R44). -/
def Stream.count (st : Stream) : Nat := st.bits.length

/-- `S[s].bit[i]` for i < count (R44). -/
def Stream.bitAt (st : Stream) (i : Nat) : Bool := st.bits.getD i false

/-- `count - pos`: the bits left to read (R158). -/
def Stream.remaining (st : Stream) : Nat := st.count - st.pos

/-- The next `n` bits at the cursor (R151). -/
def Stream.next (st : Stream) (n : Nat) : List Bool := (st.bits.drop st.pos).take n

/-- The cursor moved past `n` bits (R151). -/
def Stream.advance (st : Stream) (n : Nat) : Stream := { st with pos := st.pos + n }

/-- A write of `n` bits at the cursor needs more than STREAM_MAX_BITS (R150). -/
def Stream.overflows (st : Stream) (n : Nat) : Bool :=
  Config.streamMaxBits < ceil8 (st.pos + n)

/-- The stream after `bs` is written at the cursor: the write defines the new end of the stream, and the capacity grows to the
least multiple of 8 that holds it (R150). -/
def Stream.put (st : Stream) (bs : List Bool) : Stream where
  pos := st.pos + bs.length
  cap := if st.cap < st.pos + bs.length then ceil8 (st.pos + bs.length) else st.cap
  bits := st.bits.take st.pos ++ bs

/-- `StreamWrite` of the bits `bs` (R150). -/
def streamWrite (st : Stream) (bs : List Bool) : Except ErrCode Stream :=
  if st.overflows bs.length then .error .alloc else .ok (st.put bs)

/-- `StreamRead` of `n` bits: the bits, first one first, and the stream with its cursor advanced (R151). -/
def streamRead (st : Stream) (n : Nat) : Except ErrCode (List Bool × Stream) :=
  if st.remaining < n then .error .range else .ok (st.next n, st.advance n)

/-! ## The bit grids (R49) -/

/-- The bit at row `r`, column `c`. -/
def BitGrid.get (g : BitGrid) (r c : Nat) : Bool := (g.getD r []).getD c false

/-- The bit at row `r`, column `c` replaced. -/
def BitGrid.set (g : BitGrid) (r c : Nat) (b : Bool) : BitGrid :=
  g.modify r fun row => row.set c b

/-- The `d` × `d` grid whose bit at (r, c) is `f r c`. -/
def BitGrid.build (d : Nat) (f : Nat → Nat → Bool) : BitGrid :=
  (List.range d).map fun r => (List.range d).map fun c => f r c

/-- `Mod[r][c]`: the module is dark (R50). -/
def State.modAt (s : State) (r c : Nat) : Bool := BitGrid.get s.grid.mod r c

/-- `Asg[r][c]`: the module is assignable (R49). -/
def State.asgAt (s : State) (r c : Nat) : Bool := BitGrid.get s.grid.asg r c

/-! ## How a command ends (R341-R343) -/

/-- Record error `e`: LASTERR is its code, and FIRSTERR too when it is still 0 (R341, R343). -/
def Status.record (st : Status) (e : ErrCode) : Status where
  lastErr := e
  firstErr := if st.firstErr = .ok then e else st.firstErr
  fchk := st.fchk
  fsel := st.fsel
  synz := st.synz

/-- `raise e`: the error is taken. Nothing changes but LASTERR and FIRSTERR; no state is saved and no control is transferred
(R342, R346). There is no return from it: the host issues its next command (R347). -/
def State.raise (s : State) (e : ErrCode) : State := s.setStatus (s.status.record e)

/-- Success: LASTERR is 0 (R341). -/
def State.succeed (s : State) : State := s.setStatus { s.status with lastErr := .ok }

/-- The end of a command issued in state `s`: it succeeds with a new state, or raises an error and has no other effect
(R341, R342). -/
def complete (s : State) : Except ErrCode State → Host.Outcome State Fault Refusal
  | .ok t => .next t.succeed
  | .error e => .next (s.raise e)

/-- QRC's reset, by the RESET command or by the platform: every piece of QRC's state at its reset value (R380). The alignment table is
the instance's parameter, not state, and stays (R6, log 9); the host's own accesses and what it got back are the host's and stay
(log 11). -/
def hardReset (s : State) : State := { State.reset with alignTable := s.alignTable, host := s.host }

end Sys2Proof.Machine
end

