-- ==== Sys2Proof/Machine/Flags.lean ====
section
/-! DEFINITION. The flags FCHK, FSEL and SYNZ (10_state.md R54) and the words the STATUS, GRIDCFG and PCUR registers read as
(R36-R38). -/

namespace Sys2Proof.Machine

/-- STATUS.FCHK <- b (R233, R234). -/
def State.setFchk (s : State) (b : Bool) : State := s.setStatus { s.status with fchk := b }

/-- STATUS.FSEL <- b (R234). -/
def State.setFsel (s : State) (b : Bool) : State := s.setStatus { s.status with fsel := b }

/-- STATUS.SYNZ <- b (R205). -/
def State.setSynz (s : State) (b : Bool) : State := s.setStatus { s.status with synz := b }

/-- The number of an error code (R340). -/
def ErrCode.code : ErrCode → BitVec 4
  | .ok => 0
  | .alloc => 1
  | .invalidInput => 2
  | .range => 3
  | .invalidSize => 4
  | .malformed => 5
  | .illegal => 6

/-- The number of a placement state (R36, R52). -/
def PState.code : PState → BitVec 2
  | .idle => 0
  | .active => 1
  | .done => 2

/-- What STATUS reads as (R36). -/
def statusWord (s : State) : Word :=
  0#18 ++ s.cursor.pstate.code ++ BitVec.ofBool s.grid.gvalid ++ BitVec.ofBool s.status.synz
    ++ BitVec.ofBool s.status.fsel ++ BitVec.ofBool s.status.fchk
    ++ s.status.firstErr.code ++ s.status.lastErr.code

/-- What GRIDCFG reads as (R37). -/
def gridcfgWord (g : Grid) : Word := 0#16 ++ BitVec.ofNat 8 g.dim ++ BitVec.ofNat 8 g.ver

/-- The column of the module under the cursor: PX - PSIDE (R51). -/
def Cursor.col (c : Cursor) : Nat := c.px - c.pside.toNat

/-- What PCUR reads as: the module under the cursor while ACTIVE, else 0 (R38). -/
def pcurWord (c : Cursor) : Word :=
  if c.pstate = .active then
    0#14 ++ BitVec.ofBool c.pside ++ BitVec.ofBool c.pup ++ BitVec.ofNat 8 c.py ++ BitVec.ofNat 8 c.col
  else 0

end Sys2Proof.Machine
end

