-- ==== Sys2Proof/Machine/Operands.lean ====
section
/-! DEFINITION. Where a command's operands come from (30_encoding.md R105, R106) and the checks several commands share (30_encoding.md
R109; 44_grid_layout.md R267). Every field is an unsigned integer taken as it stands. -/

namespace Sys2Proof.Machine

/-- ARG0 as an unsigned integer: a bit count, byte count, position, capacity or width (R106). -/
def State.arg0Nat (s : State) : Nat := s.arg0.toNat

/-- ARG1 as an unsigned integer (R106). -/
def State.arg1Nat (s : State) : Nat := s.arg1.toNat

/-- The low `n` bits of ARG0, MSB-first: the value of SWRITE and PWRITE (R106). -/
def State.arg0Bits (s : State) (n : Nat) : List Bool := wordBits n s.arg0

/-- A value placed in RESULT: zero-extended to 32 bits (R8). -/
def resultByte (b : Byte) : Word := b.setWidth 32

/-- A number placed in RESULT (R8). -/
def resultNat (n : Nat) : Word := BitVec.ofNat 32 n

/-- A legal-values condition of R107. Decoding refuses a word that fails it (R109), so a command that reaches execution meets it;
a command of the syntax that does not raises ILLEGAL all the same (log 12). -/
def ifLegal (legal : Bool) (k : Except ErrCode State) : Except ErrCode State :=
  if legal then k else .error .illegal

/-- The check of every grid and mask command but GINIT: RANGE while no grid is defined (R267). -/
def ifGrid (s : State) (k : Except ErrCode State) : Except ErrCode State :=
  if s.grid.gvalid then k else .error .range

/-- The checks of a format-M command: RANGE while no grid is defined, then RANGE for coordinates outside it (R267). -/
def ifModule (s : State) (row col : Byte) (k : Except ErrCode State) : Except ErrCode State :=
  ifGrid s (if row.toNat < s.grid.dim ∧ col.toNat < s.grid.dim then k else .error .range)

/-- The check of every placement transfer: RANGE while the cursor is IDLE (R52). -/
def ifPlacing (s : State) (k : Except ErrCode State) : Except ErrCode State :=
  ifGrid s (if s.cursor.pstate = .idle then .error .range else k)

end Sys2Proof.Machine
end

