-- ==== Sys2Proof/Machine/Bch.lean ====
section
/-! DEFINITION. The BCH format and version commands (43_bch.md). -/

namespace Sys2Proof.Machine

/-- The operand is a 15-bit word: no bit above bit 14 (R233, R234). -/
def isFmtWord (x : Word) : Bool := x.toNat < 2 ^ 15

/-- The operand is an 18-bit word: no bit above bit 17 (R237). -/
def isVerWord (x : Word) : Bool := x.toNat < 2 ^ 18

/-- FMTENC (R232): RESULT <- the format word of IB = ec << 3 | mask. -/
def execFmtenc (ib : Byte) (s : State) : Host.Outcome State Fault Refusal :=
  complete s <| ifLegal (ib.toNat < 32) <|
    .ok (s.setResult (fmtword (ib.setWidth 5)))

/-- FMTDEC (R233): RESULT <- the payload of ARG0 without correction; FCHK <- it is a clean codeword. -/
def execFmtdec (s : State) : Host.Outcome State Fault Refusal :=
  complete s <|
    if isFmtWord s.arg0 then
      .ok ((s.setResult ((fmtPayload (fmtUnmask s.arg0)).setWidth 32)).setFchk (fmtClean (fmtUnmask s.arg0)))
    else .error .range

/-- FMTDEC2 (R234): RESULT <- the payload of the first clean copy of ARG0, ARG1; FSEL <- the second was chosen; FCHK <- 1;
MALFORMED if neither is clean. -/
def execFmtdec2 (s : State) : Host.Outcome State Fault Refusal :=
  complete s <|
    if isFmtWord s.arg0 && isFmtWord s.arg1 then
      if fmtClean (fmtUnmask s.arg0) then
        .ok (((s.setResult ((fmtPayload (fmtUnmask s.arg0)).setWidth 32)).setFsel false).setFchk true)
      else if fmtClean (fmtUnmask s.arg1) then
        .ok (((s.setResult ((fmtPayload (fmtUnmask s.arg1)).setWidth 32)).setFsel true).setFchk true)
      else .error .malformed
    else .error .range

/-- VERENC (R236): RESULT <- the version word of IB; RANGE outside 7..40. -/
def execVerenc (ib : Byte) (s : State) : Host.Outcome State Fault Refusal :=
  complete s <|
    if ib.toNat < 7 ∨ Config.verMax < ib.toNat then .error .range
    else .ok (s.setResult (verword ib.toNat))

/-- VERDEC (R237): RESULT <- distance << 8 | version of the version word nearest to ARG0. -/
def execVerdec (s : State) : Host.Outcome State Fault Refusal :=
  complete s <|
    if isVerWord s.arg0 then
      .ok (s.setResult (BitVec.ofNat 32 (nearestVersion s.arg0).2 <<< 8 ||| BitVec.ofNat 32 (nearestVersion s.arg0).1))
    else .error .range

/-- DIMCHK (R238): RESULT <- the version of a grid of width ARG0 and height ARG1; INVALID_SIZE if there is none. -/
def execDimchk (s : State) : Host.Outcome State Fault Refusal :=
  complete s <|
    if s.arg0Nat ≠ s.arg1Nat ∨ s.arg0Nat < Config.dimOf Config.verMin ∨ Config.dimOf Config.verMax < s.arg0Nat
        ∨ (s.arg0Nat - 17) % 4 ≠ 0 then .error .invalidSize
    else .ok (s.setResult (resultNat ((s.arg0Nat - 17) / 4)))

end Sys2Proof.Machine
end

