-- ==== Sys2Proof/Machine/Bitstream.lean ====
section
/-! DEFINITION. The bit-stream commands (41_bitstream.md). -/

namespace Sys2Proof.Machine

/-- SCREATE (R153): stream a is made empty. -/
def execScreate (a : StreamId) (s : State) : Host.Outcome State Fault Refusal :=
  complete s (.ok (s.setStream a .empty))

/-- SRESIZE (R154): the capacity is set to ceil8(ARG0); RANGE below count, ALLOC past STREAM_MAX_BITS. -/
def execSresize (a : StreamId) (s : State) : Host.Outcome State Fault Refusal :=
  complete s <|
    if s.arg0Nat < (s.stream a).count then .error .range
    else if Config.streamMaxBits < ceil8 s.arg0Nat then .error .alloc
    else .ok (s.setStream a { s.stream a with cap := ceil8 s.arg0Nat })

/-- SDUP (R155): stream a becomes an independent copy of stream b. -/
def execSdup (a b : StreamId) (s : State) : Host.Outcome State Fault Refusal :=
  complete s (.ok (s.setStream a (s.stream b)))

/-- SSEEK (R156): pos <- ARG0; RANGE past count. -/
def execSseek (a : StreamId) (s : State) : Host.Outcome State Fault Refusal :=
  complete s <|
    if (s.stream a).count < s.arg0Nat then .error .range
    else .ok (s.setStream a { s.stream a with pos := s.arg0Nat })

/-- STELL (R157): RESULT <- pos. -/
def execStell (a : StreamId) (s : State) : Host.Outcome State Fault Refusal :=
  complete s (.ok (s.setResult (resultNat (s.stream a).pos)))

/-- SREMAIN (R158): RESULT <- count - pos. -/
def execSremain (a : StreamId) (s : State) : Host.Outcome State Fault Refusal :=
  complete s (.ok (s.setResult (resultNat (s.stream a).remaining)))

/-- SREAD (R159): RESULT <- the next n bits, n ≤ 32. -/
def execSread (a : StreamId) (n : BitVec 6) (s : State) : Host.Outcome State Fault Refusal :=
  complete s <| ifLegal (n.toNat ≤ 32) <|
    match streamRead (s.stream a) n.toNat with
    | .ok (bs, st) => .ok ((s.setStream a st).setResult (bitsToWord bs))
    | .error e => .error e

/-- SWRITE (R160): the low n bits of ARG0 are written, n ≤ 32. -/
def execSwrite (a : StreamId) (n : BitVec 6) (s : State) : Host.Outcome State Fault Refusal :=
  complete s <| ifLegal (n.toNat ≤ 32) <|
    match streamWrite (s.stream a) (s.arg0Bits n.toNat) with
    | .ok st => .ok (s.setStream a st)
    | .error e => .error e

/-- SCOPY (R161): ARG0 bits move from the cursor of stream b to the cursor of stream a; 0 bits change nothing. -/
def execScopy (a b : StreamId) (s : State) : Host.Outcome State Fault Refusal :=
  complete s <| ifLegal (a ≠ b) <|
    if (s.stream b).remaining < s.arg0Nat then .error .range
    else if s.arg0Nat = 0 then .ok s
    else
      match streamWrite (s.stream a) ((s.stream b).next s.arg0Nat) with
      | .ok st => .ok ((s.setStream b ((s.stream b).advance s.arg0Nat)).setStream a st)
      | .error e => .error e

/-- SCONCAT (R162): all of stream b is written at the cursor of stream a; b is unchanged, and an empty b changes nothing. -/
def execSconcat (a b : StreamId) (s : State) : Host.Outcome State Fault Refusal :=
  complete s <| ifLegal (a ≠ b) <|
    if (s.stream b).count = 0 then .ok s
    else
      match streamWrite (s.stream a) (s.stream b).bits with
      | .ok st => .ok (s.setStream a st)
      | .error e => .error e

end Sys2Proof.Machine
end

