-- ==== Sys2Proof/Machine/Control.lean ====
section
/-! DEFINITION. The control commands (40_control.md). -/

namespace Sys2Proof.Machine

/-- NOP (R140): nothing but LASTERR <- 0. -/
def execNop (s : State) : Host.Outcome State Fault Refusal :=
  complete s (.ok s)

/-- CLRERR (R141): FIRSTERR <- 0; LASTERR <- 0. -/
def execClrerr (s : State) : Host.Outcome State Fault Refusal :=
  complete s (.ok (s.setStatus { s.status with firstErr := .ok, lastErr := .ok }))

/-- RESET (R142): identical in effect to the hardware reset (R380). -/
def execReset (s : State) : Host.Outcome State Fault Refusal :=
  complete s (.ok (hardReset s))

end Sys2Proof.Machine
end

