-- ==== Sys2Proof/Machine/GfRs.lean ====
section
/-! DEFINITION. The GF(256) and Reed-Solomon commands (42_gf_rs.md). -/

namespace Sys2Proof.Machine

/-- GFMUL (R197): RESULT <- gfmul(IA, IB). -/
def execGfmul (ia ib : Byte) (s : State) : Host.Outcome State Fault Refusal :=
  complete s (.ok (s.setResult (resultByte (gfmul ia ib))))

/-- POLYMOD (R198): RESULT <- polymod(ARG0, ARG1); RANGE for a zero modulus. -/
def execPolymod (s : State) : Host.Outcome State Fault Refusal :=
  complete s <|
    if s.arg1 = 0 then .error .range
    else .ok (s.setResult (polymod s.arg0 s.arg1))

/-- RSGEN (R199): the generator for k = N EC bytes; R cleared, SYN kept; RANGE past RS_MAX_K. -/
def execRsgen (n : BitVec 6) (s : State) : Host.Outcome State Fault Refusal :=
  complete s <|
    if Config.rsMaxK < n.toNat then .error .range
    else .ok (s.setRs (lfsrClear { s.rs with k := n.toNat, g := generator n.toNat }))

/-- RSCLR (R200): every LFSR register 0; K and G kept. -/
def execRsclr (s : State) : Host.Outcome State Fault Refusal :=
  complete s (.ok (s.setRs (lfsrClear s.rs)))

/-- RSFEEDI (R201): one LFSR clock with IB. -/
def execRsfeedi (ib : Byte) (s : State) : Host.Outcome State Fault Refusal :=
  complete s (.ok (s.setRs (lfsrClock s.rs ib)))

/-- RSFEED (R202): one LFSR clock with each of the next ARG0 bytes of stream a; RANGE before any byte is consumed. -/
def execRsfeed (a : StreamId) (s : State) : Host.Outcome State Fault Refusal :=
  complete s <|
    match streamRead (s.stream a) (8 * s.arg0Nat) with
    | .ok (bs, st) => .ok ((s.setStream a st).setRs (lfsrFeed s.rs (takeBytes s.arg0Nat bs)))
    | .error e => .error e

/-- RSEMIT (R203): R[K-1], …, R[0] are written to stream a; R kept; K = 0 writes nothing. -/
def execRsemit (a : StreamId) (s : State) : Host.Outcome State Fault Refusal :=
  complete s <|
    if (s.stream a).overflows (8 * s.rs.k) then .error .alloc
    else if s.rs.k = 0 then .ok s
    else .ok (s.setStream a ((s.stream a).put ((ecBytes s.rs).flatMap byteBits)))

/-- RSSYN (R205): the syndromes of the next ARG0 bytes of stream a, and SYNZ; RANGE before any byte is consumed. -/
def execRssyn (a : StreamId) (s : State) : Host.Outcome State Fault Refusal :=
  complete s <|
    match streamRead (s.stream a) (8 * s.arg0Nat) with
    | .ok (bs, st) =>
      let syn := syndromes s.rs.k (takeBytes s.arg0Nat bs)
      .ok (((s.setStream a st).setRs { s.rs with syn := syn }).setSynz (allZeroBelow s.rs.k syn))
    | .error e => .error e

/-- RSRDG (R206): RESULT <- G[N]; RANGE past RS_MAX_K. -/
def execRsrdg (n : BitVec 6) (s : State) : Host.Outcome State Fault Refusal :=
  complete s <|
    if Config.rsMaxK < n.toNat then .error .range
    else .ok (s.setResult (resultByte (byteAt s.rs.g n.toNat)))

/-- RSRDR (R207): RESULT <- R[N]; RANGE from RS_MAX_K on. -/
def execRsrdr (n : BitVec 6) (s : State) : Host.Outcome State Fault Refusal :=
  complete s <|
    if Config.rsMaxK ≤ n.toNat then .error .range
    else .ok (s.setResult (resultByte (byteAt s.rs.r n.toNat)))

/-- RSRDS (R208): RESULT <- SYN[N]; RANGE from RS_MAX_K on. -/
def execRsrds (n : BitVec 6) (s : State) : Host.Outcome State Fault Refusal :=
  complete s <|
    if Config.rsMaxK ≤ n.toNat then .error .range
    else .ok (s.setResult (resultByte (byteAt s.rs.syn n.toNat)))

end Sys2Proof.Machine
end

