-- ==== Sys2Proof/Machine/Placement.lean ====
section
/-! DEFINITION. The placement traversal (44_grid_layout.md R274, R275): the raw order, the assignable order, and moving bits between a
bit sequence and the modules under the cursor. `d` is DIM and `asg` the assignable bits. -/

namespace Sys2Proof.Machine

/-- `advance_raw`: the next raw position; `true` when the traversal is over (END), which leaves PSIDE = 0 and the rest as it
was (R274). -/
def advanceRaw (d : Nat) (c : Cursor) : Cursor × Bool :=
  if c.pside = false then ({ c with pside := true }, false)
  else if c.pup = true ∧ 0 < c.py then ({ c with pside := false, py := c.py - 1 }, false)
  else if c.pup = false ∧ c.py < d - 1 then ({ c with pside := false, py := c.py + 1 }, false)
  else if c.px = 1 then ({ c with pside := false }, true)
  else ({ c with pside := false, px := if c.px - 2 = 6 then 5 else c.px - 2, pup := !c.pup }, false)

/-- The module under the cursor is assignable. -/
def Cursor.onAssignable (asg : BitGrid) (c : Cursor) : Bool := BitGrid.get asg c.py c.col

/-- `seek()` with at most `n` positions to look at: ACTIVE at the first assignable module from the cursor on, DONE if there is
none (R275). -/
def seekFor (d : Nat) (asg : BitGrid) : Nat → Cursor → Cursor
  | 0, c => { c with pstate := .done }
  | n + 1, c =>
    if c.onAssignable asg then { c with pstate := .active }
    else if (advanceRaw d c).2 then { (advanceRaw d c).1 with pstate := .done }
    else seekFor d asg n (advanceRaw d c).1

/-- `seek()` (R275). A traversal has fewer than `d * d` raw positions (log 13). -/
def seek (d : Nat) (asg : BitGrid) (c : Cursor) : Cursor := seekFor d asg (d * d) c

/-- `step()`: one module has been moved at the cursor (R275). -/
def Cursor.step (d : Nat) (asg : BitGrid) (c : Cursor) : Cursor :=
  let c := { c with pbits := c.pbits + 1 }
  if (advanceRaw d c).2 then { (advanceRaw d c).1 with pstate := .done }
  else seek d asg (advanceRaw d c).1

/-- The assignable modules among the next `n` raw positions from the cursor (included) to END. -/
def countAhead (d : Nat) (asg : BitGrid) : Nat → Cursor → Nat
  | 0, _ => 0
  | n + 1, c =>
    (c.onAssignable asg).toNat + if (advanceRaw d c).2 then 0 else countAhead d asg n (advanceRaw d c).1

/-- `remaining()`: the assignable modules from the cursor (included) to END, 0 if DONE (R275). -/
def Cursor.remaining (d : Nat) (asg : BitGrid) (c : Cursor) : Nat :=
  if c.pstate = .done then 0 else countAhead d asg (d * d) c

/-- The start of the raw order: the right column of the last strip, bottom row, upward (R274, R277). -/
def startCursor (d : Nat) : Cursor where
  px := d - 1
  py := d - 1
  pup := true
  pside := false
  pstate := .idle
  pbits := 0

/-- PBEGIN's cursor: the first assignable module (R277). -/
def beginCursor (d : Nat) (asg : BitGrid) : Cursor := seek d asg (startCursor d)

/-- Each bit in turn written to the module under the cursor, which then steps (R278, R280). -/
def placeBits (d : Nat) (asg : BitGrid) : List Bool → BitGrid → Cursor → BitGrid × Cursor
  | [], mod, c => (mod, c)
  | b :: bs, mod, c => placeBits d asg bs (BitGrid.set mod c.py c.col b) (c.step d asg)

/-- `n` bits read from the modules under the cursor, which steps after each (R279, R281). -/
def pickBits (d : Nat) (asg mod : BitGrid) : Nat → Cursor → List Bool × Cursor
  | 0, c => ([], c)
  | n + 1, c =>
    (BitGrid.get mod c.py c.col :: (pickBits d asg mod n (c.step d asg)).1, (pickBits d asg mod n (c.step d asg)).2)

end Sys2Proof.Machine
end

