-- ==== Sys2Proof/Machine/Reserved.lean ====
section
/-! DEFINITION. The reserved region of a version (44_grid_layout.md R260-R266), for any alignment table. Rows `r` and columns `c` are those of a grid of side `d`. -/

namespace Sys2Proof.Machine

/-- `lo ≤ x ≤ hi`. -/
def inRange (lo hi x : Nat) : Bool := lo ≤ x && x ≤ hi

/-- The three 8 × 8 finder squares (R261). -/
def finderRegion (d r c : Nat) : Bool :=
  (inRange 0 7 r && inRange 0 7 c) || (inRange 0 7 r && inRange (d - 8) (d - 1) c)
    || (inRange (d - 8) (d - 1) r && inRange 0 7 c)

/-- Row 6 and column 6 (R262). -/
def timingRegion (r c : Nat) : Bool := r == 6 || c == 6

/-- Both format copies (R263). -/
def formatRegion (d r c : Nat) : Bool :=
  (r == 8 && (inRange 0 8 c || inRange (d - 8) (d - 1) c))
    || (c == 8 && (inRange 0 8 r || inRange (d - 8) (d - 1) r))

/-- The two version blocks, for v ≥ 7 only (R264). -/
def versionRegion (v d r c : Nat) : Bool :=
  7 ≤ v && ((inRange 0 5 r && inRange (d - 11) (d - 9) c) || (inRange (d - 11) (d - 9) r && inRange 0 5 c))

/-- `x` lies in `a-2..a+2`. -/
def nearCentre (a x : Nat) : Bool := a ≤ x + 2 && x ≤ a + 2

/-- The pair (A[i], A[j]) coincides with a finder pattern (R265); `n` is the length of A. -/
def atFinder (n i j : Nat) : Bool :=
  (i == 0 && j == 0) || (i == 0 && j == n - 1) || (i == n - 1 && j == 0)

/-- The 5 × 5 alignment squares of the centre coordinates `as` (R265). -/
def alignRegion (as : List Nat) (r c : Nat) : Bool :=
  (List.range as.length).any fun i =>
    nearCentre (as.getD i 0) r &&
      (List.range as.length).any fun j => nearCentre (as.getD j 0) c && !atFinder as.length i j

/-- `Reserved(v)`: the union of the regions (R266), for the alignment centres `as` of version `v`. -/
def reserved (as : List Nat) (v r c : Nat) : Bool :=
  let d := Config.dimOf v
  finderRegion d r c || timingRegion r c || formatRegion d r c || versionRegion v d r c || alignRegion as r c

/-- `ALIGN_POS(v)` of a table, whose rows are those of versions 1, 2, … (R260). -/
def alignPos (table : AlignTable) (v : Nat) : List Nat := table.getD (v - 1) []

/-- The blank grid of version `v` under an alignment table: every module light, and assignable exactly when not reserved (R266,
R268). -/
def blankGrid (table : AlignTable) (v : Nat) : Grid where
  ver := v
  dim := Config.dimOf v
  gvalid := true
  mod := BitGrid.build (Config.dimOf v) fun _ _ => false
  asg := BitGrid.build (Config.dimOf v) fun r c => !reserved (alignPos table v) v r c

end Sys2Proof.Machine
end

