-- ==== Sys2Proof/Machine/GridLayout.lean ====
section
/-! DEFINITION. The module grid and placement commands (44_grid_layout.md). -/

namespace Sys2Proof.Machine

/-- The grid and the cursor after a placement transfer. -/
def State.setPlaced (s : State) (mod : BitGrid) (c : Cursor) : State :=
  (s.setGrid { s.grid with mod := mod }).setCursor c

/-- `remaining()` of the cursor of `s` (R275). -/
def State.modulesLeft (s : State) : Nat := s.cursor.remaining s.grid.dim s.grid.asg

/-- Columns `col..col+31` of row `row` within the grid set from the bits of `v`, the leftmost from bit 31 (R272, R84). -/
def writeRow32 (d : Nat) (mod : BitGrid) (row col : Nat) (v : Word) : BitGrid :=
  (List.range 32).foldl
    (fun m j => if col + j < d then BitGrid.set m row (col + j) (v.getLsbD (31 - j)) else m) mod

/-- Columns `col..col+31` of row `row`, the leftmost in bit 31; columns outside the grid read 0 (R273, R84). -/
def readRow32 (d : Nat) (mod : BitGrid) (row col : Nat) : Word :=
  bitsToWord ((List.range 32).map fun j => decide (col + j < d) && BitGrid.get mod row (col + j))

/-- GINIT (R268): a blank grid of version IB under the instance's alignment table, the cursor at its first assignable module; RANGE outside 1..40. -/
def execGinit (ib : Byte) (s : State) : Host.Outcome State Fault Refusal :=
  complete s <|
    if ib.toNat < Config.verMin ∨ Config.verMax < ib.toNat then .error .range
    else .ok ((s.setGrid (blankGrid s.alignTable ib.toNat)).setCursor
      (beginCursor (Config.dimOf ib.toNat) (blankGrid s.alignTable ib.toNat).asg))

/-- MODW (R269): Mod[row][col] <- VAL[0]. -/
def execModw (row col val : Byte) (s : State) : Host.Outcome State Fault Refusal :=
  complete s <| ifLegal (val.toNat < 2) <| ifModule s row col <|
    .ok (s.setGrid { s.grid with mod := BitGrid.set s.grid.mod row.toNat col.toNat (val.getLsbD 0) })

/-- MODR (R270): RESULT <- Asg[row][col] << 1 | Mod[row][col]. -/
def execModr (row col : Byte) (s : State) : Host.Outcome State Fault Refusal :=
  complete s <| ifModule s row col <|
    .ok (s.setResult (0#30 ++ BitVec.ofBool (s.asgAt row.toNat col.toNat)
      ++ BitVec.ofBool (s.modAt row.toNat col.toNat)))

/-- AMW (R271): Asg[row][col] <- VAL[0]; PSTATE <- IDLE; PBITS <- 0. -/
def execAmw (row col val : Byte) (s : State) : Host.Outcome State Fault Refusal :=
  complete s <| ifLegal (val.toNat < 2) <| ifModule s row col <|
    .ok ((s.setGrid { s.grid with asg := BitGrid.set s.grid.asg row.toNat col.toNat (val.getLsbD 0) }).setCursor
      { s.cursor with pstate := .idle, pbits := 0 })

/-- MODW32 (R272): up to 32 modules of one row <- ARG0. -/
def execModw32 (row col : Byte) (s : State) : Host.Outcome State Fault Refusal :=
  complete s <| ifModule s row col <|
    .ok (s.setGrid { s.grid with mod := writeRow32 s.grid.dim s.grid.mod row.toNat col.toNat s.arg0 })

/-- MODR32 (R273): RESULT <- up to 32 modules of one row. -/
def execModr32 (row col : Byte) (s : State) : Host.Outcome State Fault Refusal :=
  complete s <| ifModule s row col <|
    .ok (s.setResult (readRow32 s.grid.dim s.grid.mod row.toNat col.toNat))

/-- PBEGIN (R277): the traversal starts at the first assignable module. -/
def execPbegin (s : State) : Host.Outcome State Fault Refusal :=
  complete s <| ifGrid s <|
    .ok (s.setCursor (beginCursor s.grid.dim s.grid.asg))

/-- PWRITE (R278): the low n bits of ARG0 to the next n modules, 1 ≤ n ≤ 8; RANGE while IDLE or with fewer modules left. -/
def execPwrite (n : BitVec 6) (s : State) : Host.Outcome State Fault Refusal :=
  complete s <| ifLegal (1 ≤ n.toNat ∧ n.toNat ≤ 8) <| ifPlacing s <|
    if s.modulesLeft < n.toNat then .error .range
    else
      let p := placeBits s.grid.dim s.grid.asg (s.arg0Bits n.toNat) s.grid.mod s.cursor
      .ok (s.setPlaced p.1 p.2)

/-- PREAD (R279): RESULT <- the next n modules, 1 ≤ n ≤ 8; RANGE while IDLE or with fewer modules left. -/
def execPread (n : BitVec 6) (s : State) : Host.Outcome State Fault Refusal :=
  complete s <| ifLegal (1 ≤ n.toNat ∧ n.toNat ≤ 8) <| ifPlacing s <|
    if s.modulesLeft < n.toNat then .error .range
    else
      let p := pickBits s.grid.dim s.grid.asg s.grid.mod n.toNat s.cursor
      .ok ((s.setCursor p.2).setResult (bitsToWord p.1))

/-- PSTORE (R280): ARG0 bits from stream a to the next modules; all or nothing. -/
def execPstore (a : StreamId) (s : State) : Host.Outcome State Fault Refusal :=
  complete s <| ifPlacing s <|
    if (s.stream a).remaining < s.arg0Nat then .error .range
    else if s.modulesLeft < s.arg0Nat then .error .range
    else
      let p := placeBits s.grid.dim s.grid.asg ((s.stream a).next s.arg0Nat) s.grid.mod s.cursor
      .ok ((s.setStream a ((s.stream a).advance s.arg0Nat)).setPlaced p.1 p.2)

/-- PLOAD (R281): the next ARG0 modules to stream a; all or nothing, and 0 modules change nothing. -/
def execPload (a : StreamId) (s : State) : Host.Outcome State Fault Refusal :=
  complete s <| ifPlacing s <|
    if s.modulesLeft < s.arg0Nat then .error .range
    else if s.arg0Nat = 0 then .ok s
    else if (s.stream a).overflows s.arg0Nat then .error .alloc
    else
      let p := pickBits s.grid.dim s.grid.asg s.grid.mod s.arg0Nat s.cursor
      .ok ((s.setStream a ((s.stream a).put p.1)).setCursor p.2)

end Sys2Proof.Machine
end

