-- ==== Sys2Proof/Machine/Penalty.lean ====
section
/-! DEFINITION. The mask conditions and the masked grid (45_mask.md R310, R311), the four penalties (R312-R315), the score (R316) and the
choice of the best of the 8 masks (R319). -/

namespace Sys2Proof.Machine

/-- `f_m(i, j)` for mask m = 0..7, row i and column j (R310); the last line is m = 7. -/
def maskCond (m i j : Nat) : Nat :=
  match m with
  | 0 => (i + j) % 2
  | 1 => i % 2
  | 2 => j % 3
  | 3 => (i + j) % 3
  | 4 => (i / 2 + j / 3) % 2
  | 5 => i * j % 2 + i * j % 3
  | 6 => (i * j % 2 + i * j % 3) % 2
  | _ => ((i + j) % 2 + i * j % 3) % 2

/-- `masked(Mod, m)`: an assignable module is flipped exactly when `f_m` is 0 there (R311). -/
def masked (d : Nat) (mod asg : BitGrid) (m : Nat) : BitGrid :=
  BitGrid.build d fun i j => BitGrid.get mod i j ^^ (BitGrid.get asg i j && maskCond m i j == 0)

/-- Row `i` of a grid, in increasing column order. -/
def rowLine (d : Nat) (g : BitGrid) (i : Nat) : List Bool := (List.range d).map fun j => BitGrid.get g i j

/-- Column `j` of a grid, in increasing row order. -/
def colLine (d : Nat) (g : BitGrid) (j : Nat) : List Bool := (List.range d).map fun i => BitGrid.get g i j

/-- The 2D lines of a grid: its rows and its columns (45_mask.md section 2). -/
def gridLines (d : Nat) (g : BitGrid) : List (List Bool) :=
  (List.range d).map (rowLine d g) ++ (List.range d).map (colLine d g)

/-- A module put in front of the runs of the modules after it. -/
def consRun (b : Bool) : List (Bool × Nat) → List (Bool × Nat)
  | [] => [(b, 1)]
  | (x, n) :: rest => if x = b then (x, n + 1) :: rest else (b, 1) :: (x, n) :: rest

/-- The runs of a line: its maximal blocks of equal colour, as (colour, length) pairs (45_mask.md section 2). -/
def lineRuns (l : List Bool) : List (Bool × Nat) := l.foldr consRun []

/-- What one run adds to penalty a: 3 + (L - 5) for a length L ≥ 5 (R312). -/
def runPenalty (l : Nat) : Nat := if 5 ≤ l then 3 + (l - 5) else 0

/-- `pa`: long runs (R312). -/
def penaltyA (d : Nat) (g : BitGrid) : Nat :=
  ((gridLines d g).map fun l => ((lineRuns l).map fun r => runPenalty r.2).sum).sum

/-- The four modules of the 2 × 2 block at (i, j) have one colour (R313). -/
def uniformBlock (g : BitGrid) (i j : Nat) : Bool :=
  BitGrid.get g i j == BitGrid.get g i (j + 1) && BitGrid.get g i j == BitGrid.get g (i + 1) j
    && BitGrid.get g i j == BitGrid.get g (i + 1) (j + 1)

/-- `pb`: 3 for each uniform 2 × 2 block, overlapping blocks included (R313). -/
def penaltyB (d : Nat) (g : BitGrid) : Nat :=
  3 * ((List.range (d - 1)).map fun i => (List.range (d - 1)).countP fun j => uniformBlock g i j).sum

/-- The runs begin with a dark run and four more whose lengths are (u, u, 3u, u, u) for some u ≥ 1 (R314). -/
def finderAt : List (Bool × Nat) → Bool
  | (dark, u) :: (_, l1) :: (_, l2) :: (_, l3) :: (_, l4) :: _ =>
    dark && decide (1 ≤ u) && l1 == u && l2 == 3 * u && l3 == u && l4 == u
  | _ => false

/-- The number of finder-like patterns of a line's runs: of the t at which one begins (R314). -/
def finderCount : List (Bool × Nat) → Nat
  | [] => 0
  | r :: rs => (finderAt (r :: rs)).toNat + finderCount rs

/-- `pc`: 40 for each finder-like pattern, in rows and columns, with no border condition: PENALTY_C_RULE = RUNS (R314). -/
def penaltyC (d : Nat) (g : BitGrid) : Nat :=
  40 * ((gridLines d g).map fun l => finderCount (lineRuns l)).sum

/-- The number of dark modules of a grid. -/
def darkCount (d : Nat) (g : BitGrid) : Nat :=
  ((List.range d).map fun i => (rowLine d g i).countP fun b => b).sum

/-- `pd`: 10 * ceil(|20k - 10T| / T) with T = D² and k dark modules (R315). -/
def penaltyD (d : Nat) (g : BitGrid) : Nat :=
  let t := d * d
  let dev := ((20 * darkCount d g : Int) - 10 * t).natAbs
  10 * ((dev + t - 1) / t)

/-- `score`: the four penalties summed (R316). -/
def score (d : Nat) (g : BitGrid) : Nat := penaltyA d g + penaltyB d g + penaltyC d g + penaltyD d g

/-- What MSCORE n reads: the total, or one penalty (R318). -/
def scorePart (d : Nat) (g : BitGrid) (n : Nat) : Nat :=
  match n with
  | 0 => score d g
  | 1 => penaltyA d g
  | 2 => penaltyB d g
  | 3 => penaltyC d g
  | _ => penaltyD d g

/-- SCORE[m]: the score of the grid masked with m (R319). -/
def maskScore (d : Nat) (mod asg : BitGrid) (m : Nat) : Word := BitVec.ofNat 32 (score d (masked d mod asg m))

/-- SCORE0..SCORE7 (R319). -/
def maskScores (d : Nat) (mod asg : BitGrid) : Vector Word 8 :=
  let f := maskScore d mod asg
  #v[f 0, f 1, f 2, f 3, f 4, f 5, f 6, f 7]

/-- The lowest m whose score is the least of the eight (R319). -/
def bestMask (scores : Vector Word 8) : Nat :=
  (List.range 8).foldl (fun b m => if (scores[m]?).getD 0 < (scores[b]?).getD 0 then m else b) 0

end Sys2Proof.Machine
end

