-- ==== Sys2Proof/Machine/Mask.lean ====
section
/-! DEFINITION. The mask commands (45_mask.md). -/

namespace Sys2Proof.Machine

/-- The grid of `s` with mask `m` applied (R311). -/
def State.maskedGrid (s : State) (m : Nat) : Grid :=
  { s.grid with mod := masked s.grid.dim s.grid.mod s.grid.asg m }

/-- MAPPLY (R317): Mod <- masked(Mod, m). -/
def execMapply (ib : Byte) (s : State) : Host.Outcome State Fault Refusal :=
  complete s <| ifLegal (ib.toNat < 8) <| ifGrid s <|
    .ok (s.setGrid (s.maskedGrid ib.toNat))

/-- MSCORE (R318): RESULT <- the score of the grid as it stands, or one of its penalties. -/
def execMscore (n : BitVec 6) (s : State) : Host.Outcome State Fault Refusal :=
  complete s <| ifLegal (n.toNat ≤ 4) <| ifGrid s <|
    .ok (s.setResult (resultNat (scorePart s.grid.dim s.grid.mod n.toNat)))

/-- MSELECT (R319): SCORE0..7 of the 8 masked candidates; the best mask into BEST and RESULT and applied to the grid. -/
def execMselect (s : State) : Host.Outcome State Fault Refusal :=
  complete s <| ifGrid s <|
    let scores := maskScores s.grid.dim s.grid.mod s.grid.asg
    let b := bestMask scores
    .ok (((s.setMask { scores := scores, best := BitVec.ofNat 3 b }).setGrid (s.maskedGrid b)).setResult (resultNat b))

end Sys2Proof.Machine
end

