-- ==== Sys2Proof/Machine/Dispatch.lean ====
section
/-! DEFINITION. One arm per command: the meaning of each row of 30_encoding.md R107. -/

namespace Sys2Proof.Machine

/-- The effect of a command issued in state `s` (R111, R112). -/
def exec (i : Instr) (s : State) : Host.Outcome State Fault Refusal :=
  match i with
  | .nop => Sys2Proof.Machine.execNop s
  | .clrerr => Sys2Proof.Machine.execClrerr s
  | .reset => Sys2Proof.Machine.execReset s
  | .screate a => Sys2Proof.Machine.execScreate a s
  | .sresize a => Sys2Proof.Machine.execSresize a s
  | .sdup a b => Sys2Proof.Machine.execSdup a b s
  | .sseek a => Sys2Proof.Machine.execSseek a s
  | .stell a => Sys2Proof.Machine.execStell a s
  | .sremain a => Sys2Proof.Machine.execSremain a s
  | .sread a n => Sys2Proof.Machine.execSread a n s
  | .swrite a n => Sys2Proof.Machine.execSwrite a n s
  | .scopy a b => Sys2Proof.Machine.execScopy a b s
  | .sconcat a b => Sys2Proof.Machine.execSconcat a b s
  | .gfmul ia ib => Sys2Proof.Machine.execGfmul ia ib s
  | .polymod => Sys2Proof.Machine.execPolymod s
  | .rsgen n => Sys2Proof.Machine.execRsgen n s
  | .rsclr => Sys2Proof.Machine.execRsclr s
  | .rsfeedi ib => Sys2Proof.Machine.execRsfeedi ib s
  | .rsfeed a => Sys2Proof.Machine.execRsfeed a s
  | .rsemit a => Sys2Proof.Machine.execRsemit a s
  | .rssyn a => Sys2Proof.Machine.execRssyn a s
  | .rsrdg n => Sys2Proof.Machine.execRsrdg n s
  | .rsrdr n => Sys2Proof.Machine.execRsrdr n s
  | .rsrds n => Sys2Proof.Machine.execRsrds n s
  | .fmtenc ib => Sys2Proof.Machine.execFmtenc ib s
  | .fmtdec => Sys2Proof.Machine.execFmtdec s
  | .fmtdec2 => Sys2Proof.Machine.execFmtdec2 s
  | .verenc ib => Sys2Proof.Machine.execVerenc ib s
  | .verdec => Sys2Proof.Machine.execVerdec s
  | .dimchk => Sys2Proof.Machine.execDimchk s
  | .ginit ib => Sys2Proof.Machine.execGinit ib s
  | .modw row col val => Sys2Proof.Machine.execModw row col val s
  | .modr row col => Sys2Proof.Machine.execModr row col s
  | .amw row col val => Sys2Proof.Machine.execAmw row col val s
  | .modw32 row col => Sys2Proof.Machine.execModw32 row col s
  | .modr32 row col => Sys2Proof.Machine.execModr32 row col s
  | .pbegin => Sys2Proof.Machine.execPbegin s
  | .pwrite n => Sys2Proof.Machine.execPwrite n s
  | .pread n => Sys2Proof.Machine.execPread n s
  | .pstore a => Sys2Proof.Machine.execPstore a s
  | .pload a => Sys2Proof.Machine.execPload a s
  | .mapply ib => Sys2Proof.Machine.execMapply ib s
  | .mscore n => Sys2Proof.Machine.execMscore n s
  | .mselect => Sys2Proof.Machine.execMselect s

end Sys2Proof.Machine
end

