-- ==== Sys2Proof/Machine/Window.lean ====
section
/-! DEFINITION. The register window (10_state.md R31-R43, R55; 20_memory.md R80, R81, R89): what a host access does, the issue of a
command by a write to CMD (30_encoding.md R112) included. -/

namespace Sys2Proof.Machine

/-- The registers of the window (R31-R43). -/
inductive Reg where
  | id | cmd | arg0 | arg1 | result | status | gridcfg | pcur | pbits | rscfg | best
  | score (m : Fin 8)
  | spos (a : StreamId)
  | scnt (a : StreamId)
  | scap (a : StreamId)
deriving DecidableEq, Repr

/-- The byte offset of a register from MMIO_BASE. -/
def Reg.offset : Reg → Nat
  | .id => 0x000
  | .cmd => 0x004
  | .arg0 => 0x008
  | .arg1 => 0x00C
  | .result => 0x010
  | .status => 0x014
  | .gridcfg => 0x018
  | .pcur => 0x01C
  | .pbits => 0x020
  | .rscfg => 0x024
  | .best => 0x028
  | .score m => 0x040 + 4 * m.val
  | .spos a => 0x060 + 16 * a.toBits.toNat
  | .scnt a => 0x064 + 16 * a.toBits.toNat
  | .scap a => 0x068 + 16 * a.toBits.toNat

/-- The bus address of a register (R90). -/
def Reg.address (r : Reg) : Nat := Config.mmioBase + r.offset

/-- The stream mirror at `x` bytes past 0x060; the fourth word of each group is reserved (R43). -/
def mirrorReg (x : Nat) : Option Reg :=
  let a := StreamId.ofBits (BitVec.ofNat 2 (x / 16))
  match x % 16 with
  | 0 => some (.spos a)
  | 4 => some (.scnt a)
  | 8 => some (.scap a)
  | _ => none

/-- The register at an offset of the window; none for a reserved offset (R43, R55). -/
def Reg.ofOffset (off : Nat) : Option Reg :=
  match off with
  | 0x000 => some .id
  | 0x004 => some .cmd
  | 0x008 => some .arg0
  | 0x00C => some .arg1
  | 0x010 => some .result
  | 0x014 => some .status
  | 0x018 => some .gridcfg
  | 0x01C => some .pcur
  | 0x020 => some .pbits
  | 0x024 => some .rscfg
  | 0x028 => some .best
  | _ =>
    if 0x040 ≤ off ∧ off < 0x060 then some (.score (Fin.ofNat 8 ((off - 0x040) / 4)))
    else if 0x060 ≤ off ∧ off < 0x0A0 then mirrorReg (off - 0x060)
    else none

/-- What a register reads as. Reading has no side effect (R89). -/
def readReg (s : State) : Reg → Word
  | .id => Config.qrcId
  | .cmd => 0
  | .arg0 => s.arg0
  | .arg1 => s.arg1
  | .result => s.result
  | .status => statusWord s
  | .gridcfg => gridcfgWord s.grid
  | .pcur => pcurWord s.cursor
  | .pbits => BitVec.ofNat 32 s.cursor.pbits
  | .rscfg => 0#26 ++ BitVec.ofNat 6 s.rs.k
  | .best => 0#29 ++ s.mask.best
  | .score m => s.mask.scores[m]
  | .spos a => BitVec.ofNat 32 (s.stream a).pos
  | .scnt a => BitVec.ofNat 32 (s.stream a).count
  | .scap a => BitVec.ofNat 32 (s.stream a).cap

/-- What an offset of the window reads as: a reserved offset reads 0 (R55). -/
def readOffset (s : State) (off : Nat) : Word :=
  match Reg.ofOffset off with
  | some r => readReg s r
  | none => 0

/-- Issue the command word `w`: an illegal word raises ILLEGAL and changes nothing else (R109, R111, R112). -/
def issue (w : Word) (s : State) : Host.Outcome State Fault Refusal :=
  match decode w with
  | .ok i => exec i s
  | .error _ => complete s (.error .illegal)

/-- A write to an offset of the window: CMD executes, ARG0 and ARG1 store, every other write is ignored (R89). -/
def writeOffset (off : Nat) (v : Word) (s : State) : Host.Outcome State Fault Refusal :=
  match Reg.ofOffset off with
  | some .cmd => issue v s
  | some .arg0 => .next (s.setArg0 v)
  | some .arg1 => .next (s.setArg1 v)
  | _ => .next s

/-- An aligned 32-bit access to 0x000..0x0FC: the only kind with a meaning (R81). -/
def supportedAccess (off size : Nat) : Bool := size == 4 && off % 4 == 0 && off ≤ 0x0FC

/-- One host access takes effect (R92, R97). What the host got back is the value read, or nothing (log 2). -/
def perform (a : Access) (s : State) : Host.Outcome State Fault Refusal :=
  match a with
  | .read off size =>
    if supportedAccess off size then .next (s.setHost { s.host with response := some (readOffset s off) })
    else .refused (.unsupportedAccess off size)
  | .write off size v =>
    if supportedAccess off size then writeOffset off v s
    else .refused (.unsupportedAccess off size)
  | .reset => .next (hardReset s)

/-- The host's next access leaves its queue, and what the host got back from the one before is gone. -/
def State.takeAccess (s : State) (rest : List Access) : State :=
  s.setHost { pending := rest, response := none }

/-- The host's next access takes effect; with none, QRC holds its state and does nothing (R97, log 1). -/
def hostStep (s : State) : Host.Outcome State Fault Refusal :=
  match s.host.pending with
  | [] => .next s
  | a :: rest => perform a (s.takeAccess rest)

end Sys2Proof.Machine
end

