-- ==== Sys2Proof/Machine/Step.lean ====
section
/-! DEFINITION. One step of the machine: the host's next access takes effect (20_memory.md R92, R97). -/

namespace Sys2Proof.Machine

/-- One step: the host's next register access, and with a write to CMD the whole command (R88, R92, R112). -/
def step (s : State) : Host.Outcome State Fault Refusal := hostStep s

/-- `s` with the command whose table word is the low `nbits` bits of `w` as the host's next access: a write of it to CMD. QRC fetches
nothing (R56): the host's writes to CMD are the program, so the next step issues exactly this word (log 1). -/
def State.withFetchWord (s : State) (nbits w : Nat) : State :=
  s.setHost { s.host with pending := .write 0x004 4 (BitVec.ofNat 32 (w % 2 ^ nbits)) :: s.host.pending }

end Sys2Proof.Machine
end

