-- ==== Sys2Proof/Machine/HostLines.lean ====
section
/-! DEFINITION. Host programs: the host lines of 30_encoding.md R113 and the pseudo-instructions of R114, each as the register accesses
it stands for. -/

namespace Sys2Proof.Machine

/-- A host line (R113). -/
inductive HostLine where
  /-- A command line: one write of the command's word to CMD. -/
  | command (i : Instr)
  /-- `LI ARG0, imm`. -/
  | liArg0 (imm : Word)
  /-- `LI ARG1, imm`. -/
  | liArg1 (imm : Word)
  /-- `RD NAME`: a read of the named register. -/
  | rd (r : Reg)
deriving DecidableEq, Repr

/-- The register access a host line stands for (R113). -/
def HostLine.access : HostLine → Access
  | .command i => .write Reg.cmd.offset 4 (encode i)
  | .liArg0 v => .write Reg.arg0.offset 4 v
  | .liArg1 v => .write Reg.arg1.offset 4 v
  | .rd r => .read r.offset 4

/-- `FMTENC <L|M|Q|H>, mask`: IB = code << 3 | mask (R113). -/
def fmtencLine (ec : EcLevel) (mask : BitVec 3) : HostLine := .command (.fmtenc (0#3 ++ ec.code ++ mask))

/-- A pseudo-instruction (R114). It is not a command: its parts are, each setting LASTERR on its own. -/
inductive Pseudo where
  | trunc (a : StreamId)
  | srewind (a : StreamId)
  | sput (a : StreamId) (n : BitVec 6) (v : Word)
  | pack (a : StreamId) (w : BitVec 6) (vs : List Word)
  | unpack (a : StreamId) (w : BitVec 6) (m : Nat)
  | rsenc (d s : StreamId) (k : BitVec 6) (m : Word)
  | putcw (v : Word)
  | getcw
deriving DecidableEq, Repr

/-- `SPUT Sa, n, v` (R114). -/
def sputLines (a : StreamId) (n : BitVec 6) (v : Word) : List HostLine := [.liArg0 v, .command (.swrite a n)]

/-- The host lines a pseudo-instruction expands to (R114). -/
def Pseudo.expand : Pseudo → List HostLine
  | .trunc a => [.command (.swrite a 0)]
  | .srewind a => [.liArg0 0, .command (.sseek a)]
  | .sput a n v => sputLines a n v
  | .pack a w vs => vs.flatMap (sputLines a w)
  | .unpack a w m => (List.replicate m [.command (.sread a w), .rd .result]).flatten
  | .rsenc d s k m => [.command (.rsgen k), .liArg0 m, .command (.rsfeed s), .command (.rsemit d)]
  | .putcw v => [.liArg0 v, .command (.pwrite 8)]
  | .getcw => [.command (.pread 8), .rd .result]

/-- `s` with the host lines `ls` as the host's next accesses, in order. -/
def State.withLines (s : State) (ls : List HostLine) : State :=
  s.setHost { s.host with pending := ls.map HostLine.access ++ s.host.pending }

end Sys2Proof.Machine
end

