-- ==== Sys2Proof/Safety.lean ====
section
/-! DEFINITION. What the claims speak of: the well-formed states of each unit (10_state.md R44, R45, R47-R52), the raw walk of the
placement cursor (44_grid_layout.md R274), and the tables of R35 and R355. -/

namespace Sys2Proof.Machine

/-! ## Well-formed states -/

/-- A stream's canonical form: `pos ≤ count ≤ cap ≤ STREAM_MAX_BITS`, the capacity in whole bytes (R44, R45). -/
abbrev Stream.Wf (st : Stream) : Prop :=
  st.pos ≤ st.count ∧ st.count ≤ st.cap ∧ st.cap ≤ Config.streamMaxBits ∧ st.cap % 8 = 0

/-- Every stream is well-formed (R45). -/
def State.StreamsWf (s : State) : Prop := ∀ a : StreamId, (s.stream a).Wf

/-- The RS registers: K in range, G its generator, nothing in R at or above K (R47, R48, R207). -/
abbrev Rs.Wf (rs : Rs) : Prop :=
  rs.k ≤ Config.rsMaxK ∧ rs.g = generator rs.k ∧ ∀ j, j < 32 → rs.k ≤ j → byteAt rs.r j = 0

/-- A bit grid's canonical form: `d` rows of `d` bits. -/
abbrev BitGrid.Square (d : Nat) (g : BitGrid) : Prop := g.length = d ∧ ∀ row ∈ g, row.length = d

/-- GVALID exactly when VER ≠ 0, DIM from VER, and both bit grids of that side (R49). -/
abbrev Grid.Wf (g : Grid) : Prop :=
  g.ver ≤ Config.verMax ∧ (g.gvalid = true ↔ g.ver ≠ 0) ∧ g.dim = (if g.gvalid then Config.dimOf g.ver else 0)
    ∧ BitGrid.Square g.dim g.mod ∧ BitGrid.Square g.dim g.asg

/-! ## The raw walk (R274) -/

/-- A position of the raw order in a grid of side `d`: strips are the column pairs (PX, PX-1) for PX = d-1, d-3, …, 8, then 5, 3, 1,
alternately upward and downward, the first upward (R274). -/
abbrev Cursor.OnPath (d : Nat) (c : Cursor) : Prop :=
  c.py < d ∧ c.px < d ∧ (c.px < 8 → c.px = 1 ∨ c.px = 3 ∨ c.px = 5) ∧ (8 ≤ c.px → c.px % 2 = 0)
    ∧ c.pup = decide ((d - 1 - (if c.px < 8 then c.px + 1 else c.px)) / 2 % 2 = 0)

/-- The cursor after `n` raw moves; none when the traversal ends before (R274). -/
def rawWalk (d : Nat) : Nat → Cursor → Option Cursor
  | 0, c => some c
  | n + 1, c => if (advanceRaw d c).2 then none else rawWalk d n (advanceRaw d c).1

/-- The assignable modules outside column 6: those the traversal can visit (R274, R276). -/
def freeCount (d : Nat) (asg : BitGrid) : Nat :=
  ((List.range d).map fun r => (List.range d).countP fun c => decide (c ≠ 6) && BitGrid.get asg r c).sum

/-- What PSTATE and PBITS say of a traversal (R39, R51, R52, R275): IDLE has counted nothing; ACTIVE is on an assignable module of
the path, with PBITS modules behind it and the others from it on; DONE has passed all of them. -/
def Cursor.Wf (d : Nat) (asg : BitGrid) (c : Cursor) : Prop :=
  (c.pstate = .idle → c.pbits = 0)
    ∧ (c.pstate = .active → c.OnPath d ∧ c.onAssignable asg = true ∧ c.pbits + c.remaining d asg = freeCount d asg)
    ∧ (c.pstate = .done → c.pbits = freeCount d asg)

/-- The grid and the placement cursor together: no traversal without a grid (R267). -/
def State.PlacementWf (s : State) : Prop :=
  s.grid.Wf ∧ s.cursor.Wf s.grid.dim s.grid.asg ∧ (s.grid.gvalid = false → s.cursor.pstate = .idle)

/-! ## Frames -/

/-- The flags FCHK, FSEL and SYNZ are unchanged (R54). -/
abbrev State.SameFlags (s t : State) : Prop :=
  t.status.fchk = s.status.fchk ∧ t.status.fsel = s.status.fsel ∧ t.status.synz = s.status.synz

/-- What is not a command's to write is unchanged: the operand registers (R33, R34), the instance's parameter (R6) and the host's
port. -/
abbrev State.SameHostSide (s t : State) : Prop :=
  t.arg0 = s.arg0 ∧ t.arg1 = s.arg1 ∧ t.alignTable = s.alignTable ∧ t.host = s.host

/-- The command succeeded: LASTERR is 0 and FIRSTERR is kept (R341, R343). -/
abbrev State.Success (s t : State) : Prop :=
  t.status.lastErr = .ok ∧ t.status.firstErr = s.status.firstErr

/-- All a command that raises error `e` may change: LASTERR, and FIRSTERR when it was 0 (R342, R343). -/
def State.withError (s : State) (e : ErrCode) : State :=
  { s with status := { s.status with lastErr := e, firstErr := if s.status.firstErr = .ok then e else s.status.firstErr } }

/-- Only RESULT and the error fields may differ: the frame of a command that computes a result. -/
abbrev State.OnlyResult (s t : State) : Prop :=
  s.SameHostSide t ∧ s.SameFlags t ∧ t.streams = s.streams ∧ t.rs = s.rs ∧ t.grid = s.grid ∧ t.cursor = s.cursor
    ∧ t.mask = s.mask

end Sys2Proof.Machine

namespace Sys2Proof

/-! ## Tables of the whole machine -/

/-- The commands that write RESULT (R35). -/
def Instr.writesResult : Instr → Bool
  | .stell _ | .sremain _ | .sread _ _ | .gfmul _ _ | .polymod | .rsrdg _ | .rsrdr _ | .rsrds _ => true
  | .fmtenc _ | .fmtdec | .fmtdec2 | .verenc _ | .verdec | .dimchk => true
  | .modr _ _ | .modr32 _ _ | .pread _ | .mscore _ | .mselect => true
  | .nop | .clrerr | .reset | .screate _ | .sresize _ | .sdup _ _ | .sseek _ | .swrite _ _ | .scopy _ _ => false
  | .sconcat _ _ | .rsgen _ | .rsclr | .rsfeedi _ | .rsfeed _ | .rsemit _ | .rssyn _ | .ginit _ => false
  | .modw _ _ _ | .amw _ _ _ | .modw32 _ _ | .pbegin | .pwrite _ | .pstore _ | .pload _ | .mapply _ => false

/-- The errors a legal command can raise, ILLEGAL aside (R355). -/
def Instr.errors : Instr → List Machine.ErrCode
  | .nop | .clrerr | .reset => []
  | .screate _ | .sdup _ _ | .stell _ | .sremain _ => []
  | .sresize _ => [.range, .alloc]
  | .sseek _ | .sread _ _ => [.range]
  | .swrite _ _ | .sconcat _ _ => [.alloc]
  | .scopy _ _ => [.range, .alloc]
  | .gfmul _ _ | .rsclr | .rsfeedi _ | .fmtenc _ => []
  | .polymod | .rsgen _ | .rsfeed _ | .rssyn _ | .rsrdg _ | .rsrdr _ | .rsrds _ => [.range]
  | .rsemit _ => [.alloc]
  | .fmtdec | .verenc _ | .verdec => [.range]
  | .fmtdec2 => [.range, .malformed]
  | .dimchk => [.invalidSize]
  | .ginit _ => [.range]
  | .modw _ _ _ | .modr _ _ | .amw _ _ _ | .modw32 _ _ | .modr32 _ _ => [.range]
  | .pbegin | .pwrite _ | .pread _ | .pstore _ => [.range]
  | .pload _ => [.range, .alloc]
  | .mapply _ | .mscore _ | .mselect => [.range]

/-! ## Shapes of commands -/

/-- The commands that need a grid (R267). -/
def Instr.needsGrid : Instr → Bool
  | .modw _ _ _ | .modr _ _ | .amw _ _ _ | .modw32 _ _ | .modr32 _ _ => true
  | .pbegin | .pwrite _ | .pread _ | .pstore _ | .pload _ => true
  | .mapply _ | .mscore _ | .mselect => true
  | _ => false

/-- ROW and COL of a format-M command (R104). -/
def Instr.coords : Instr → Option (Byte × Byte)
  | .modw row col _ | .modr row col | .amw row col _ | .modw32 row col | .modr32 row col => some (row, col)
  | _ => none

/-- The stream of SA of a command of 41_bitstream.md. -/
def Instr.streamDest : Instr → Option StreamId
  | .screate a | .sresize a | .sdup a _ | .sseek a | .stell a | .sremain a => some a
  | .sread a _ | .swrite a _ | .scopy a _ | .sconcat a _ => some a
  | _ => none

/-- The stream whose cursor SCOPY also moves: its source. -/
def Instr.streamSource : Instr → Option StreamId
  | .scopy _ b => some b
  | _ => none

/-- The commands of 41_bitstream.md that write bits at the cursor of SA (R150). -/
def Instr.storesBits : Instr → Bool
  | .swrite _ _ | .scopy _ _ | .sconcat _ _ => true
  | _ => false

/-- The commands of 42_gf_rs.md. -/
def Instr.isRs : Instr → Bool
  | .gfmul _ _ | .polymod | .rsgen _ | .rsclr | .rsfeedi _ | .rsfeed _ | .rsemit _ | .rssyn _ => true
  | .rsrdg _ | .rsrdr _ | .rsrds _ => true
  | _ => false

/-- The stream of SA of RSFEED, RSEMIT and RSSYN. -/
def Instr.rsStream : Instr → Option StreamId
  | .rsfeed a | .rsemit a | .rssyn a => some a
  | _ => none

/-- The commands of 43_bch.md. -/
def Instr.isBch : Instr → Bool
  | .fmtenc _ | .fmtdec | .fmtdec2 | .verenc _ | .verdec | .dimchk => true
  | _ => false

/-- The commands of 44_grid_layout.md. -/
def Instr.isGrid : Instr → Bool
  | .ginit _ | .modw _ _ _ | .modr _ _ | .amw _ _ _ | .modw32 _ _ | .modr32 _ _ => true
  | .pbegin | .pwrite _ | .pread _ | .pstore _ | .pload _ => true
  | _ => false

/-- GINIT. -/
def Instr.isGinit : Instr → Bool
  | .ginit _ => true
  | _ => false

/-- AMW. -/
def Instr.isAmw : Instr → Bool
  | .amw _ _ _ => true
  | _ => false

/-- The grid commands that write module colours. -/
def Instr.writesModules : Instr → Bool
  | .ginit _ | .modw _ _ _ | .modw32 _ _ | .pwrite _ | .pstore _ => true
  | _ => false

/-- PWRITE and PSTORE: the commands that write modules through the cursor. -/
def Instr.placesModules : Instr → Bool
  | .pwrite _ | .pstore _ => true
  | _ => false

/-- The grid commands that write the placement cursor. -/
def Instr.movesCursor : Instr → Bool
  | .ginit _ | .amw _ _ _ | .pbegin | .pwrite _ | .pread _ | .pstore _ | .pload _ => true
  | _ => false

/-- The stream of SA of PSTORE and PLOAD. -/
def Instr.gridStream : Instr → Option StreamId
  | .pstore a | .pload a => some a
  | _ => none

/-- The commands of 45_mask.md. -/
def Instr.isMask : Instr → Bool
  | .mapply _ | .mscore _ | .mselect => true
  | _ => false

end Sys2Proof
end

