-- ==== Sys2Proof/Certificates/Slice0/Obligations.lean ====
section
/-! DEFINITION. The statements for the provers, by family. `withError`, `Success` and the frames are Safety.lean's. -/

open Sys2Proof Sys2Proof.Machine

/-! ## Encoding (30_encoding.md) -/

/-- R101-R107, R111: no bit of an encoding is dropped. -/
def Obligations.DecodeEncodeRoundTrip : Prop :=
  ∀ i : Instr, i.wf = true → decode (encode i) = .ok i

/-- R100, R109, R111: a word decodes to i exactly when it is the word of the legal command i; a word with an assigned opcode is rejected
for its must-be-0 bits exactly when no command, legal or not, has that word, and for a field's value exactly when it is the word of an
illegal command. -/
def Obligations.DecodeAcceptsExactlyLegalWords : Prop :=
  ∀ w : Word,
    (∀ i : Instr, decode w = .ok i ↔ i.wf = true ∧ encode i = w)
    ∧ (decode w = .error .reservedField ↔
        (∃ i : Instr, i.opcode = w.extractLsb' 24 8) ∧ ∀ i : Instr, encode i ≠ w)
    ∧ (decode w = .error .illegalValue ↔ ∃ i : Instr, encode i = w ∧ i.wf = false)

/-- R102-R104, R107: words written out from the formats. -/
def Obligations.DecodeSampleWords : Prop :=
  decode 0b00000000_000000000000000000000000#32 = .ok .nop
    ∧ decode 0b00010110_11_00_000100_00000000000000#32 = .ok (.sread .s3 4)
    ∧ decode 0b00011000_00_01_000000_00000000000000#32 = .ok (.scopy .s0 .s1)
    ∧ decode 0b00100000_00000000_01010011_11001010#32 = .ok (.gfmul 0x53 0xCA)
    ∧ decode 0b00110000_00000000_00000000_00011101#32 = .ok (.fmtenc 0x1D)
    ∧ decode 0b01000001_00010100_00001000_00000001#32 = .ok (.modw 20 8 1)
    ∧ decode 0b01001001_00_00_001000_00000000000000#32 = .ok (.pwrite 8)
    ∧ decode 0b01010000_00000000_00000000_00000111#32 = .ok (.mapply 7)

/-- R110: the unassigned opcodes are illegal whatever the other bits, and the all-zero word is the only NOP. -/
def Obligations.UnassignedOpcodesAreIllegal : Prop :=
  (∀ w : Word,
    (let o := (w.extractLsb' 24 8).toNat
     (0x03 ≤ o ∧ o ≤ 0x0F) ∨ (0x1A ≤ o ∧ o ≤ 0x1F) ∨ (0x2B ≤ o ∧ o ≤ 0x2F) ∨ (0x36 ≤ o ∧ o ≤ 0x3F)
       ∨ (0x46 ≤ o ∧ o ≤ 0x47) ∨ (0x4D ≤ o ∧ o ≤ 0x4F) ∨ (0x53 ≤ o ∧ o ≤ 0xFF))
      ↔ decode w = .error (.unassignedOpcode (w.extractLsb' 24 8)))
    ∧ ∀ w : Word, decode w = .ok .nop ↔ w = 0

/-! ## The register window and the step (20_memory.md, 10_state.md) -/

/-- R112, R109, R92: the next access is a write of w to CMD. If w decodes to i, the step is exec of i, the access being taken from the
host's queue and the bus giving nothing back (log 1, log 2); if w is illegal, it raises ILLEGAL and changes nothing else. -/
def Obligations.StepIssuesCommandWord : Prop :=
  ∀ (s : State) (w : Word) (rest : List Access), s.host.pending = .write 0x004 4 w :: rest →
    let s1 : State := { s with host := { pending := rest, response := none } }
    (∀ i : Instr, decode w = .ok i → step s = exec i s1)
    ∧ ∀ e : Illegal, decode w = .error e → step s = .next (s1.withError .illegal)

/-- R55, R89, R97: a read gives back what the register reads as, and 0 at a reserved offset, and changes nothing; a write to ARG0 or
ARG1 stores the value, and to any other register than CMD is ignored; with no access QRC holds its state. What the host got back is the
model's own field (log 2). -/
def Obligations.HostAccessEffects : Prop :=
  ∀ (s : State) (off : Nat) (v : Word) (rest : List Access), off % 4 = 0 → off ≤ 0x0FC →
    (s.host.pending = .read off 4 :: rest →
      (∀ r, Reg.ofOffset off = some r →
        step s = .next { s with host := { pending := rest, response := some (readReg s r) } })
      ∧ (Reg.ofOffset off = none → step s = .next { s with host := { pending := rest, response := some 0 } }))
    ∧ (s.host.pending = .write off 4 v :: rest →
        (off = 0x008 → step s = .next { s with arg0 := v, host := { pending := rest, response := none } })
        ∧ (off = 0x00C → step s = .next { s with arg1 := v, host := { pending := rest, response := none } })
        ∧ (off ≠ 0x004 → off ≠ 0x008 → off ≠ 0x00C →
            step s = .next { s with host := { pending := rest, response := none } }))
    ∧ (s.host.pending = [] → step s = .next s)

/-- R81: only aligned 32-bit accesses to 0x000..0x0FC have a meaning; the model refuses any other. -/
def Obligations.UnsupportedAccessIsRefused : Prop :=
  ∀ (s : State) (off size : Nat) (v : Word) (rest : List Access),
    (s.host.pending = .read off size :: rest ∨ s.host.pending = .write off size v :: rest) →
      ((size = 4 ∧ off % 4 = 0 ∧ off ≤ 0x0FC) → ∃ t, step s = .next t)
      ∧ (¬(size = 4 ∧ off % 4 = 0 ∧ off ≤ 0x0FC) → step s = .refused (.unsupportedAccess off size))

/-- R31-R43, R55: the offset of every register, which is found again there; the offsets without a register are the reserved ones. -/
def Obligations.RegisterMapIsFaithful : Prop :=
  (Reg.id.offset = 0x000 ∧ Reg.cmd.offset = 0x004 ∧ Reg.arg0.offset = 0x008 ∧ Reg.arg1.offset = 0x00C
    ∧ Reg.result.offset = 0x010 ∧ Reg.status.offset = 0x014 ∧ Reg.gridcfg.offset = 0x018 ∧ Reg.pcur.offset = 0x01C
    ∧ Reg.pbits.offset = 0x020 ∧ Reg.rscfg.offset = 0x024 ∧ Reg.best.offset = 0x028
    ∧ (∀ m : Fin 8, (Reg.score m).offset = 0x040 + 4 * m.val)
    ∧ (Reg.spos .s0).offset = 0x060 ∧ (Reg.scnt .s0).offset = 0x064 ∧ (Reg.scap .s0).offset = 0x068
    ∧ (Reg.spos .s1).offset = 0x070 ∧ (Reg.scnt .s1).offset = 0x074 ∧ (Reg.scap .s1).offset = 0x078
    ∧ (Reg.spos .s2).offset = 0x080 ∧ (Reg.scnt .s2).offset = 0x084 ∧ (Reg.scap .s2).offset = 0x088
    ∧ (Reg.spos .s3).offset = 0x090 ∧ (Reg.scnt .s3).offset = 0x094 ∧ (Reg.scap .s3).offset = 0x098)
  ∧ (∀ r : Reg, r.offset % 4 = 0 ∧ r.offset ≤ 0x0FC ∧ Reg.ofOffset r.offset = some r)
  ∧ ∀ off : Nat, off % 4 = 0 → off ≤ 0x0FC →
      (Reg.ofOffset off = none ↔
        (0x02C ≤ off ∧ off ≤ 0x03C) ∨ (0x0A0 ≤ off ∧ off ≤ 0x0FC)
          ∨ off = 0x06C ∨ off = 0x07C ∨ off = 0x08C ∨ off = 0x09C)

/-- R31-R43, R340: the words the registers read as, field by field, and the numbers of the error codes and of PSTATE. -/
def Obligations.RegistersReadTheirFields : Prop :=
  (ErrCode.ok.code = 0 ∧ ErrCode.alloc.code = 1 ∧ ErrCode.invalidInput.code = 2 ∧ ErrCode.range.code = 3
    ∧ ErrCode.invalidSize.code = 4 ∧ ErrCode.malformed.code = 5 ∧ ErrCode.illegal.code = 6
    ∧ PState.idle.code = 0 ∧ PState.active.code = 1 ∧ PState.done.code = 2)
  ∧ ∀ s : State,
    let st := readReg s .status
    let gc := readReg s .gridcfg
    let pc := readReg s .pcur
    (st.extractLsb' 0 4 = s.status.lastErr.code ∧ st.extractLsb' 4 4 = s.status.firstErr.code
      ∧ st.getLsbD 8 = s.status.fchk ∧ st.getLsbD 9 = s.status.fsel ∧ st.getLsbD 10 = s.status.synz
      ∧ st.getLsbD 11 = s.grid.gvalid ∧ st.extractLsb' 12 2 = s.cursor.pstate.code ∧ st.extractLsb' 14 18 = 0)
    ∧ (gc.extractLsb' 0 8 = BitVec.ofNat 8 s.grid.ver ∧ gc.extractLsb' 8 8 = BitVec.ofNat 8 s.grid.dim
      ∧ gc.extractLsb' 16 16 = 0)
    ∧ (s.cursor.pstate = .active →
        pc.extractLsb' 0 8 = BitVec.ofNat 8 s.cursor.col ∧ pc.extractLsb' 8 8 = BitVec.ofNat 8 s.cursor.py
          ∧ pc.getLsbD 16 = s.cursor.pup ∧ pc.getLsbD 17 = s.cursor.pside ∧ pc.extractLsb' 18 14 = 0)
    ∧ (s.cursor.pstate ≠ .active → pc = 0)
    ∧ ((readReg s .rscfg).extractLsb' 0 6 = BitVec.ofNat 6 s.rs.k ∧ (readReg s .rscfg).extractLsb' 6 26 = 0)
    ∧ ((readReg s .best).extractLsb' 0 3 = s.mask.best ∧ (readReg s .best).extractLsb' 3 29 = 0)
    ∧ (∀ m : Fin 8, readReg s (.score m) = s.mask.scores[m])
    ∧ (∀ a, readReg s (.spos a) = BitVec.ofNat 32 (s.stream a).pos
        ∧ readReg s (.scnt a) = BitVec.ofNat 32 (s.stream a).bits.length
        ∧ readReg s (.scap a) = BitVec.ofNat 32 (s.stream a).cap)
    ∧ readReg s .pbits = BitVec.ofNat 32 s.cursor.pbits
    ∧ readReg s .arg0 = s.arg0 ∧ readReg s .arg1 = s.arg1 ∧ readReg s .result = s.result
    ∧ readReg s .id = 0x51524331 ∧ readReg s .cmd = 0

/-! ## Reset (10_state.md R58, 70_reset_and_hazards.md) -/

/-- R58: what reset leaves. Mod and Asg are unspecified there, so nothing is said of them. -/
def Obligations.ResetValues : Prop :=
  let s := State.reset
  s.arg0 = 0 ∧ s.arg1 = 0 ∧ s.result = 0 ∧ readReg s .id = 0x51524331
    ∧ readReg s .status = 0 ∧ readReg s .gridcfg = 0 ∧ readReg s .pcur = 0 ∧ readReg s .pbits = 0
    ∧ readReg s .rscfg = 0 ∧ readReg s .best = 0 ∧ (∀ m, readReg s (.score m) = 0)
    ∧ (∀ a, (s.stream a).pos = 0 ∧ (s.stream a).count = 0 ∧ (s.stream a).cap = 0)
    ∧ s.rs.k = 0 ∧ byteAt s.rs.g 0 = 1 ∧ (∀ j, 1 ≤ j → j ≤ 32 → byteAt s.rs.g j = 0)
    ∧ (∀ j, j < 32 → byteAt s.rs.r j = 0 ∧ byteAt s.rs.syn j = 0)
    ∧ s.grid.ver = 0 ∧ s.grid.dim = 0 ∧ s.grid.gvalid = false
    ∧ s.cursor.px = 0 ∧ s.cursor.py = 0 ∧ s.cursor.pup = false ∧ s.cursor.pside = false

/-- R45, R47, R49, R52: the reset state meets the invariants of every unit. -/
def Obligations.ResetIsWellFormed : Prop :=
  State.reset.StreamsWf ∧ State.reset.rs.Wf ∧ State.reset.PlacementWf

/-! ## The whole machine: errors and registers (60_exceptions.md) -/

/-- R341, R346, R354, R355: every command ends in a next state, never in a stop, with success or one of the errors R355 lists for it; the
host's port is the host's alone and the instance's parameter is no command's to write (R6). A command of the syntax with an illegal field value raises ILLEGAL before any other check (R109; no
such command reaches exec from a step, log 12). -/
def Obligations.EveryCommandCompletesWithItsErrors : Prop :=
  ∀ (i : Instr) (s : State), ∃ t, exec i s = .next t ∧ t.host = s.host ∧ t.alignTable = s.alignTable
    ∧ (i.wf = false → t = s.withError .illegal)
    ∧ (i.wf = true → t.status.lastErr = .ok ∨ t.status.lastErr ∈ i.errors)

/-- R342, R343: a command that raises an error, an illegal word among them, changes LASTERR and, when it was 0, FIRSTERR, and nothing
else. -/
def Obligations.FailingCommandChangesOnlyErrorFields : Prop :=
  (∀ (w : Word) (s t : State), issue w s = .next t → t.status.lastErr ≠ .ok → t = s.withError t.status.lastErr)
  ∧ ∀ (i : Instr) (s t : State), exec i s = .next t → t.status.lastErr ≠ .ok → t = s.withError t.status.lastErr

/-- R343: FIRSTERR takes the first error and keeps it; only CLRERR and reset set it to 0. -/
def Obligations.FirstErrIsSticky : Prop :=
  (∀ (w : Word) (s t : State), issue w s = .next t → decode w ≠ .ok .clrerr → decode w ≠ .ok .reset →
    t.status.firstErr = if s.status.firstErr = .ok then t.status.lastErr else s.status.firstErr)
  ∧ (∀ s t : State, step s = .next t → s.status.firstErr ≠ .ok → t.status.firstErr = .ok →
      (∃ rest, s.host.pending = .reset :: rest)
        ∨ ∃ w rest, s.host.pending = .write 0x004 4 w :: rest ∧ (decode w = .ok .clrerr ∨ decode w = .ok .reset))
  ∧ ∀ s : State, (∃ t, exec .clrerr s = .next t ∧ t.status.firstErr = .ok)
      ∧ ∃ t, exec .reset s = .next t ∧ t.status.firstErr = .ok

/-- R33, R34, R35: no command but RESET (R142) writes ARG0 or ARG1; RESULT is written only by the listed commands and only when they
succeed. -/
def Obligations.OperandAndResultRegistersAreWrittenAsListed : Prop :=
  ∀ (i : Instr) (s t : State), i ≠ .reset → exec i s = .next t →
    t.arg0 = s.arg0 ∧ t.arg1 = s.arg1
    ∧ ((i.writesResult = false ∨ t.status.lastErr ≠ .ok) → t.result = s.result)

/-- R267: RANGE while no grid is defined, for every grid and mask command but GINIT; RANGE for coordinates outside the grid. -/
def Obligations.GridChecksComeFirst : Prop :=
  ∀ (i : Instr) (s : State), i.wf = true → i.needsGrid = true →
    (s.grid.gvalid = false → exec i s = .next (s.withError .range))
    ∧ ∀ row col, i.coords = some (row, col) → s.grid.dim ≤ row.toNat ∨ s.grid.dim ≤ col.toNat →
        exec i s = .next (s.withError .range)

/-! ## Control commands (40_control.md) -/

/-- R140, R141, R142, R380: NOP, CLRERR and RESET. RESET and the platform's reset signal have one effect: every piece of QRC's state at
its reset value; the instance's parameter ALIGN_POS stays (R6, log 9), and so does the host's queue, the model's own field (log 11). -/
def Obligations.ControlCommandEffects : Prop :=
  ∀ s : State,
    exec .nop s = .next { s with status := { s.status with lastErr := .ok } }
    ∧ exec .clrerr s = .next { s with status := { s.status with lastErr := .ok, firstErr := .ok } }
    ∧ exec .reset s = .next { State.reset with alignTable := s.alignTable, host := s.host }
    ∧ ∀ rest : List Access, s.host.pending = .reset :: rest →
        step s = .next { State.reset with alignTable := s.alignTable, host := { pending := rest, response := none } }

/-! ## Bit streams (41_bitstream.md) -/

/-- R153-R158: SCREATE, SDUP, STELL and SREMAIN complete in every state; SRESIZE and SSEEK with their errors in order. -/
def Obligations.StreamDescriptorAndCursorEffects : Prop :=
  ∀ (a b : StreamId) (s : State),
    (∃ t, exec (.screate a) s = .next t ∧ s.Success t
      ∧ (t.stream a).pos = 0 ∧ (t.stream a).count = 0 ∧ (t.stream a).cap = 0)
    ∧ (∃ t, exec (.sdup a b) s = .next t ∧ s.Success t ∧ t.stream a = s.stream b)
    ∧ (∃ t, exec (.stell a) s = .next t ∧ s.Success t ∧ t.result = BitVec.ofNat 32 (s.stream a).pos)
    ∧ (∃ t, exec (.sremain a) s = .next t ∧ s.Success t
      ∧ t.result = BitVec.ofNat 32 ((s.stream a).count - (s.stream a).pos))
    ∧ (s.arg0.toNat < (s.stream a).count → exec (.sresize a) s = .next (s.withError .range))
    ∧ ((s.stream a).count ≤ s.arg0.toNat → 32768 < s.arg0.toNat → exec (.sresize a) s = .next (s.withError .alloc))
    ∧ ((s.stream a).count ≤ s.arg0.toNat → s.arg0.toNat ≤ 32768 →
        ∃ t, exec (.sresize a) s = .next t ∧ s.Success t
          ∧ s.arg0.toNat ≤ (t.stream a).cap ∧ (t.stream a).cap < s.arg0.toNat + 8 ∧ (t.stream a).cap % 8 = 0
          ∧ (t.stream a).pos = (s.stream a).pos ∧ (t.stream a).bits = (s.stream a).bits)
    ∧ ((s.stream a).count < s.arg0.toNat → exec (.sseek a) s = .next (s.withError .range))
    ∧ (s.arg0.toNat ≤ (s.stream a).count →
        ∃ t, exec (.sseek a) s = .next t ∧ s.Success t ∧ (t.stream a).pos = s.arg0.toNat
          ∧ (t.stream a).cap = (s.stream a).cap ∧ (t.stream a).bits = (s.stream a).bits)

/-- R151, R159: SREAD gives the next n bits, the first one most significant, zero-extended, and advances the cursor only. -/
def Obligations.SreadReturnsNextBits : Prop :=
  ∀ (a : StreamId) (n : BitVec 6) (s : State), n.toNat ≤ 32 →
    ((s.stream a).count - (s.stream a).pos < n.toNat → exec (.sread a n) s = .next (s.withError .range))
    ∧ (n.toNat ≤ (s.stream a).count - (s.stream a).pos →
        ∃ t, exec (.sread a n) s = .next t ∧ s.Success t
          ∧ (∀ i, i < n.toNat → t.result.getLsbD (n.toNat - 1 - i) = (s.stream a).bitAt ((s.stream a).pos + i))
          ∧ (∀ j, n.toNat ≤ j → t.result.getLsbD j = false)
          ∧ (t.stream a).pos = (s.stream a).pos + n.toNat
          ∧ (t.stream a).cap = (s.stream a).cap ∧ (t.stream a).bits = (s.stream a).bits)

/-- R150, R160: SWRITE stores the low n bits of ARG0 at the cursor, makes the cursor the end of the stream and grows the capacity to
whole bytes; ALLOC past STREAM_MAX_BITS. -/
def Obligations.SwriteStoresAtCursor : Prop :=
  ∀ (a : StreamId) (n : BitVec 6) (s : State), n.toNat ≤ 32 → (s.stream a).pos ≤ (s.stream a).count →
    let need := (s.stream a).pos + n.toNat
    (32768 < need → exec (.swrite a n) s = .next (s.withError .alloc))
    ∧ (need ≤ 32768 →
        ∃ t, exec (.swrite a n) s = .next t ∧ s.Success t
          ∧ (t.stream a).pos = need ∧ (t.stream a).count = need
          ∧ (∀ i, i < (s.stream a).pos → (t.stream a).bitAt i = (s.stream a).bitAt i)
          ∧ (∀ i, i < n.toNat → (t.stream a).bitAt ((s.stream a).pos + i) = s.arg0.getLsbD (n.toNat - 1 - i))
          ∧ (need ≤ (s.stream a).cap → (t.stream a).cap = (s.stream a).cap)
          ∧ ((s.stream a).cap < need →
              need ≤ (t.stream a).cap ∧ (t.stream a).cap < need + 8 ∧ (t.stream a).cap % 8 = 0))

/-- R161, R162: SCOPY moves ARG0 bits from the cursor of b to the cursor of a, all or nothing, and 0 bits change nothing; SCONCAT appends
all of b at the cursor of a and does not change b, and an empty b changes nothing. -/
def Obligations.ScopyAndSconcatMoveBits : Prop :=
  ∀ (a b : StreamId) (s : State), a ≠ b → (s.stream a).pos ≤ (s.stream a).count →
    (let m := s.arg0.toNat
     ((s.stream b).count - (s.stream b).pos < m → exec (.scopy a b) s = .next (s.withError .range))
     ∧ (m = 0 → ∃ t, exec (.scopy a b) s = .next t ∧ s.Success t ∧ t.streams = s.streams)
     ∧ (0 < m → m ≤ (s.stream b).count - (s.stream b).pos → 32768 < (s.stream a).pos + m →
         exec (.scopy a b) s = .next (s.withError .alloc))
     ∧ (0 < m → m ≤ (s.stream b).count - (s.stream b).pos → (s.stream a).pos + m ≤ 32768 →
         ∃ t, exec (.scopy a b) s = .next t ∧ s.Success t
           ∧ (t.stream a).pos = (s.stream a).pos + m ∧ (t.stream a).count = (s.stream a).pos + m
           ∧ (t.stream a).cap = (if (s.stream a).cap < (s.stream a).pos + m then ceil8 ((s.stream a).pos + m) else (s.stream a).cap)
           ∧ (∀ i, i < (s.stream a).pos → (t.stream a).bitAt i = (s.stream a).bitAt i)
           ∧ (∀ i, i < m → (t.stream a).bitAt ((s.stream a).pos + i) = (s.stream b).bitAt ((s.stream b).pos + i))
           ∧ (t.stream b).pos = (s.stream b).pos + m
           ∧ (t.stream b).cap = (s.stream b).cap ∧ (t.stream b).bits = (s.stream b).bits))
    ∧ (let m := (s.stream b).count
       (m = 0 → ∃ t, exec (.sconcat a b) s = .next t ∧ s.Success t ∧ t.streams = s.streams)
       ∧ (0 < m → 32768 < (s.stream a).pos + m → exec (.sconcat a b) s = .next (s.withError .alloc))
       ∧ (0 < m → (s.stream a).pos + m ≤ 32768 →
           ∃ t, exec (.sconcat a b) s = .next t ∧ s.Success t ∧ t.stream b = s.stream b
             ∧ (t.stream a).pos = (s.stream a).pos + m ∧ (t.stream a).count = (s.stream a).pos + m
             ∧ (t.stream a).cap = (if (s.stream a).cap < (s.stream a).pos + m then ceil8 ((s.stream a).pos + m) else (s.stream a).cap)
             ∧ (∀ i, i < (s.stream a).pos → (t.stream a).bitAt i = (s.stream a).bitAt i)
             ∧ (∀ i, i < m → (t.stream a).bitAt ((s.stream a).pos + i) = (s.stream b).bitAt i)))

/-- R161, corner case: SCOPY of m1 + m2 bits is SCOPY of m1 and then of m2 bits, so chunks of at most 16 bits cannot be told from one
copy. -/
def Obligations.ScopySplitsIntoChunks : Prop :=
  ∀ (a b : StreamId) (m1 m2 : Nat) (s t u v : State), a ≠ b → 0 < m1 → 0 < m2 → m1 + m2 < 2 ^ 32 →
    exec (.scopy a b) { s with arg0 := BitVec.ofNat 32 (m1 + m2) } = .next t → t.status.lastErr = .ok →
    exec (.scopy a b) { s with arg0 := BitVec.ofNat 32 m1 } = .next u → u.status.lastErr = .ok →
    exec (.scopy a b) { u with arg0 := BitVec.ofNat 32 m2 } = .next v → v.status.lastErr = .ok →
    v.streams = t.streams

/-- R163: write, seek back, read: the low n bits of the value come back. -/
def Obligations.WriteSeekReadReturnsValue : Prop :=
  ∀ (a : StreamId) (n : BitVec 6) (x : Word) (s : State),
    (s.stream a).Wf → n.toNat ≤ 32 → ceil8 ((s.stream a).pos + n.toNat) ≤ 32768 →
    ∃ t u v,
      exec (.swrite a n) { s with arg0 := x } = .next t
      ∧ exec (.sseek a) { t with arg0 := BitVec.ofNat 32 (s.stream a).pos } = .next u
      ∧ exec (.sread a n) u = .next v
      ∧ v.status.lastErr = .ok ∧ v.result = x &&& BitVec.ofNat 32 (2 ^ n.toNat - 1)

/-- R44, R45: every step keeps `pos ≤ count ≤ cap ≤ STREAM_MAX_BITS` and a capacity in whole bytes, for every stream. -/
def Obligations.StepKeepsStreamsWellFormed : Prop :=
  ∀ s t : State, s.StreamsWf → step s = .next t → t.StreamsWf

/-- What the stream commands leave unchanged: all but RESULT (STELL, SREMAIN, SREAD), the stream of SA, and the cursor of the stream of
SB for SCOPY; STELL and SREMAIN leave SA too; of the stored bits, those before the cursor of SA for the commands that store, all of
them for the others but SCREATE and SDUP. -/
def Obligations.StreamCommandFrame : Prop :=
  ∀ (i : Instr) (a : StreamId) (s t : State), i.streamDest = some a → exec i s = .next t →
    s.SameHostSide t ∧ s.SameFlags t ∧ t.rs = s.rs ∧ t.grid = s.grid ∧ t.cursor = s.cursor ∧ t.mask = s.mask
    ∧ (i.writesResult = false → t.result = s.result)
    ∧ (∀ c, c ≠ a → i.streamSource ≠ some c → t.stream c = s.stream c)
    ∧ (∀ c, i.streamSource = some c → c ≠ a →
        (t.stream c).bits = (s.stream c).bits ∧ (t.stream c).cap = (s.stream c).cap)
    ∧ (i = .stell a ∨ i = .sremain a → t.stream a = s.stream a)
    ∧ (i.storesBits = true → (s.stream a).pos ≤ (s.stream a).count →
        ∀ k, k < (s.stream a).pos → (t.stream a).bitAt k = (s.stream a).bitAt k)
    ∧ (i.storesBits = false → i ≠ .screate a → (∀ c, i ≠ .sdup a c) → (t.stream a).bits = (s.stream a).bits)

/-! ## GF(256) and Reed-Solomon (42_gf_rs.md) -/

/-- R196: GF(256) with gfmul and xor is a field. -/
def Obligations.GfmulFieldLaws : Prop :=
  (∀ a b : Byte, gfmul a b = gfmul b a)
  ∧ (∀ a b c : Byte, gfmul (gfmul a b) c = gfmul a (gfmul b c))
  ∧ (∀ a b c : Byte, gfmul a (b ^^^ c) = gfmul a b ^^^ gfmul a c)
  ∧ (∀ a : Byte, gfmul a 1 = a ∧ gfmul a 0 = 0)
  ∧ ∀ a : Byte, a ≠ 0 → ∃ i, i < 255 ∧ a = alpha i ∧ gfmul a (alpha (255 - i)) = 1

/-- R191: the powers of 2 have period 255 and are the non-zero elements once each. -/
def Obligations.AlphaRunsThroughNonZeroElements : Prop :=
  alpha 0 = 1 ∧ alpha 8 = 0x1D
  ∧ (∀ i, alpha (i + 1) = gfmul (alpha i) 2)
  ∧ (∀ i, alpha (i + 255) = alpha i)
  ∧ ∀ b : Byte, b ≠ 0 → ∃ i, i < 255 ∧ alpha i = b ∧ ∀ j, j < 255 → alpha j = b → j = i

/-- R192: polymod is the residue: below the modulus' degree, a value of lower degree is its own residue, and adding a multiple of the
modulus by a power of x does not change it. -/
def Obligations.PolymodIsResidue : Prop :=
  ∀ v m : Word, m ≠ 0 →
    (polymod v m).toNat < 2 ^ degree m
    ∧ (v.toNat < 2 ^ degree m → polymod v m = v)
    ∧ ∀ k, degree m + k < 32 → polymod (v ^^^ (m <<< k)) m = polymod v m

/-- R197, R198, R206-R208: GFMUL, POLYMOD and the register reads, with their errors. -/
def Obligations.GfAndReadbackResults : Prop :=
  ∀ s : State,
    (∀ a b : Byte, ∃ t, exec (.gfmul a b) s = .next t ∧ s.Success t ∧ t.result = (gfmul a b).setWidth 32)
    ∧ (s.arg1 = 0 → exec .polymod s = .next (s.withError .range))
    ∧ (s.arg1 ≠ 0 → ∃ t, exec .polymod s = .next t ∧ s.Success t ∧ t.result = polymod s.arg0 s.arg1)
    ∧ ∀ n : BitVec 6,
        (n.toNat ≤ 32 → ∃ t, exec (.rsrdg n) s = .next t ∧ s.Success t ∧ t.result = (byteAt s.rs.g n.toNat).setWidth 32)
        ∧ (32 < n.toNat → exec (.rsrdg n) s = .next (s.withError .range))
        ∧ (n.toNat < 32 →
            (∃ t, exec (.rsrdr n) s = .next t ∧ s.Success t ∧ t.result = (byteAt s.rs.r n.toNat).setWidth 32)
            ∧ ∃ t, exec (.rsrds n) s = .next t ∧ s.Success t ∧ t.result = (byteAt s.rs.syn n.toNat).setWidth 32)
        ∧ (32 ≤ n.toNat →
            exec (.rsrdr n) s = .next (s.withError .range) ∧ exec (.rsrds n) s = .next (s.withError .range))

/-- R193: the generator is the product of the factors (x + alpha(i)), monic of degree k. -/
def Obligations.GeneratorIsProductOfFactors : Prop :=
  (∀ j, byteAt (generator 0) j = if j = 0 then 1 else 0)
  ∧ (∀ i, i < 32 →
      byteAt (generator (i + 1)) 0 = gfmul (byteAt (generator i) 0) (alpha i)
      ∧ ∀ j, 1 ≤ j → j ≤ 32 →
          byteAt (generator (i + 1)) j = byteAt (generator i) (j - 1) ^^^ gfmul (byteAt (generator i) j) (alpha i))
  ∧ ∀ k, k ≤ 32 → byteAt (generator k) k = 1 ∧ ∀ j, k < j → byteAt (generator k) j = 0

/-- R194, R199, R200, R201: RSGEN builds the generator of N and clears R; RSCLR clears R; RSFEEDI clocks the LFSR once with IB. -/
def Obligations.GeneratorBuildAndClockEffects : Prop :=
  ∀ (n : BitVec 6) (d : Byte) (s : State),
    (32 < n.toNat → exec (.rsgen n) s = .next (s.withError .range))
    ∧ (n.toNat ≤ 32 →
        ∃ t, exec (.rsgen n) s = .next t ∧ s.Success t ∧ t.rs.k = n.toNat ∧ t.rs.g = generator n.toNat
          ∧ (∀ j, j < 32 → byteAt t.rs.r j = 0) ∧ t.rs.syn = s.rs.syn)
    ∧ (∃ t, exec .rsclr s = .next t ∧ s.Success t ∧ (∀ j, j < 32 → byteAt t.rs.r j = 0)
        ∧ t.rs.k = s.rs.k ∧ t.rs.g = s.rs.g ∧ t.rs.syn = s.rs.syn)
    ∧ ∃ t, exec (.rsfeedi d) s = .next t ∧ s.Success t ∧ t.rs.k = s.rs.k ∧ t.rs.g = s.rs.g ∧ t.rs.syn = s.rs.syn
        ∧ (s.rs.k = 0 → t.rs.r = s.rs.r)
        ∧ (0 < s.rs.k → s.rs.k ≤ 32 →
            let fb := d ^^^ byteAt s.rs.r (s.rs.k - 1)
            byteAt t.rs.r 0 = gfmul fb (byteAt s.rs.g 0)
            ∧ (∀ j, 1 ≤ j → j < s.rs.k → byteAt t.rs.r j = byteAt s.rs.r (j - 1) ^^^ gfmul fb (byteAt s.rs.g j))
            ∧ ∀ j, s.rs.k ≤ j → byteAt t.rs.r j = byteAt s.rs.r j)

/-- R202: RSFEED clocks the next m bytes of stream a, as m RSFEEDIs of them would; RANGE before any byte is consumed. -/
def Obligations.RsfeedConsumesBytes : Prop :=
  ∀ (a : StreamId) (s : State),
    let m := s.arg0.toNat
    ((s.stream a).count - (s.stream a).pos < 8 * m → exec (.rsfeed a) s = .next (s.withError .range))
    ∧ ∀ ds : List Byte, ds.length = m → 8 * m ≤ (s.stream a).count - (s.stream a).pos →
        (∀ j, j < m → ∀ b, b < 8 →
          (s.stream a).bitAt ((s.stream a).pos + 8 * j + b) = (ds.getD j 0).getLsbD (7 - b)) →
        ∃ t, exec (.rsfeed a) s = .next t ∧ s.Success t ∧ t.rs = ds.foldl lfsrClock s.rs
          ∧ (t.stream a).pos = (s.stream a).pos + 8 * m
          ∧ (t.stream a).cap = (s.stream a).cap ∧ (t.stream a).bits = (s.stream a).bits

/-- R195, R203: RSEMIT writes R[K-1], …, R[0] at the cursor and keeps R; K = 0 writes nothing; ALLOC past STREAM_MAX_BITS. -/
def Obligations.RsemitWritesRegistersInOrder : Prop :=
  ∀ (a : StreamId) (s : State), (s.stream a).Wf →
    let p := (s.stream a).pos
    (32768 < p + 8 * s.rs.k → exec (.rsemit a) s = .next (s.withError .alloc))
    ∧ (s.rs.k = 0 → ∃ t, exec (.rsemit a) s = .next t ∧ s.Success t ∧ t.streams = s.streams)
    ∧ (0 < s.rs.k → p + 8 * s.rs.k ≤ 32768 →
        ∃ t, exec (.rsemit a) s = .next t ∧ s.Success t ∧ t.rs = s.rs
          ∧ (t.stream a).pos = p + 8 * s.rs.k ∧ (t.stream a).count = p + 8 * s.rs.k
          ∧ (t.stream a).cap = (if (s.stream a).cap < p + 8 * s.rs.k then ceil8 (p + 8 * s.rs.k) else (s.stream a).cap)
          ∧ (∀ i, i < p → (t.stream a).bitAt i = (s.stream a).bitAt i)
          ∧ ∀ j, j < s.rs.k → ∀ b, b < 8 →
              (t.stream a).bitAt (p + 8 * j + b) = (byteAt s.rs.r (s.rs.k - 1 - j)).getLsbD (7 - b))

/-- R205: RSSYN consumes m bytes and leaves C(alpha(i)) in SYN[i], by Horner's rule with the first byte of highest degree; SYNZ says
that all of them are 0. -/
def Obligations.RssynComputesSyndromes : Prop :=
  ∀ (a : StreamId) (s : State),
    let m := s.arg0.toNat
    ((s.stream a).count - (s.stream a).pos < 8 * m → exec (.rssyn a) s = .next (s.withError .range))
    ∧ ∀ cs : List Byte, cs.length = m → 8 * m ≤ (s.stream a).count - (s.stream a).pos →
        (∀ j, j < m → ∀ b, b < 8 →
          (s.stream a).bitAt ((s.stream a).pos + 8 * j + b) = (cs.getD j 0).getLsbD (7 - b)) →
        ∃ t, exec (.rssyn a) s = .next t ∧ s.Success t
          ∧ (t.stream a).pos = (s.stream a).pos + 8 * m
          ∧ (t.stream a).cap = (s.stream a).cap ∧ (t.stream a).bits = (s.stream a).bits
          ∧ t.rs.k = s.rs.k ∧ t.rs.g = s.rs.g ∧ t.rs.r = s.rs.r
          ∧ (∀ i, i < 32 → byteAt t.rs.syn i =
              if i < s.rs.k then cs.foldl (fun acc c => gfmul acc (alpha i) ^^^ c) 0 else 0)
          ∧ (t.status.synz = true ↔ ∀ i, i < s.rs.k → byteAt t.rs.syn i = 0)

/-- R204: data bytes followed by the EC bytes of the LFSR, fed from R = 0, have every syndrome 0. -/
def Obligations.RsSystematicProperty : Prop :=
  ∀ (rs : Rs) (ds : List Byte), rs.k ≤ 32 → rs.g = generator rs.k → (∀ j, j < 32 → byteAt rs.r j = 0) →
    let es := (List.range rs.k).map fun j => byteAt (ds.foldl lfsrClock rs).r (rs.k - 1 - j)
    ∀ i, i < rs.k → (ds ++ es).foldl (fun acc c => gfmul acc (alpha i) ^^^ c) 0 = 0

/-- R47, R48, R207: every step keeps K in range, G the generator of K, and R 0 at and above K. -/
def Obligations.StepKeepsRsUnitWellFormed : Prop :=
  ∀ s t : State, s.rs.Wf → step s = .next t → t.rs.Wf

/-- What the GF and RS commands leave unchanged: the grid, the cursor, the mask unit, FCHK, FSEL; RESULT but for the five that write
it; K and G but for RSGEN; R but for RSGEN, RSCLR and the feeds; SYN and SYNZ but for RSSYN; every stream but that of SA, whose bits
change for RSEMIT only. -/
def Obligations.RsCommandFrame : Prop :=
  ∀ (i : Instr) (s t : State), i.isRs = true → exec i s = .next t →
    s.SameHostSide t ∧ t.grid = s.grid ∧ t.cursor = s.cursor ∧ t.mask = s.mask
    ∧ t.status.fchk = s.status.fchk ∧ t.status.fsel = s.status.fsel
    ∧ (i.writesResult = false → t.result = s.result)
    ∧ ((∀ n, i ≠ .rsgen n) → t.rs.k = s.rs.k ∧ t.rs.g = s.rs.g)
    ∧ ((∀ n, i ≠ .rsgen n) → i ≠ .rsclr → (∀ d, i ≠ .rsfeedi d) → (∀ a, i ≠ .rsfeed a) → t.rs.r = s.rs.r)
    ∧ ((∀ a, i ≠ .rssyn a) → t.rs.syn = s.rs.syn ∧ t.status.synz = s.status.synz)
    ∧ (∀ c, i.rsStream ≠ some c → t.stream c = s.stream c)
    ∧ ((∀ a, i ≠ .rsemit a) → ∀ c, (t.stream c).bits = (s.stream c).bits ∧ (t.stream c).cap = (s.stream c).cap)

/-! ## BCH (43_bch.md) -/

/-- R231, R232, R235, R236, R238: the words FMTENC and VERENC build, VERENC's RANGE outside 7..40, and DIMCHK, which gives the version of
a QR grid's side and INVALID_SIZE exactly for every other size. -/
def Obligations.BchEncodeAndSizeResults : Prop :=
  ∀ (ib : Byte) (s : State),
    (ib.toNat < 32 →
      ∃ t, exec (.fmtenc ib) s = .next t ∧ s.Success t
        ∧ t.result = ((ib.setWidth 32 <<< 10) ||| polymod (ib.setWidth 32 <<< 10) 0x537) ^^^ 0x5412)
    ∧ (ib.toNat < 7 ∨ 40 < ib.toNat → exec (.verenc ib) s = .next (s.withError .range))
    ∧ (7 ≤ ib.toNat → ib.toNat ≤ 40 →
      ∃ t, exec (.verenc ib) s = .next t ∧ s.Success t
        ∧ t.result = (ib.setWidth 32 <<< 12) ||| polymod (ib.setWidth 32 <<< 12) 0x1F25)
    ∧ (∀ v, 1 ≤ v → v ≤ 40 → s.arg0.toNat = 4 * v + 17 → s.arg1 = s.arg0 →
      ∃ t, exec .dimchk s = .next t ∧ s.Success t ∧ t.result = BitVec.ofNat 32 v)
    ∧ ((¬ ∃ v, 1 ≤ v ∧ v ≤ 40 ∧ s.arg0.toNat = 4 * v + 17 ∧ s.arg1 = s.arg0) →
      exec .dimchk s = .next (s.withError .invalidSize))

/-- R233, R234: FMTDEC and FMTDEC2, with their errors in order. -/
def Obligations.FormatDecodeResults : Prop :=
  ∀ s : State,
    let w1 := s.arg0 ^^^ 0x5412
    let w2 := s.arg1 ^^^ 0x5412
    let fits := fun x : Word => x.toNat < 2 ^ 15
    let clean := fun w : Word => polymod w 0x537 = 0
    (¬ fits s.arg0 → exec .fmtdec s = .next (s.withError .range))
    ∧ (fits s.arg0 →
        ∃ t, exec .fmtdec s = .next t ∧ s.Success t ∧ t.result = (w1.extractLsb' 10 5).setWidth 32
          ∧ (t.status.fchk = true ↔ clean w1) ∧ t.status.fsel = s.status.fsel)
    ∧ (¬ fits s.arg0 ∨ ¬ fits s.arg1 → exec .fmtdec2 s = .next (s.withError .range))
    ∧ (fits s.arg0 → fits s.arg1 → clean w1 →
        ∃ t, exec .fmtdec2 s = .next t ∧ s.Success t ∧ t.result = (w1.extractLsb' 10 5).setWidth 32
          ∧ t.status.fchk = true ∧ t.status.fsel = false)
    ∧ (fits s.arg0 → fits s.arg1 → ¬ clean w1 → clean w2 →
        ∃ t, exec .fmtdec2 s = .next t ∧ s.Success t ∧ t.result = (w2.extractLsb' 10 5).setWidth 32
          ∧ t.status.fchk = true ∧ t.status.fsel = true)
    ∧ (fits s.arg0 → fits s.arg1 → ¬ clean w1 → ¬ clean w2 → exec .fmtdec2 s = .next (s.withError .malformed))

/-- R239: FMTDEC and FMTDEC2 of FMTENC's result give the payload back with FCHK = 1, and VERDEC of VERENC's gives the version with
distance 0. -/
def Obligations.BchRoundTrips : Prop :=
  ∀ (ib : Byte) (s t : State),
    (ib.toNat < 32 → exec (.fmtenc ib) s = .next t →
      (∃ u, exec .fmtdec { t with arg0 := t.result } = .next u ∧ u.result = ib.setWidth 32 ∧ u.status.fchk = true)
      ∧ ∃ u, exec .fmtdec2 { t with arg0 := t.result, arg1 := t.result } = .next u ∧ u.result = ib.setWidth 32
          ∧ u.status.fchk = true ∧ u.status.fsel = false)
    ∧ (7 ≤ ib.toNat → ib.toNat ≤ 40 → exec (.verenc ib) s = .next t →
        ∃ u, exec .verdec { t with arg0 := t.result } = .next u ∧ u.result = ib.setWidth 32)

/-- R237: VERDEC gives the nearest of the 34 version words, the lowest version among equals, and its distance; up to 3 bit errors always
return the sent version. -/
def Obligations.VerdecFindsNearestVersion : Prop :=
  ∀ s : State,
    let x := s.arg0
    let dist := fun v : Nat => popcount (verword v ^^^ x)
    (2 ^ 18 ≤ x.toNat → exec .verdec s = .next (s.withError .range))
    ∧ (x.toNat < 2 ^ 18 →
        ∃ t v, exec .verdec s = .next t ∧ s.Success t ∧ 7 ≤ v ∧ v ≤ 40
          ∧ t.result = BitVec.ofNat 32 (dist v * 256 + v)
          ∧ (∀ v', 7 ≤ v' → v' ≤ 40 → dist v ≤ dist v')
          ∧ (∀ v', 7 ≤ v' → v' < v → dist v < dist v')
          ∧ ∀ v', 7 ≤ v' → v' ≤ 40 → dist v' ≤ 3 → v' = v)

/-- What the BCH commands leave unchanged: all but RESULT, FCHK (FMTDEC, FMTDEC2), FSEL (FMTDEC2) and the error fields. -/
def Obligations.BchCommandFrame : Prop :=
  ∀ (i : Instr) (s t : State), i.isBch = true → exec i s = .next t →
    s.SameHostSide t ∧ t.streams = s.streams ∧ t.rs = s.rs ∧ t.grid = s.grid ∧ t.cursor = s.cursor ∧ t.mask = s.mask
    ∧ t.status.synz = s.status.synz
    ∧ (i ≠ .fmtdec → i ≠ .fmtdec2 → t.status.fchk = s.status.fchk)
    ∧ (i ≠ .fmtdec2 → t.status.fsel = s.status.fsel)

/-! ## Module grid and placement (44_grid_layout.md) -/

/-- R261-R266: the reserved region is the union of the five regions, for every alignment table and every grid position. -/
def Obligations.ReservedIsUnionOfRegions : Prop :=
  ∀ (A : List Nat) (v r c : Nat), 1 ≤ v → v ≤ 40 →
    let D := 4 * v + 17
    r < D → c < D →
    (reserved A v r c = true ↔
      (r ≤ 7 ∧ c ≤ 7) ∨ (r ≤ 7 ∧ D - 8 ≤ c) ∨ (D - 8 ≤ r ∧ c ≤ 7)
      ∨ r = 6 ∨ c = 6
      ∨ (r = 8 ∧ (c ≤ 8 ∨ D - 8 ≤ c)) ∨ (c = 8 ∧ (r ≤ 8 ∨ D - 8 ≤ r))
      ∨ (7 ≤ v ∧ ((r ≤ 5 ∧ D - 11 ≤ c ∧ c ≤ D - 9) ∨ (D - 11 ≤ r ∧ r ≤ D - 9 ∧ c ≤ 5)))
      ∨ ∃ i j, i < A.length ∧ j < A.length
          ∧ ¬(i = 0 ∧ j = 0) ∧ ¬(i = 0 ∧ j = A.length - 1) ∧ ¬(i = A.length - 1 ∧ j = 0)
          ∧ A.getD i 0 ≤ r + 2 ∧ r ≤ A.getD i 0 + 2 ∧ A.getD j 0 ≤ c + 2 ∧ c ≤ A.getD j 0 + 2)

/-- R260, R268: GINIT defines the blank grid of its version, reserved by the instance's alignment table, with PBEGIN's cursor; RANGE
outside 1..40. Reset gives the instance the default table (I1, log 9), under which the cursor is on the bottom-right module. -/
def Obligations.GinitDefinesBlankGrid : Prop :=
  (∀ (ib : Byte) (s : State),
    (ib.toNat < 1 ∨ 40 < ib.toNat → exec (.ginit ib) s = .next (s.withError .range))
    ∧ (1 ≤ ib.toNat → ib.toNat ≤ 40 →
        let v := ib.toNat
        let D := 4 * v + 17
        ∃ t, exec (.ginit ib) s = .next t ∧ s.Success t
          ∧ t.grid.ver = v ∧ t.grid.dim = D ∧ t.grid.gvalid = true
          ∧ (∀ r c, r < D → c < D →
              t.modAt r c = false ∧ t.asgAt r c = !reserved (s.alignTable.getD (v - 1) []) v r c)
          ∧ (∃ u, exec .pbegin { s with grid := t.grid } = .next u ∧ t.cursor = u.cursor)
          ∧ (s.alignTable = State.reset.alignTable →
              t.cursor = { px := D - 1, py := D - 1, pup := true, pside := false, pstate := .active, pbits := 0 })))
  ∧ State.reset.alignTable =
      [[], [6, 18], [6, 22], [6, 26], [6, 30], [6, 34], [6, 22, 38], [6, 24, 42], [6, 26, 46], [6, 28, 50]]
      ++ [[6, 30, 54], [6, 32, 58], [6, 34, 62], [6, 26, 46, 66], [6, 26, 48, 70], [6, 26, 50, 74], [6, 30, 54, 78],
        [6, 30, 56, 82], [6, 30, 58, 86], [6, 34, 62, 90]]
      ++ [[6, 28, 50, 72, 94], [6, 26, 50, 74, 98], [6, 30, 54, 78, 102], [6, 28, 54, 80, 106], [6, 32, 58, 84, 110],
        [6, 30, 58, 86, 114], [6, 34, 62, 90, 118], [6, 26, 50, 74, 98, 122], [6, 30, 54, 78, 102, 126], [6, 26, 52, 78, 104, 130]]
      ++ [[6, 30, 56, 82, 108, 134], [6, 34, 60, 86, 112, 138], [6, 30, 58, 86, 114, 142], [6, 34, 62, 90, 118, 146],
        [6, 30, 54, 78, 102, 126, 150], [6, 24, 50, 76, 102, 128, 154], [6, 28, 54, 80, 106, 132, 158],
        [6, 32, 58, 84, 110, 136, 162], [6, 26, 54, 82, 110, 138, 166], [6, 30, 58, 86, 114, 142, 170]]
  ∧ ∀ v, 1 ≤ v → v ≤ 40 →
      let A := State.reset.alignTable.getD (v - 1) []
      A.length = (if v = 1 then 0 else v / 7 + 2) ∧ A.Pairwise (· < ·)
        ∧ (2 ≤ v → A.head? = some 6 ∧ A.getLast? = some (4 * v + 17 - 7))

/-- R276: under the default alignment table (log 9) the traversal of the grid GINIT builds passes over N(v) modules. -/
def Obligations.GinitGridHasSpecModuleCount : Prop :=
  ∀ (ib : Byte) (s t : State), s.alignTable = State.reset.alignTable → 1 ≤ ib.toNat → ib.toNat ≤ 40 →
    exec (.ginit ib) s = .next t →
    let v := ib.toNat
    let m := v / 7 + 2
    t.cursor.remaining t.grid.dim t.grid.asg
        + (if v = 1 then 0 else (25 * m - 10) * m - 55) + (if 7 ≤ v then 36 else 0)
      = (16 * v + 128) * v + 64

/-- R84, R269-R273: MODW, MODR, AMW, MODW32 and MODR32 inside the grid; the leftmost of the 32 modules of a row is bit 31. -/
def Obligations.ModuleAccessEffects : Prop :=
  ∀ (row col val : Byte) (s : State), s.grid.Wf → s.grid.gvalid = true →
    row.toNat < s.grid.dim → col.toNat < s.grid.dim →
    (val.toNat < 2 →
      (∃ t, exec (.modw row col val) s = .next t ∧ s.Success t
        ∧ t.modAt row.toNat col.toNat = val.getLsbD 0
        ∧ (∀ r c, ¬(r = row.toNat ∧ c = col.toNat) → t.modAt r c = s.modAt r c)
        ∧ t.grid.asg = s.grid.asg ∧ t.cursor = s.cursor)
      ∧ ∃ t, exec (.amw row col val) s = .next t ∧ s.Success t
        ∧ t.asgAt row.toNat col.toNat = val.getLsbD 0
        ∧ (∀ r c, ¬(r = row.toNat ∧ c = col.toNat) → t.asgAt r c = s.asgAt r c)
        ∧ t.grid.mod = s.grid.mod ∧ t.cursor = { s.cursor with pstate := .idle, pbits := 0 })
    ∧ (∃ t, exec (.modr row col) s = .next t ∧ s.Success t
      ∧ t.result = BitVec.ofNat 32
          (2 * (s.asgAt row.toNat col.toNat).toNat + (s.modAt row.toNat col.toNat).toNat))
    ∧ (∃ t, exec (.modw32 row col) s = .next t ∧ s.Success t
      ∧ (∀ j, j < 32 → col.toNat + j < s.grid.dim → t.modAt row.toNat (col.toNat + j) = s.arg0.getLsbD (31 - j))
      ∧ (∀ r c, r ≠ row.toNat ∨ c < col.toNat ∨ col.toNat + 32 ≤ c → t.modAt r c = s.modAt r c)
      ∧ t.grid.asg = s.grid.asg ∧ t.cursor = s.cursor)
    ∧ ∃ t, exec (.modr32 row col) s = .next t ∧ s.Success t
      ∧ ∀ j, j < 32 → t.result.getLsbD (31 - j) =
          (decide (col.toNat + j < s.grid.dim) && s.modAt row.toNat (col.toNat + j))

/-- R274, R276: where the cursor is after n raw moves from the start: strip number n / 2D, whose right column is D-1, D-3, …, 8, 5, 3, 1,
the strips alternately upward and downward, the first upward, and in each row the right column before the left; the order ends after
D * (D - 1) positions. So it passes over every module outside column 6 exactly once and over no other position. -/
def Obligations.RawOrderVisitsEachModuleOnce : Prop :=
  ∀ v : Nat, 1 ≤ v → v ≤ 40 →
    let d := 4 * v + 17
    (∀ n, n < d * (d - 1) →
      let k := n / (2 * d)
      let q := n % (2 * d)
      ∃ x, rawWalk d n (startCursor d) = some x
        ∧ x.px = (if 8 ≤ d - 1 - 2 * k then d - 1 - 2 * k else d - 2 - 2 * k)
        ∧ x.pup = decide (k % 2 = 0) ∧ x.py = (if k % 2 = 0 then d - 1 - q / 2 else q / 2)
        ∧ x.pside = decide (q % 2 = 1))
    ∧ (∀ n, d * (d - 1) ≤ n → rawWalk d n (startCursor d) = none)
    ∧ (∀ r c, r < d → c < d → c ≠ 6 →
      ∃ n x, rawWalk d n (startCursor d) = some x ∧ x.py = r ∧ x.col = c
        ∧ ∀ n' x', rawWalk d n' (startCursor d) = some x' → x'.py = r → x'.col = c → n' = n)
    ∧ ∀ n x, rawWalk d n (startCursor d) = some x → x.py < d ∧ x.col < d ∧ x.col ≠ 6

/-- R275: from a position of the path, seek() stops at the first assignable module along the raw order, or is DONE when there is
none left. -/
def Obligations.SeekFindsFirstAssignableModule : Prop :=
  ∀ (v : Nat) (asg : BitGrid) (c : Cursor), 1 ≤ v → v ≤ 40 → c.OnPath (4 * v + 17) →
    let d := 4 * v + 17
    let c' := seek d asg c
    (c'.pstate = .active ∧ ∃ n x, rawWalk d n c = some x ∧ x.onAssignable asg = true ∧ c' = { x with pstate := .active }
      ∧ ∀ k y, k < n → rawWalk d k c = some y → y.onAssignable asg = false)
    ∨ (c'.pstate = .done ∧ ∀ k y, rawWalk d k c = some y → y.onAssignable asg = false)

/-- R277, R276: PBEGIN starts the traversal with PBITS = 0, ACTIVE, or DONE when nothing is assignable; the modules to be passed over are
all the assignable modules outside column 6, which the raw order skips (log 14). -/
def Obligations.PbeginStartsTraversal : Prop :=
  ∀ s : State, s.grid.Wf → s.grid.gvalid = true →
    ∃ t, exec .pbegin s = .next t ∧ s.Success t ∧ t.grid = s.grid ∧ t.cursor.pbits = 0
      ∧ (t.cursor.pstate = .active ∨ t.cursor.pstate = .done)
      ∧ (t.cursor.pstate = .done ↔ freeCount s.grid.dim s.grid.asg = 0)
      ∧ t.cursor.remaining s.grid.dim s.grid.asg = freeCount s.grid.dim s.grid.asg
      ∧ (t.cursor.pstate = .active →
          ∃ n x, rawWalk s.grid.dim n (startCursor s.grid.dim) = some x
            ∧ t.cursor = { x with pstate := .active } ∧ s.asgAt x.py x.col = true
            ∧ ∀ k y, k < n → rawWalk s.grid.dim k (startCursor s.grid.dim) = some y → s.asgAt y.py y.col = false)

/-- R278-R281: when the placement transfers complete: a grid, a cursor that is not IDLE, enough modules, and for the bulk ones enough
stream bits or room. The modules passed over are counted in PBITS and leave remaining(). -/
def Obligations.PlacementTransfersComplete : Prop :=
  ∀ s : State, s.PlacementWf → s.grid.gvalid = true → s.cursor.pstate ≠ .idle →
    let left := s.cursor.remaining s.grid.dim s.grid.asg
    let m := s.arg0.toNat
    let moved := fun (t : State) (k : Nat) =>
      s.Success t ∧ t.cursor.pbits = s.cursor.pbits + k ∧ t.cursor.remaining t.grid.dim t.grid.asg + k = left
    (∀ n : BitVec 6, 1 ≤ n.toNat → n.toNat ≤ 8 → n.toNat ≤ left →
      (∃ t, exec (.pwrite n) s = .next t ∧ moved t n.toNat ∧ t.grid.asg = s.grid.asg)
      ∧ ∃ t, exec (.pread n) s = .next t ∧ moved t n.toNat ∧ t.grid = s.grid ∧ t.result.toNat < 2 ^ n.toNat)
    ∧ (∀ a, m ≤ (s.stream a).count - (s.stream a).pos → m ≤ left →
        ∃ t, exec (.pstore a) s = .next t ∧ moved t m ∧ t.grid.asg = s.grid.asg
          ∧ (t.stream a).pos = (s.stream a).pos + m ∧ (t.stream a).bits = (s.stream a).bits)
    ∧ ∀ a, (s.stream a).pos ≤ (s.stream a).count → m ≤ left → (s.stream a).pos + m ≤ 32768 →
        ∃ t, exec (.pload a) s = .next t ∧ moved t m ∧ t.grid = s.grid
          ∧ (m = 0 → t.streams = s.streams)
          ∧ (0 < m → (t.stream a).pos = (s.stream a).pos + m ∧ (t.stream a).count = (s.stream a).pos + m
              ∧ (t.stream a).cap = (if (s.stream a).cap < (s.stream a).pos + m then ceil8 ((s.stream a).pos + m) else (s.stream a).cap)
              ∧ ∀ i, i < (s.stream a).pos → (t.stream a).bitAt i = (s.stream a).bitAt i)

/-- R278-R281, R52: the errors of the placement transfers, in their order. -/
def Obligations.PlacementTransferErrors : Prop :=
  ∀ s : State, s.grid.gvalid = true →
    let left := s.cursor.remaining s.grid.dim s.grid.asg
    let m := s.arg0.toNat
    (∀ n : BitVec 6, 1 ≤ n.toNat → n.toNat ≤ 8 → s.cursor.pstate = .idle ∨ left < n.toNat →
      exec (.pwrite n) s = .next (s.withError .range) ∧ exec (.pread n) s = .next (s.withError .range))
    ∧ (∀ a, s.cursor.pstate = .idle ∨ (s.stream a).count - (s.stream a).pos < m ∨ left < m →
        exec (.pstore a) s = .next (s.withError .range))
    ∧ (∀ a, s.cursor.pstate = .idle ∨ left < m → exec (.pload a) s = .next (s.withError .range))
    ∧ ∀ a, s.cursor.pstate ≠ .idle → m ≤ left → 0 < m → 32768 < (s.stream a).pos + m →
        exec (.pload a) s = .next (s.withError .alloc)

/-- R275, R278-R281: one bit is moved between the module under the cursor and the value or stream, and the cursor goes on to the next
assignable module of the raw order or is DONE; n bits are one bit and then n - 1 more. -/
def Obligations.PlacementMovesBitByBit : Prop :=
  ∀ (n : BitVec 6) (s : State), s.PlacementWf → s.cursor.pstate = .active → n.toNat ≤ 8 →
    (∃ t, exec (.pwrite 1) s = .next t ∧ s.Success t
      ∧ t.modAt s.cursor.py s.cursor.col = s.arg0.getLsbD 0
      ∧ (∀ r c, ¬(r = s.cursor.py ∧ c = s.cursor.col) → t.modAt r c = s.modAt r c)
      ∧ ∃ u, exec (.pread 1) s = .next u ∧ s.Success u ∧ u.cursor = t.cursor
        ∧ u.result = BitVec.ofNat 32 (s.modAt s.cursor.py s.cursor.col).toNat
        ∧ (t.cursor.pstate = .done ∨ t.cursor.pstate = .active
            ∧ ∃ k x, 0 < k ∧ rawWalk s.grid.dim k s.cursor = some x ∧ s.asgAt x.py x.col = true
              ∧ t.cursor.py = x.py ∧ t.cursor.px = x.px ∧ t.cursor.pup = x.pup ∧ t.cursor.pside = x.pside
              ∧ ∀ j y, 0 < j → j < k → rawWalk s.grid.dim j s.cursor = some y → s.asgAt y.py y.col = false))
    ∧ (∀ t u, 2 ≤ n.toNat → exec (.pwrite n) s = .next t → t.status.lastErr = .ok →
        exec (.pwrite 1) { s with arg0 := s.arg0 >>> (n.toNat - 1) } = .next u →
        ∃ v, exec (.pwrite (n - 1)) { u with arg0 := s.arg0 } = .next v ∧ v.status.lastErr = .ok
          ∧ v.grid = t.grid ∧ v.cursor = t.cursor)
    ∧ (∀ t u, 2 ≤ n.toNat → exec (.pread n) s = .next t → t.status.lastErr = .ok → exec (.pread 1) s = .next u →
        ∃ v, exec (.pread (n - 1)) u = .next v ∧ v.status.lastErr = .ok ∧ v.cursor = t.cursor
          ∧ t.result = (u.result <<< (n.toNat - 1)) ||| v.result)
    ∧ (∀ a t u, 0 < s.arg0.toNat → exec (.pstore a) s = .next t → t.status.lastErr = .ok →
        exec (.pwrite 1) { s with arg0 := BitVec.ofNat 32 ((s.stream a).bitAt (s.stream a).pos).toNat } = .next u →
        ∃ v, exec (.pstore a) { (u.setStream a { s.stream a with pos := (s.stream a).pos + 1 }) with arg0 := s.arg0 - 1 }
            = .next v ∧ v.status.lastErr = .ok ∧ v.grid = t.grid ∧ v.cursor = t.cursor ∧ v.streams = t.streams)
    ∧ ∀ a t u w, (s.stream a).pos ≤ (s.stream a).count → 0 < s.arg0.toNat → exec (.pload a) s = .next t →
        t.status.lastErr = .ok → exec (.pread 1) s = .next u →
        exec (.swrite a 1) { u with arg0 := u.result } = .next w →
        ∃ v, exec (.pload a) { w with arg0 := s.arg0 - 1 } = .next v ∧ v.status.lastErr = .ok
          ∧ v.cursor = t.cursor ∧ v.streams = t.streams

/-- R278-R281: what a transfer stores along the traversal is what a transfer of as many bits from the same cursor reads back. -/
def Obligations.PlacementReadsBackWhatWasPlaced : Prop :=
  ∀ (a b : StreamId) (s t u : State), s.PlacementWf → s.StreamsWf →
    exec (.pstore a) s = .next t → t.status.lastErr = .ok → 0 < s.arg0.toNat →
    exec (.pload b) { t with cursor := s.cursor } = .next u → u.status.lastErr = .ok →
    ∀ i, i < s.arg0.toNat →
      (u.stream b).bitAt ((t.stream b).pos + i) = (s.stream a).bitAt ((s.stream a).pos + i)

/-- R49, R51, R52, R275: every step keeps the grid and the cursor well-formed; in particular PBITS and remaining() together are always
the assignable modules of the traversal. -/
def Obligations.StepKeepsPlacementWellFormed : Prop :=
  ∀ s t : State, s.PlacementWf → step s = .next t → t.PlacementWf

/-- What the grid and placement commands leave unchanged: RS unit, mask unit, flags; RESULT but for MODR, MODR32, PREAD; VER, DIM and
GVALID but for GINIT; Asg but for GINIT and AMW; Mod but for GINIT, MODW, MODW32, PWRITE, PSTORE, and there reserved modules but for
GINIT, MODW, MODW32; the streams but for PSTORE and PLOAD of SA, whose bits change for PLOAD only. -/
def Obligations.GridCommandFrame : Prop :=
  ∀ (i : Instr) (s t : State), i.isGrid = true → exec i s = .next t →
    s.SameHostSide t ∧ s.SameFlags t ∧ t.rs = s.rs ∧ t.mask = s.mask
    ∧ (i.writesResult = false → t.result = s.result)
    ∧ (i.isGinit = false → t.grid.ver = s.grid.ver ∧ t.grid.dim = s.grid.dim ∧ t.grid.gvalid = s.grid.gvalid)
    ∧ (i.isGinit = false → i.isAmw = false → t.grid.asg = s.grid.asg)
    ∧ (i.writesModules = false → t.grid.mod = s.grid.mod)
    ∧ (i.movesCursor = false → t.cursor = s.cursor)
    ∧ (i.placesModules = true → s.PlacementWf → ∀ r c, s.asgAt r c = false → t.modAt r c = s.modAt r c)
    ∧ (∀ c, i.gridStream ≠ some c → t.stream c = s.stream c)
    ∧ (∀ a, i = .pstore a → (t.stream a).bits = (s.stream a).bits ∧ (t.stream a).cap = (s.stream a).cap)

/-! ## Mask unit (45_mask.md) -/

/-- R310, R311, R317: MAPPLY flips exactly the assignable modules where the mask condition is 0; applied twice it restores the grid. -/
def Obligations.MapplyFlipsMaskedModules : Prop :=
  ∀ (ib : Byte) (s : State), ib.toNat < 8 → s.grid.gvalid = true →
    ∃ t, exec (.mapply ib) s = .next t ∧ s.Success t ∧ t.grid.asg = s.grid.asg ∧ t.cursor = s.cursor
      ∧ (∀ i j, i < s.grid.dim → j < s.grid.dim →
          (t.modAt i j ≠ s.modAt i j ↔ s.asgAt i j = true ∧
            match ib.toNat with
            | 0 => (i + j) % 2 = 0
            | 1 => i % 2 = 0
            | 2 => j % 3 = 0
            | 3 => (i + j) % 3 = 0
            | 4 => (i / 2 + j / 3) % 2 = 0
            | 5 => (i * j) % 2 + (i * j) % 3 = 0
            | 6 => ((i * j) % 2 + (i * j) % 3) % 2 = 0
            | _ => ((i + j) % 2 + (i * j) % 3) % 2 = 0))
      ∧ (s.grid.Wf → ∃ u, exec (.mapply ib) t = .next u ∧ u.grid = s.grid)

/-- R312-R316, R318: MSCORE reads the total or one of the four penalties, each given by its own formula over the lines of the grid; the
runs of a line are its maximal blocks of equal colour. -/
def Obligations.MscoreReadsPenalties : Prop :=
  (∀ l : List Bool,
    (lineRuns l).flatMap (fun r => List.replicate r.2 r.1) = l
    ∧ (∀ r ∈ lineRuns l, 1 ≤ r.2)
    ∧ (lineRuns l).IsChain (fun x y => x.1 ≠ y.1))
  ∧ ∀ (n : BitVec 6) (s : State), n.toNat ≤ 4 → s.grid.gvalid = true →
    let D := s.grid.dim
    let M := fun i j => s.modAt i j
    let lines := (List.range D).map (fun i => (List.range D).map fun j => M i j)
      ++ (List.range D).map (fun j => (List.range D).map fun i => M i j)
    let pa := (lines.map fun l => ((lineRuns l).map fun r => if r.2 < 5 then 0 else r.2 - 2).sum).sum
    let pb := 3 * ((List.range (D - 1)).map fun i => (List.range (D - 1)).countP fun j =>
      M i j == M i (j + 1) && M i j == M (i + 1) j && M i j == M (i + 1) (j + 1)).sum
    let pc := 40 * (lines.map fun l => (List.range (lineRuns l).length).countP fun t =>
      match (lineRuns l).drop t with
      | (dark, u) :: (_, x1) :: (_, x2) :: (_, x3) :: (_, x4) :: _ =>
        dark && x1 == u && x2 == 3 * u && x3 == u && x4 == u
      | _ => false).sum
    ∃ t pd k, exec (.mscore n) s = .next t ∧ s.Success t ∧ s.OnlyResult t
      ∧ k = ((List.range D).map fun i => (List.range D).countP fun j => M i j).sum
      ∧ (0 < D → ((20 * k : Int) - 10 * (D * D)).natAbs ≤ pd / 10 * (D * D)
          ∧ pd / 10 * (D * D) < ((20 * k : Int) - 10 * (D * D)).natAbs + D * D ∧ pd % 10 = 0)
      ∧ t.result = BitVec.ofNat 32 (match n.toNat with
          | 0 => pa + pb + pc + pd
          | 1 => pa
          | 2 => pb
          | 3 => pc
          | _ => pd)

/-- R316: the bounds of the four penalties and of the score, for every grid the machine can hold; SCORE0..7 hold the score. -/
def Obligations.ScoreBounds : Prop :=
  (∀ (d : Nat) (g : BitGrid), d ≤ 177 →
    score d g = penaltyA d g + penaltyB d g + penaltyC d g + penaltyD d g
    ∧ penaltyA d g ≤ 2 * d * (d - 2) ∧ penaltyB d g ≤ 3 * (d - 1) ^ 2 ∧ penaltyC d g ≤ 40 * (2 * d) * ((d + 5) / 6)
    ∧ penaltyD d g ≤ 100 ∧ score d g < 2 ^ 20)
  ∧ ∀ (s t : State), s.grid.Wf → s.grid.gvalid = true → exec .mselect s = .next t →
    ∀ m : Fin 8, t.mask.scores[m].toNat = score s.grid.dim (masked s.grid.dim s.grid.mod s.grid.asg m) ∧
      t.mask.scores[m].extractLsb' 20 12 = 0

/-- R319: MSELECT scores the eight masked candidates (SCOREm is what MSCORE 0 gives after MAPPLY m), picks the lowest mask of least score
and applies it. -/
def Obligations.MselectPicksLowestScore : Prop :=
  ∀ s : State, s.grid.gvalid = true →
    ∃ t, ∃ b : Fin 8, exec .mselect s = .next t ∧ s.Success t
      ∧ (∀ m : Fin 8, ∃ u v, exec (.mapply (BitVec.ofNat 8 m)) s = .next u ∧ exec (.mscore 0) u = .next v
          ∧ t.mask.scores[m] = v.result ∧ (m = b → t.grid = u.grid))
      ∧ (∀ m : Fin 8, t.mask.scores[b] ≤ t.mask.scores[m])
      ∧ (∀ m : Fin 8, m < b → t.mask.scores[b] < t.mask.scores[m])
      ∧ t.mask.best.toNat = b ∧ t.result = BitVec.ofNat 32 b ∧ t.cursor = s.cursor

/-- What the mask commands leave unchanged: streams, RS unit, cursor, flags, VER, DIM, GVALID and Asg; every reserved module; SCORE0..7
and BEST but for MSELECT; RESULT but for MSCORE and MSELECT; all of the grid for MSCORE. -/
def Obligations.MaskCommandFrame : Prop :=
  ∀ (i : Instr) (s t : State), i.isMask = true → exec i s = .next t →
    s.SameHostSide t ∧ s.SameFlags t ∧ t.streams = s.streams ∧ t.rs = s.rs ∧ t.cursor = s.cursor
    ∧ t.grid.ver = s.grid.ver ∧ t.grid.dim = s.grid.dim ∧ t.grid.gvalid = s.grid.gvalid ∧ t.grid.asg = s.grid.asg
    ∧ (∀ r c, r < s.grid.dim → c < s.grid.dim → s.asgAt r c = false → t.modAt r c = s.modAt r c)
    ∧ (i ≠ .mselect → t.mask = s.mask)
    ∧ (i.writesResult = false → t.result = s.result)
    ∧ ((∀ n, i = .mscore n → t.grid = s.grid))
end

