-- ==== Sys2Proof/Laws/State.lean ====
section
/-! SUPPORT. What each named update of State changes and what it keeps: one lemma per field per update, so that no later proof unfolds a
record update. -/

namespace Sys2Proof.Machine

variable (s : State)


/-! setResult -/

@[simp] theorem State.setResult_arg0 (v : Word) : (s.setResult v).arg0 = s.arg0 := rfl
@[simp] theorem State.setResult_arg1 (v : Word) : (s.setResult v).arg1 = s.arg1 := rfl
@[simp] theorem State.setResult_result (v : Word) : (s.setResult v).result = v := rfl
@[simp] theorem State.setResult_status (v : Word) : (s.setResult v).status = s.status := rfl
@[simp] theorem State.setResult_streams (v : Word) : (s.setResult v).streams = s.streams := rfl
@[simp] theorem State.setResult_rs (v : Word) : (s.setResult v).rs = s.rs := rfl
@[simp] theorem State.setResult_grid (v : Word) : (s.setResult v).grid = s.grid := rfl
@[simp] theorem State.setResult_cursor (v : Word) : (s.setResult v).cursor = s.cursor := rfl
@[simp] theorem State.setResult_mask (v : Word) : (s.setResult v).mask = s.mask := rfl
@[simp] theorem State.setResult_alignTable (v : Word) : (s.setResult v).alignTable = s.alignTable := rfl
@[simp] theorem State.setResult_host (v : Word) : (s.setResult v).host = s.host := rfl
@[simp] theorem State.setResult_stream (v : Word) (b : StreamId) : (s.setResult v).stream b = s.stream b := rfl

/-! setArg0 -/

@[simp] theorem State.setArg0_arg0 (v : Word) : (s.setArg0 v).arg0 = v := rfl
@[simp] theorem State.setArg0_arg1 (v : Word) : (s.setArg0 v).arg1 = s.arg1 := rfl
@[simp] theorem State.setArg0_result (v : Word) : (s.setArg0 v).result = s.result := rfl
@[simp] theorem State.setArg0_status (v : Word) : (s.setArg0 v).status = s.status := rfl
@[simp] theorem State.setArg0_streams (v : Word) : (s.setArg0 v).streams = s.streams := rfl
@[simp] theorem State.setArg0_rs (v : Word) : (s.setArg0 v).rs = s.rs := rfl
@[simp] theorem State.setArg0_grid (v : Word) : (s.setArg0 v).grid = s.grid := rfl
@[simp] theorem State.setArg0_cursor (v : Word) : (s.setArg0 v).cursor = s.cursor := rfl
@[simp] theorem State.setArg0_mask (v : Word) : (s.setArg0 v).mask = s.mask := rfl
@[simp] theorem State.setArg0_alignTable (v : Word) : (s.setArg0 v).alignTable = s.alignTable := rfl
@[simp] theorem State.setArg0_host (v : Word) : (s.setArg0 v).host = s.host := rfl
@[simp] theorem State.setArg0_stream (v : Word) (b : StreamId) : (s.setArg0 v).stream b = s.stream b := rfl

/-! setArg1 -/

@[simp] theorem State.setArg1_arg0 (v : Word) : (s.setArg1 v).arg0 = s.arg0 := rfl
@[simp] theorem State.setArg1_arg1 (v : Word) : (s.setArg1 v).arg1 = v := rfl
@[simp] theorem State.setArg1_result (v : Word) : (s.setArg1 v).result = s.result := rfl
@[simp] theorem State.setArg1_status (v : Word) : (s.setArg1 v).status = s.status := rfl
@[simp] theorem State.setArg1_streams (v : Word) : (s.setArg1 v).streams = s.streams := rfl
@[simp] theorem State.setArg1_rs (v : Word) : (s.setArg1 v).rs = s.rs := rfl
@[simp] theorem State.setArg1_grid (v : Word) : (s.setArg1 v).grid = s.grid := rfl
@[simp] theorem State.setArg1_cursor (v : Word) : (s.setArg1 v).cursor = s.cursor := rfl
@[simp] theorem State.setArg1_mask (v : Word) : (s.setArg1 v).mask = s.mask := rfl
@[simp] theorem State.setArg1_alignTable (v : Word) : (s.setArg1 v).alignTable = s.alignTable := rfl
@[simp] theorem State.setArg1_host (v : Word) : (s.setArg1 v).host = s.host := rfl
@[simp] theorem State.setArg1_stream (v : Word) (b : StreamId) : (s.setArg1 v).stream b = s.stream b := rfl

/-! setStatus -/

@[simp] theorem State.setStatus_arg0 (st : Status) : (s.setStatus st).arg0 = s.arg0 := rfl
@[simp] theorem State.setStatus_arg1 (st : Status) : (s.setStatus st).arg1 = s.arg1 := rfl
@[simp] theorem State.setStatus_result (st : Status) : (s.setStatus st).result = s.result := rfl
@[simp] theorem State.setStatus_status (st : Status) : (s.setStatus st).status = st := rfl
@[simp] theorem State.setStatus_streams (st : Status) : (s.setStatus st).streams = s.streams := rfl
@[simp] theorem State.setStatus_rs (st : Status) : (s.setStatus st).rs = s.rs := rfl
@[simp] theorem State.setStatus_grid (st : Status) : (s.setStatus st).grid = s.grid := rfl
@[simp] theorem State.setStatus_cursor (st : Status) : (s.setStatus st).cursor = s.cursor := rfl
@[simp] theorem State.setStatus_mask (st : Status) : (s.setStatus st).mask = s.mask := rfl
@[simp] theorem State.setStatus_alignTable (st : Status) : (s.setStatus st).alignTable = s.alignTable := rfl
@[simp] theorem State.setStatus_host (st : Status) : (s.setStatus st).host = s.host := rfl
@[simp] theorem State.setStatus_stream (st : Status) (b : StreamId) : (s.setStatus st).stream b = s.stream b := rfl

/-! setRs -/

@[simp] theorem State.setRs_arg0 (r : Rs) : (s.setRs r).arg0 = s.arg0 := rfl
@[simp] theorem State.setRs_arg1 (r : Rs) : (s.setRs r).arg1 = s.arg1 := rfl
@[simp] theorem State.setRs_result (r : Rs) : (s.setRs r).result = s.result := rfl
@[simp] theorem State.setRs_status (r : Rs) : (s.setRs r).status = s.status := rfl
@[simp] theorem State.setRs_streams (r : Rs) : (s.setRs r).streams = s.streams := rfl
@[simp] theorem State.setRs_rs (r : Rs) : (s.setRs r).rs = r := rfl
@[simp] theorem State.setRs_grid (r : Rs) : (s.setRs r).grid = s.grid := rfl
@[simp] theorem State.setRs_cursor (r : Rs) : (s.setRs r).cursor = s.cursor := rfl
@[simp] theorem State.setRs_mask (r : Rs) : (s.setRs r).mask = s.mask := rfl
@[simp] theorem State.setRs_alignTable (r : Rs) : (s.setRs r).alignTable = s.alignTable := rfl
@[simp] theorem State.setRs_host (r : Rs) : (s.setRs r).host = s.host := rfl
@[simp] theorem State.setRs_stream (r : Rs) (b : StreamId) : (s.setRs r).stream b = s.stream b := rfl

/-! setGrid -/

@[simp] theorem State.setGrid_arg0 (g : Grid) : (s.setGrid g).arg0 = s.arg0 := rfl
@[simp] theorem State.setGrid_arg1 (g : Grid) : (s.setGrid g).arg1 = s.arg1 := rfl
@[simp] theorem State.setGrid_result (g : Grid) : (s.setGrid g).result = s.result := rfl
@[simp] theorem State.setGrid_status (g : Grid) : (s.setGrid g).status = s.status := rfl
@[simp] theorem State.setGrid_streams (g : Grid) : (s.setGrid g).streams = s.streams := rfl
@[simp] theorem State.setGrid_rs (g : Grid) : (s.setGrid g).rs = s.rs := rfl
@[simp] theorem State.setGrid_grid (g : Grid) : (s.setGrid g).grid = g := rfl
@[simp] theorem State.setGrid_cursor (g : Grid) : (s.setGrid g).cursor = s.cursor := rfl
@[simp] theorem State.setGrid_mask (g : Grid) : (s.setGrid g).mask = s.mask := rfl
@[simp] theorem State.setGrid_alignTable (g : Grid) : (s.setGrid g).alignTable = s.alignTable := rfl
@[simp] theorem State.setGrid_host (g : Grid) : (s.setGrid g).host = s.host := rfl
@[simp] theorem State.setGrid_stream (g : Grid) (b : StreamId) : (s.setGrid g).stream b = s.stream b := rfl

/-! setCursor -/

@[simp] theorem State.setCursor_arg0 (c : Cursor) : (s.setCursor c).arg0 = s.arg0 := rfl
@[simp] theorem State.setCursor_arg1 (c : Cursor) : (s.setCursor c).arg1 = s.arg1 := rfl
@[simp] theorem State.setCursor_result (c : Cursor) : (s.setCursor c).result = s.result := rfl
@[simp] theorem State.setCursor_status (c : Cursor) : (s.setCursor c).status = s.status := rfl
@[simp] theorem State.setCursor_streams (c : Cursor) : (s.setCursor c).streams = s.streams := rfl
@[simp] theorem State.setCursor_rs (c : Cursor) : (s.setCursor c).rs = s.rs := rfl
@[simp] theorem State.setCursor_grid (c : Cursor) : (s.setCursor c).grid = s.grid := rfl
@[simp] theorem State.setCursor_cursor (c : Cursor) : (s.setCursor c).cursor = c := rfl
@[simp] theorem State.setCursor_mask (c : Cursor) : (s.setCursor c).mask = s.mask := rfl
@[simp] theorem State.setCursor_alignTable (c : Cursor) : (s.setCursor c).alignTable = s.alignTable := rfl
@[simp] theorem State.setCursor_host (c : Cursor) : (s.setCursor c).host = s.host := rfl
@[simp] theorem State.setCursor_stream (c : Cursor) (b : StreamId) : (s.setCursor c).stream b = s.stream b := rfl

/-! setMask -/

@[simp] theorem State.setMask_arg0 (m : MaskUnit) : (s.setMask m).arg0 = s.arg0 := rfl
@[simp] theorem State.setMask_arg1 (m : MaskUnit) : (s.setMask m).arg1 = s.arg1 := rfl
@[simp] theorem State.setMask_result (m : MaskUnit) : (s.setMask m).result = s.result := rfl
@[simp] theorem State.setMask_status (m : MaskUnit) : (s.setMask m).status = s.status := rfl
@[simp] theorem State.setMask_streams (m : MaskUnit) : (s.setMask m).streams = s.streams := rfl
@[simp] theorem State.setMask_rs (m : MaskUnit) : (s.setMask m).rs = s.rs := rfl
@[simp] theorem State.setMask_grid (m : MaskUnit) : (s.setMask m).grid = s.grid := rfl
@[simp] theorem State.setMask_cursor (m : MaskUnit) : (s.setMask m).cursor = s.cursor := rfl
@[simp] theorem State.setMask_mask (m : MaskUnit) : (s.setMask m).mask = m := rfl
@[simp] theorem State.setMask_alignTable (m : MaskUnit) : (s.setMask m).alignTable = s.alignTable := rfl
@[simp] theorem State.setMask_host (m : MaskUnit) : (s.setMask m).host = s.host := rfl
@[simp] theorem State.setMask_stream (m : MaskUnit) (b : StreamId) : (s.setMask m).stream b = s.stream b := rfl

/-! setHost -/

@[simp] theorem State.setHost_arg0 (h : HostPort) : (s.setHost h).arg0 = s.arg0 := rfl
@[simp] theorem State.setHost_arg1 (h : HostPort) : (s.setHost h).arg1 = s.arg1 := rfl
@[simp] theorem State.setHost_result (h : HostPort) : (s.setHost h).result = s.result := rfl
@[simp] theorem State.setHost_status (h : HostPort) : (s.setHost h).status = s.status := rfl
@[simp] theorem State.setHost_streams (h : HostPort) : (s.setHost h).streams = s.streams := rfl
@[simp] theorem State.setHost_rs (h : HostPort) : (s.setHost h).rs = s.rs := rfl
@[simp] theorem State.setHost_grid (h : HostPort) : (s.setHost h).grid = s.grid := rfl
@[simp] theorem State.setHost_cursor (h : HostPort) : (s.setHost h).cursor = s.cursor := rfl
@[simp] theorem State.setHost_mask (h : HostPort) : (s.setHost h).mask = s.mask := rfl
@[simp] theorem State.setHost_alignTable (h : HostPort) : (s.setHost h).alignTable = s.alignTable := rfl
@[simp] theorem State.setHost_host (h : HostPort) : (s.setHost h).host = h := rfl
@[simp] theorem State.setHost_stream (h : HostPort) (b : StreamId) : (s.setHost h).stream b = s.stream b := rfl

/-! setStream -/

@[simp] theorem State.setStream_arg0 (a : StreamId) (st : Stream) : (s.setStream a st).arg0 = s.arg0 := rfl
@[simp] theorem State.setStream_arg1 (a : StreamId) (st : Stream) : (s.setStream a st).arg1 = s.arg1 := rfl
@[simp] theorem State.setStream_result (a : StreamId) (st : Stream) : (s.setStream a st).result = s.result := rfl
@[simp] theorem State.setStream_status (a : StreamId) (st : Stream) : (s.setStream a st).status = s.status := rfl
@[simp] theorem State.setStream_streams (a : StreamId) (st : Stream) : (s.setStream a st).streams = s.streams.set a st := rfl
@[simp] theorem State.setStream_rs (a : StreamId) (st : Stream) : (s.setStream a st).rs = s.rs := rfl
@[simp] theorem State.setStream_grid (a : StreamId) (st : Stream) : (s.setStream a st).grid = s.grid := rfl
@[simp] theorem State.setStream_cursor (a : StreamId) (st : Stream) : (s.setStream a st).cursor = s.cursor := rfl
@[simp] theorem State.setStream_mask (a : StreamId) (st : Stream) : (s.setStream a st).mask = s.mask := rfl
@[simp] theorem State.setStream_alignTable (a : StreamId) (st : Stream) : (s.setStream a st).alignTable = s.alignTable := rfl
@[simp] theorem State.setStream_host (a : StreamId) (st : Stream) : (s.setStream a st).host = s.host := rfl

/-! succeed -/

@[simp] theorem State.succeed_arg0 : (s.succeed).arg0 = s.arg0 := rfl
@[simp] theorem State.succeed_arg1 : (s.succeed).arg1 = s.arg1 := rfl
@[simp] theorem State.succeed_result : (s.succeed).result = s.result := rfl
@[simp] theorem State.succeed_status : (s.succeed).status = { s.status with lastErr := .ok } := rfl
@[simp] theorem State.succeed_streams : (s.succeed).streams = s.streams := rfl
@[simp] theorem State.succeed_rs : (s.succeed).rs = s.rs := rfl
@[simp] theorem State.succeed_grid : (s.succeed).grid = s.grid := rfl
@[simp] theorem State.succeed_cursor : (s.succeed).cursor = s.cursor := rfl
@[simp] theorem State.succeed_mask : (s.succeed).mask = s.mask := rfl
@[simp] theorem State.succeed_alignTable : (s.succeed).alignTable = s.alignTable := rfl
@[simp] theorem State.succeed_host : (s.succeed).host = s.host := rfl
@[simp] theorem State.succeed_stream (b : StreamId) : (s.succeed).stream b = s.stream b := rfl

/-! raise -/

@[simp] theorem State.raise_arg0 (e : ErrCode) : (s.raise e).arg0 = s.arg0 := rfl
@[simp] theorem State.raise_arg1 (e : ErrCode) : (s.raise e).arg1 = s.arg1 := rfl
@[simp] theorem State.raise_result (e : ErrCode) : (s.raise e).result = s.result := rfl
@[simp] theorem State.raise_status (e : ErrCode) : (s.raise e).status = s.status.record e := rfl
@[simp] theorem State.raise_streams (e : ErrCode) : (s.raise e).streams = s.streams := rfl
@[simp] theorem State.raise_rs (e : ErrCode) : (s.raise e).rs = s.rs := rfl
@[simp] theorem State.raise_grid (e : ErrCode) : (s.raise e).grid = s.grid := rfl
@[simp] theorem State.raise_cursor (e : ErrCode) : (s.raise e).cursor = s.cursor := rfl
@[simp] theorem State.raise_mask (e : ErrCode) : (s.raise e).mask = s.mask := rfl
@[simp] theorem State.raise_alignTable (e : ErrCode) : (s.raise e).alignTable = s.alignTable := rfl
@[simp] theorem State.raise_host (e : ErrCode) : (s.raise e).host = s.host := rfl
@[simp] theorem State.raise_stream (e : ErrCode) (b : StreamId) : (s.raise e).stream b = s.stream b := rfl

/-! setFchk -/

@[simp] theorem State.setFchk_arg0 (b : Bool) : (s.setFchk b).arg0 = s.arg0 := rfl
@[simp] theorem State.setFchk_arg1 (b : Bool) : (s.setFchk b).arg1 = s.arg1 := rfl
@[simp] theorem State.setFchk_result (b : Bool) : (s.setFchk b).result = s.result := rfl
@[simp] theorem State.setFchk_status (b : Bool) : (s.setFchk b).status = { s.status with fchk := b } := rfl
@[simp] theorem State.setFchk_streams (b : Bool) : (s.setFchk b).streams = s.streams := rfl
@[simp] theorem State.setFchk_rs (b : Bool) : (s.setFchk b).rs = s.rs := rfl
@[simp] theorem State.setFchk_grid (b : Bool) : (s.setFchk b).grid = s.grid := rfl
@[simp] theorem State.setFchk_cursor (b : Bool) : (s.setFchk b).cursor = s.cursor := rfl
@[simp] theorem State.setFchk_mask (b : Bool) : (s.setFchk b).mask = s.mask := rfl
@[simp] theorem State.setFchk_alignTable (b : Bool) : (s.setFchk b).alignTable = s.alignTable := rfl
@[simp] theorem State.setFchk_host (b : Bool) : (s.setFchk b).host = s.host := rfl
@[simp] theorem State.setFchk_stream (v : Bool) (b : StreamId) : (s.setFchk v).stream b = s.stream b := rfl

/-! setFsel -/

@[simp] theorem State.setFsel_arg0 (b : Bool) : (s.setFsel b).arg0 = s.arg0 := rfl
@[simp] theorem State.setFsel_arg1 (b : Bool) : (s.setFsel b).arg1 = s.arg1 := rfl
@[simp] theorem State.setFsel_result (b : Bool) : (s.setFsel b).result = s.result := rfl
@[simp] theorem State.setFsel_status (b : Bool) : (s.setFsel b).status = { s.status with fsel := b } := rfl
@[simp] theorem State.setFsel_streams (b : Bool) : (s.setFsel b).streams = s.streams := rfl
@[simp] theorem State.setFsel_rs (b : Bool) : (s.setFsel b).rs = s.rs := rfl
@[simp] theorem State.setFsel_grid (b : Bool) : (s.setFsel b).grid = s.grid := rfl
@[simp] theorem State.setFsel_cursor (b : Bool) : (s.setFsel b).cursor = s.cursor := rfl
@[simp] theorem State.setFsel_mask (b : Bool) : (s.setFsel b).mask = s.mask := rfl
@[simp] theorem State.setFsel_alignTable (b : Bool) : (s.setFsel b).alignTable = s.alignTable := rfl
@[simp] theorem State.setFsel_host (b : Bool) : (s.setFsel b).host = s.host := rfl
@[simp] theorem State.setFsel_stream (v : Bool) (b : StreamId) : (s.setFsel v).stream b = s.stream b := rfl

/-! setSynz -/

@[simp] theorem State.setSynz_arg0 (b : Bool) : (s.setSynz b).arg0 = s.arg0 := rfl
@[simp] theorem State.setSynz_arg1 (b : Bool) : (s.setSynz b).arg1 = s.arg1 := rfl
@[simp] theorem State.setSynz_result (b : Bool) : (s.setSynz b).result = s.result := rfl
@[simp] theorem State.setSynz_status (b : Bool) : (s.setSynz b).status = { s.status with synz := b } := rfl
@[simp] theorem State.setSynz_streams (b : Bool) : (s.setSynz b).streams = s.streams := rfl
@[simp] theorem State.setSynz_rs (b : Bool) : (s.setSynz b).rs = s.rs := rfl
@[simp] theorem State.setSynz_grid (b : Bool) : (s.setSynz b).grid = s.grid := rfl
@[simp] theorem State.setSynz_cursor (b : Bool) : (s.setSynz b).cursor = s.cursor := rfl
@[simp] theorem State.setSynz_mask (b : Bool) : (s.setSynz b).mask = s.mask := rfl
@[simp] theorem State.setSynz_alignTable (b : Bool) : (s.setSynz b).alignTable = s.alignTable := rfl
@[simp] theorem State.setSynz_host (b : Bool) : (s.setSynz b).host = s.host := rfl
@[simp] theorem State.setSynz_stream (v : Bool) (b : StreamId) : (s.setSynz v).stream b = s.stream b := rfl

/-! takeAccess -/

@[simp] theorem State.takeAccess_arg0 (rest : List Access) : (s.takeAccess rest).arg0 = s.arg0 := rfl
@[simp] theorem State.takeAccess_arg1 (rest : List Access) : (s.takeAccess rest).arg1 = s.arg1 := rfl
@[simp] theorem State.takeAccess_result (rest : List Access) : (s.takeAccess rest).result = s.result := rfl
@[simp] theorem State.takeAccess_status (rest : List Access) : (s.takeAccess rest).status = s.status := rfl
@[simp] theorem State.takeAccess_streams (rest : List Access) : (s.takeAccess rest).streams = s.streams := rfl
@[simp] theorem State.takeAccess_rs (rest : List Access) : (s.takeAccess rest).rs = s.rs := rfl
@[simp] theorem State.takeAccess_grid (rest : List Access) : (s.takeAccess rest).grid = s.grid := rfl
@[simp] theorem State.takeAccess_cursor (rest : List Access) : (s.takeAccess rest).cursor = s.cursor := rfl
@[simp] theorem State.takeAccess_mask (rest : List Access) : (s.takeAccess rest).mask = s.mask := rfl
@[simp] theorem State.takeAccess_alignTable (rest : List Access) : (s.takeAccess rest).alignTable = s.alignTable := rfl
@[simp] theorem State.takeAccess_host (rest : List Access) : (s.takeAccess rest).host = { pending := rest, response := none } := rfl
@[simp] theorem State.takeAccess_stream (rest : List Access) (b : StreamId) : (s.takeAccess rest).stream b = s.stream b := rfl

/-! setPlaced -/

@[simp] theorem State.setPlaced_arg0 (g : BitGrid) (c : Cursor) : (s.setPlaced g c).arg0 = s.arg0 := rfl
@[simp] theorem State.setPlaced_arg1 (g : BitGrid) (c : Cursor) : (s.setPlaced g c).arg1 = s.arg1 := rfl
@[simp] theorem State.setPlaced_result (g : BitGrid) (c : Cursor) : (s.setPlaced g c).result = s.result := rfl
@[simp] theorem State.setPlaced_status (g : BitGrid) (c : Cursor) : (s.setPlaced g c).status = s.status := rfl
@[simp] theorem State.setPlaced_streams (g : BitGrid) (c : Cursor) : (s.setPlaced g c).streams = s.streams := rfl
@[simp] theorem State.setPlaced_rs (g : BitGrid) (c : Cursor) : (s.setPlaced g c).rs = s.rs := rfl
@[simp] theorem State.setPlaced_grid (g : BitGrid) (c : Cursor) : (s.setPlaced g c).grid = { s.grid with mod := g } := rfl
@[simp] theorem State.setPlaced_cursor (g : BitGrid) (c : Cursor) : (s.setPlaced g c).cursor = c := rfl
@[simp] theorem State.setPlaced_mask (g : BitGrid) (c : Cursor) : (s.setPlaced g c).mask = s.mask := rfl
@[simp] theorem State.setPlaced_alignTable (g : BitGrid) (c : Cursor) : (s.setPlaced g c).alignTable = s.alignTable := rfl
@[simp] theorem State.setPlaced_host (g : BitGrid) (c : Cursor) : (s.setPlaced g c).host = s.host := rfl
@[simp] theorem State.setPlaced_stream (g : BitGrid) (c : Cursor) (b : StreamId) : (s.setPlaced g c).stream b = s.stream b := rfl

/-! hardReset -/

@[simp] theorem hardReset_arg0 : (hardReset s).arg0 = State.reset.arg0 := rfl
@[simp] theorem hardReset_arg1 : (hardReset s).arg1 = State.reset.arg1 := rfl
@[simp] theorem hardReset_result : (hardReset s).result = State.reset.result := rfl
@[simp] theorem hardReset_status : (hardReset s).status = State.reset.status := rfl
@[simp] theorem hardReset_streams : (hardReset s).streams = State.reset.streams := rfl
@[simp] theorem hardReset_rs : (hardReset s).rs = State.reset.rs := rfl
@[simp] theorem hardReset_grid : (hardReset s).grid = State.reset.grid := rfl
@[simp] theorem hardReset_cursor : (hardReset s).cursor = State.reset.cursor := rfl
@[simp] theorem hardReset_mask : (hardReset s).mask = State.reset.mask := rfl
@[simp] theorem hardReset_alignTable : (hardReset s).alignTable = s.alignTable := rfl
@[simp] theorem hardReset_host : (hardReset s).host = s.host := rfl

/-! The streams by name -/

@[simp] theorem Streams.get_set_same (ss : Streams) (a : StreamId) (st : Stream) : (ss.set a st).get a = st := by
  cases a <;> rfl

theorem Streams.get_set_ne (ss : Streams) {a b : StreamId} (st : Stream) (h : b ≠ a) : (ss.set a st).get b = ss.get b := by
  cases a <;> cases b <;> first | rfl | exact absurd rfl h

theorem Streams.set_get_same (ss : Streams) (a : StreamId) : ss.set a (ss.get a) = ss := by
  cases a <;> rfl

@[simp] theorem State.setStream_stream_same (a : StreamId) (st : Stream) : (s.setStream a st).stream a = st :=
  Streams.get_set_same _ _ _

theorem State.setStream_stream_ne {a b : StreamId} (st : Stream) (h : b ≠ a) :
    (s.setStream a st).stream b = s.stream b :=
  Streams.get_set_ne _ _ h

/-- Stream `b` after stream `a` is replaced. -/
theorem State.setStream_stream (a b : StreamId) (st : Stream) :
    (s.setStream a st).stream b = if b = a then st else s.stream b := by
  split
  · next h => subst h; simp
  · next h => exact State.setStream_stream_ne s st h

/-! The status record -/

@[simp] theorem Status.record_lastErr (st : Status) (e : ErrCode) : (st.record e).lastErr = e := rfl
@[simp] theorem Status.record_firstErr (st : Status) (e : ErrCode) :
    (st.record e).firstErr = if st.firstErr = .ok then e else st.firstErr := rfl
@[simp] theorem Status.record_fchk (st : Status) (e : ErrCode) : (st.record e).fchk = st.fchk := rfl
@[simp] theorem Status.record_fsel (st : Status) (e : ErrCode) : (st.record e).fsel = st.fsel := rfl
@[simp] theorem Status.record_synz (st : Status) (e : ErrCode) : (st.record e).synz = st.synz := rfl

end Sys2Proof.Machine
end

