-- ==== Sys2Proof/Laws/Decode.lean ====
section
/-! SUPPORT. The fields of a command word built by a format, a word built again from its fields, and the bits of the words that the
registers read as. Provers cite these and take no word apart. -/

namespace Sys2Proof

/-! ## The fields of a built word (R101-R104) -/

theorem wordN_getLsbD (opc : BitVec 8) (i : Nat) : (wordN opc).getLsbD i = (opc ++ 0#24).getLsbD i := rfl
theorem wordR_getLsbD (opc : BitVec 8) (sa sb : BitVec 2) (n : BitVec 6) (i : Nat) :
    (wordR opc sa sb n).getLsbD i = (opc ++ sa ++ sb ++ n ++ 0#14).getLsbD i := rfl
theorem wordI_getLsbD (opc : BitVec 8) (ia ib : Byte) (i : Nat) :
    (wordI opc ia ib).getLsbD i = (opc ++ 0#8 ++ ia ++ ib).getLsbD i := rfl
theorem wordM_getLsbD (opc : BitVec 8) (row col val : Byte) (i : Nat) :
    (wordM opc row col val).getLsbD i = (opc ++ row ++ col ++ val).getLsbD i := rfl

section
variable (opc : BitVec 8) (sa sb : BitVec 2) (n : BitVec 6) (ia ib row col val : Byte)

@[simp] theorem opcField_wordN : opcField (wordN opc) = opc := by
  apply BitVec.eq_of_getLsbD_eq; intro i hi
  rw [opcField, BitVec.getLsbD_extractLsb', wordN_getLsbD]; simp only [BitVec.getLsbD_append]; grind
@[simp] theorem bodyField_wordN : bodyField (wordN opc) = 0 := by
  apply BitVec.eq_of_getLsbD_eq; intro i hi
  rw [bodyField, BitVec.getLsbD_extractLsb', wordN_getLsbD]; simp only [BitVec.getLsbD_append]; grind

@[simp] theorem opcField_wordR : opcField (wordR opc sa sb n) = opc := by
  apply BitVec.eq_of_getLsbD_eq; intro i hi
  rw [opcField, BitVec.getLsbD_extractLsb', wordR_getLsbD]; simp only [BitVec.getLsbD_append]; grind
@[simp] theorem saField_wordR : saField (wordR opc sa sb n) = sa := by
  apply BitVec.eq_of_getLsbD_eq; intro i hi
  rw [saField, BitVec.getLsbD_extractLsb', wordR_getLsbD]; simp only [BitVec.getLsbD_append]; grind
@[simp] theorem sbField_wordR : sbField (wordR opc sa sb n) = sb := by
  apply BitVec.eq_of_getLsbD_eq; intro i hi
  rw [sbField, BitVec.getLsbD_extractLsb', wordR_getLsbD]; simp only [BitVec.getLsbD_append]; grind
@[simp] theorem nField_wordR : nField (wordR opc sa sb n) = n := by
  apply BitVec.eq_of_getLsbD_eq; intro i hi
  rw [nField, BitVec.getLsbD_extractLsb', wordR_getLsbD]; simp only [BitVec.getLsbD_append]; grind
@[simp] theorem lowField_wordR : lowField (wordR opc sa sb n) = 0 := by
  apply BitVec.eq_of_getLsbD_eq; intro i hi
  rw [lowField, BitVec.getLsbD_extractLsb', wordR_getLsbD]; simp only [BitVec.getLsbD_append]; grind

@[simp] theorem opcField_wordI : opcField (wordI opc ia ib) = opc := by
  apply BitVec.eq_of_getLsbD_eq; intro i hi
  rw [opcField, BitVec.getLsbD_extractLsb', wordI_getLsbD]; simp only [BitVec.getLsbD_append]; grind
@[simp] theorem rowField_wordI : rowField (wordI opc ia ib) = 0 := by
  apply BitVec.eq_of_getLsbD_eq; intro i hi
  rw [rowField, BitVec.getLsbD_extractLsb', wordI_getLsbD]; simp only [BitVec.getLsbD_append]; grind
@[simp] theorem colField_wordI : colField (wordI opc ia ib) = ia := by
  apply BitVec.eq_of_getLsbD_eq; intro i hi
  rw [colField, BitVec.getLsbD_extractLsb', wordI_getLsbD]; simp only [BitVec.getLsbD_append]; grind
@[simp] theorem valField_wordI : valField (wordI opc ia ib) = ib := by
  apply BitVec.eq_of_getLsbD_eq; intro i hi
  rw [valField, BitVec.getLsbD_extractLsb', wordI_getLsbD]; simp only [BitVec.getLsbD_append]; grind

@[simp] theorem opcField_wordM : opcField (wordM opc row col val) = opc := by
  apply BitVec.eq_of_getLsbD_eq; intro i hi
  rw [opcField, BitVec.getLsbD_extractLsb', wordM_getLsbD]; simp only [BitVec.getLsbD_append]; grind
@[simp] theorem rowField_wordM : rowField (wordM opc row col val) = row := by
  apply BitVec.eq_of_getLsbD_eq; intro i hi
  rw [rowField, BitVec.getLsbD_extractLsb', wordM_getLsbD]; simp only [BitVec.getLsbD_append]; grind
@[simp] theorem colField_wordM : colField (wordM opc row col val) = col := by
  apply BitVec.eq_of_getLsbD_eq; intro i hi
  rw [colField, BitVec.getLsbD_extractLsb', wordM_getLsbD]; simp only [BitVec.getLsbD_append]; grind
@[simp] theorem valField_wordM : valField (wordM opc row col val) = val := by
  apply BitVec.eq_of_getLsbD_eq; intro i hi
  rw [valField, BitVec.getLsbD_extractLsb', wordM_getLsbD]; simp only [BitVec.getLsbD_append]; grind

end

/-! ## A word is built from its fields -/

theorem wordM_fields (w : Word) : wordM (opcField w) (rowField w) (colField w) (valField w) = w := by
  apply BitVec.eq_of_getLsbD_eq; intro i hi
  rw [wordM_getLsbD]
  simp only [BitVec.getLsbD_append, opcField, rowField, colField, valField, BitVec.getLsbD_extractLsb']; grind

theorem wordI_fields {w : Word} (h : rowField w = 0) : wordI (opcField w) (colField w) (valField w) = w := by
  have e := wordM_fields w
  rw [h] at e
  exact e

theorem wordN_fields {w : Word} (h : bodyField w = 0) : wordN (opcField w) = w := by
  apply BitVec.eq_of_getLsbD_eq; intro i hi
  have hb : ∀ j, (bodyField w).getLsbD j = false := by simp [h]
  have := hb i
  rw [wordN_getLsbD]
  simp only [BitVec.getLsbD_append, opcField, bodyField, BitVec.getLsbD_extractLsb'] at *; grind

theorem wordR_fields {w : Word} (h : lowField w = 0) :
    wordR (opcField w) (saField w) (sbField w) (nField w) = w := by
  apply BitVec.eq_of_getLsbD_eq; intro i hi
  have hb : ∀ j, (lowField w).getLsbD j = false := by simp [h]
  have := hb i
  rw [wordR_getLsbD]
  simp only [BitVec.getLsbD_append, opcField, saField, sbField, nField, lowField, BitVec.getLsbD_extractLsb'] at *; grind

/-! ## Stream numbers (R102) -/

@[simp] theorem StreamId.ofBits_toBits (a : StreamId) : StreamId.ofBits a.toBits = a := by cases a <;> rfl
@[simp] theorem StreamId.toBits_ofBits (b : BitVec 2) : (StreamId.ofBits b).toBits = b := by
  revert b; decide

end Sys2Proof

namespace Sys2Proof.Machine

/-! ## The words the registers read as (R36-R41) -/

theorem statusWord_getLsbD (s : State) (i : Nat) :
    (statusWord s).getLsbD i =
      (0#18 ++ s.cursor.pstate.code ++ BitVec.ofBool s.grid.gvalid ++ BitVec.ofBool s.status.synz
        ++ BitVec.ofBool s.status.fsel ++ BitVec.ofBool s.status.fchk
        ++ s.status.firstErr.code ++ s.status.lastErr.code).getLsbD i := rfl

theorem gridcfgWord_getLsbD (g : Grid) (i : Nat) :
    (gridcfgWord g).getLsbD i = (0#16 ++ BitVec.ofNat 8 g.dim ++ BitVec.ofNat 8 g.ver).getLsbD i := rfl

theorem pcurWord_getLsbD {c : Cursor} (h : c.pstate = .active) (i : Nat) :
    (pcurWord c).getLsbD i =
      (0#14 ++ BitVec.ofBool c.pside ++ BitVec.ofBool c.pup ++ BitVec.ofNat 8 c.py ++ BitVec.ofNat 8 c.col).getLsbD i := by
  rw [pcurWord, if_pos h]

theorem pcurWord_of_ne {c : Cursor} (h : c.pstate ≠ .active) : pcurWord c = 0 := by rw [pcurWord, if_neg h]

end Sys2Proof.Machine
end

