-- ==== Sys2Proof/Laws/Ops.lean ====
section
/-! SUPPORT. What the shared operations do: how a command ends, the two stream primitives, bit sequences, and the bit grids. Provers cite
these and unfold none of them. -/

namespace Sys2Proof.Machine

/-! ## How a command ends -/

@[simp] theorem complete_ok (s t : State) : complete s (.ok t) = .next t.succeed := rfl
@[simp] theorem complete_error (s : State) (e : ErrCode) : complete s (.error e) = .next (s.raise e) := rfl

/-- Everything the end of a command can be: success with the new state, or an error and nothing else (R341, R342). -/
theorem complete_next_iff {s t : State} {r : Except ErrCode State} :
    complete s r = .next t ↔ (∃ u, r = .ok u ∧ t = u.succeed) ∨ (∃ e, r = .error e ∧ t = s.raise e) := by
  cases r <;> simp [complete, eq_comm]

/-- Every command ends in a next state. -/
theorem complete_is_next (s : State) (r : Except ErrCode State) : ∃ t, complete s r = .next t := by
  cases r <;> exact ⟨_, rfl⟩

theorem ifLegal_true (k : Except ErrCode State) : ifLegal true k = k := rfl
theorem ifLegal_false (k : Except ErrCode State) : ifLegal false k = .error .illegal := rfl

@[simp] theorem ifLegal_of {b : Bool} (h : b = true) (k : Except ErrCode State) : ifLegal b k = k := by
  subst h; rfl

theorem ifLegal_ok_iff {b : Bool} {k : Except ErrCode State} {u : State} :
    ifLegal b k = .ok u ↔ b = true ∧ k = .ok u := by
  cases b <;> simp [ifLegal]

theorem ifGrid_ok_iff {s u : State} {k : Except ErrCode State} :
    ifGrid s k = .ok u ↔ s.grid.gvalid = true ∧ k = .ok u := by
  unfold ifGrid; split <;> simp_all

theorem ifModule_ok_iff {s u : State} {row col : Byte} {k : Except ErrCode State} :
    ifModule s row col k = .ok u ↔
      s.grid.gvalid = true ∧ (row.toNat < s.grid.dim ∧ col.toNat < s.grid.dim) ∧ k = .ok u := by
  unfold ifModule; rw [ifGrid_ok_iff]; split <;> simp_all

theorem ifPlacing_ok_iff {s u : State} {k : Except ErrCode State} :
    ifPlacing s k = .ok u ↔ s.grid.gvalid = true ∧ s.cursor.pstate ≠ .idle ∧ k = .ok u := by
  unfold ifPlacing; rw [ifGrid_ok_iff]; split <;> simp_all

/-! ## Rounding -/

theorem ceil8_mod (x : Nat) : ceil8 x % 8 = 0 := by unfold ceil8; omega
theorem le_ceil8 (x : Nat) : x ≤ ceil8 x := by unfold ceil8; omega
theorem ceil8_lt (x : Nat) : ceil8 x < x + 8 := by unfold ceil8; omega
theorem ceil8_of_mod {x : Nat} (h : x % 8 = 0) : ceil8 x = x := by unfold ceil8; omega

/-- `ceil8(x)` is the least multiple of 8 that is ≥ x (R10). -/
theorem ceil8_le {x m : Nat} (h : x ≤ m) (hm : m % 8 = 0) : ceil8 x ≤ m := by unfold ceil8; omega

/-! ## Bit sequences -/

@[simp] theorem wordBits_length (n : Nat) (v : Word) : (wordBits n v).length = n := by simp [wordBits]
@[simp] theorem byteBits_length (b : Byte) : (byteBits b).length = 8 := by simp [byteBits]

theorem wordBits_getElem (n : Nat) (v : Word) (i : Nat) (h : i < (wordBits n v).length) :
    (wordBits n v)[i] = v.getLsbD (n - 1 - i) := by simp [wordBits]

theorem wordBits_getD {n i : Nat} (v : Word) (h : i < n) : (wordBits n v).getD i false = v.getLsbD (n - 1 - i) := by
  simp [wordBits, List.getD, h]

@[simp] theorem bitsToNat_nil : bitsToNat [] = 0 := rfl

theorem bitsToNat_foldl (bs : List Bool) (v : Nat) :
    bs.foldl (fun v b => 2 * v + b.toNat) v = v * 2 ^ bs.length + bitsToNat bs := by
  unfold bitsToNat
  induction bs generalizing v with
  | nil => simp
  | cons b bs ih =>
    simp only [List.foldl_cons, List.length_cons]
    rw [ih (2 * v + b.toNat), ih (2 * 0 + b.toNat)]
    ring

theorem bitsToNat_cons (b : Bool) (bs : List Bool) : bitsToNat (b :: bs) = b.toNat * 2 ^ bs.length + bitsToNat bs := by
  have := bitsToNat_foldl bs (2 * 0 + b.toNat)
  simpa [bitsToNat] using this

theorem bitsToNat_append (xs ys : List Bool) : bitsToNat (xs ++ ys) = bitsToNat xs * 2 ^ ys.length + bitsToNat ys := by
  induction xs with
  | nil => simp
  | cons b xs ih => simp only [List.cons_append, bitsToNat_cons, ih, List.length_append]; ring

theorem bitsToNat_lt (bs : List Bool) : bitsToNat bs < 2 ^ bs.length := by
  induction bs with
  | nil => simp
  | cons b bs ih =>
    rw [bitsToNat_cons, List.length_cons, pow_succ]
    have : b.toNat ≤ 1 := Bool.toNat_le b
    nlinarith [Nat.two_pow_pos bs.length]

/-- Bit `j` of the value of a sequence is the sequence's bit `length - 1 - j`: the first bit is the most significant (R9). -/
theorem bitsToNat_testBit (bs : List Bool) (j : Nat) :
    (bitsToNat bs).testBit j = (decide (j < bs.length) && bs.getD (bs.length - 1 - j) false) := by
  induction bs with
  | nil => simp
  | cons b bs ih =>
    rw [bitsToNat_cons, Nat.mul_comm, Nat.testBit_two_pow_mul_add _ (bitsToNat_lt bs), ih]
    rcases Nat.lt_trichotomy j bs.length with h | h | h
    · have e : bs.length - j = (bs.length - 1 - j) + 1 := by omega
      simp [h, Nat.lt_succ_of_lt h, e]
    · subst h; cases b <;> simp
    · have h1 : ¬ j < bs.length := by omega
      have h2 : ¬ j < bs.length + 1 := by omega
      have h3 : j - bs.length = (j - bs.length - 1) + 1 := by omega
      rw [h3]
      cases b <;> simp [h1, h2, Nat.testBit_succ]

/-- Reading back the low `n` bits of a word gives the word reduced to `n` bits (R163). -/
theorem bitsToWord_wordBits {n : Nat} (v : Word) : bitsToWord (wordBits n v) = v &&& BitVec.ofNat 32 (2 ^ n - 1) := by
  apply BitVec.eq_of_getLsbD_eq
  intro j hj
  simp only [bitsToWord, BitVec.getLsbD_ofNat, bitsToNat_testBit, wordBits_length, BitVec.getLsbD_and, Nat.testBit_two_pow_sub_one]
  by_cases h : j < n
  · rw [wordBits_getD v (by omega)]
    have e : n - 1 - (n - 1 - j) = j := by omega
    simp [h, hj, e]
  · simp [h]

theorem takeBytes_length (m : Nat) (bs : List Bool) : (takeBytes m bs).length = m := by
  induction m generalizing bs with
  | zero => rfl
  | succ m ih => simp [takeBytes, ih]

/-- The bits of a list of bytes are 8 for each. -/
theorem flatMap_byteBits_length (ds : List Byte) : (ds.flatMap byteBits).length = 8 * ds.length := by
  induction ds with
  | nil => rfl
  | cons d ds ih => simp [ih]; omega

theorem bitsToNat_byteBits (b : Byte) : bitsToNat (byteBits b) = b.toNat := by
  have h : byteBits b = wordBits 8 (b.setWidth 32) := by
    simp only [byteBits, wordBits]
    apply List.map_congr_left
    intro i hi
    have : i < 8 := List.mem_range.mp hi
    rw [BitVec.getLsbD_setWidth]
    have h2 : 8 - 1 - i = 7 - i := by omega
    simp; omega
  apply Nat.eq_of_testBit_eq
  intro j
  rw [bitsToNat_testBit, h]
  by_cases hj : j < 8
  · rw [wordBits_length, wordBits_getD _ (by omega)]
    have e : 8 - 1 - (8 - 1 - j) = j := by omega
    rw [e, BitVec.getLsbD_setWidth, BitVec.testBit_toNat]
    have : j < 32 := by omega
    simp [hj, this]
  · simp [hj]
    have : b.getLsbD j = false := BitVec.getLsbD_of_ge _ _ (by omega)
    simpa [BitVec.getLsbD] using this.symm

/-- Bytes written and read back MSB-first are the same bytes (R83). -/
theorem takeBytes_flatMap (ds : List Byte) (rest : List Bool) :
    takeBytes ds.length (ds.flatMap byteBits ++ rest) = ds := by
  induction ds with
  | nil => rfl
  | cons d ds ih =>
    have h : (d :: ds).flatMap byteBits ++ rest = byteBits d ++ (ds.flatMap byteBits ++ rest) := by simp
    rw [h, List.length_cons, takeBytes, List.take_left' (byteBits_length d), List.drop_left' (byteBits_length d), ih,
      bitsToNat_byteBits]
    simp

/-! ## Tables of bytes -/

@[simp] theorem byteAt_byteTable (n : Nat) (f : Nat → Byte) (j : Nat) :
    byteAt (byteTable n f) j = if j < n then f j else 0 := by
  unfold byteAt byteTable
  by_cases h : j < n <;> simp [h]

/-- Two tables with the same entries are equal. -/
theorem byteTable_ext {n : Nat} {u v : Vector Byte n} (h : ∀ j, j < n → byteAt u j = byteAt v j) : u = v := by
  apply Vector.ext
  intro i hi
  simpa [byteAt, hi] using h i hi

theorem byteAt_of_ge {n : Nat} (v : Vector Byte n) {j : Nat} (h : n ≤ j) : byteAt v j = 0 := by
  simp [byteAt, Nat.not_lt.mpr h]

/-! ## The streams -/

@[simp] theorem Stream.empty_wf : Stream.empty.Wf := by decide
@[simp] theorem Stream.advance_count (st : Stream) (n : Nat) : (st.advance n).count = st.count := rfl
@[simp] theorem Stream.advance_pos (st : Stream) (n : Nat) : (st.advance n).pos = st.pos + n := rfl
@[simp] theorem Stream.advance_cap (st : Stream) (n : Nat) : (st.advance n).cap = st.cap := rfl
@[simp] theorem Stream.advance_bits (st : Stream) (n : Nat) : (st.advance n).bits = st.bits := rfl
@[simp] theorem Stream.put_pos (st : Stream) (bs : List Bool) : (st.put bs).pos = st.pos + bs.length := rfl
@[simp] theorem Stream.put_bits (st : Stream) (bs : List Bool) : (st.put bs).bits = st.bits.take st.pos ++ bs := rfl
@[simp] theorem Stream.put_cap (st : Stream) (bs : List Bool) :
    (st.put bs).cap = if st.cap < st.pos + bs.length then ceil8 (st.pos + bs.length) else st.cap := rfl

/-- A write defines the new end of the stream: count = pos after it (R150). -/
theorem Stream.put_count {st : Stream} (h : st.pos ≤ st.count) (bs : List Bool) :
    (st.put bs).count = st.pos + bs.length := by
  simp [Stream.count] at *; omega

/-- The bits before the cursor survive a write (R150). -/
theorem Stream.put_bitAt_lt {st : Stream} (h : st.pos ≤ st.count) (bs : List Bool) {i : Nat} (hi : i < st.pos) :
    (st.put bs).bitAt i = st.bitAt i := by
  have h' : st.pos ≤ st.bits.length := h
  have h1 : i < (st.bits.take st.pos).length := by simp; omega
  simp only [Stream.bitAt, Stream.put_bits, List.getD]
  rw [List.getElem?_append_left h1, List.getElem?_take_of_lt hi]

/-- The written bits stand from the old cursor on (R150). -/
theorem Stream.put_bitAt_ge {st : Stream} (h : st.pos ≤ st.count) (bs : List Bool) (i : Nat) :
    (st.put bs).bitAt (st.pos + i) = bs.getD i false := by
  have h' : st.pos ≤ st.bits.length := h
  have h1 : (st.bits.take st.pos).length = st.pos := by simp; omega
  simp only [Stream.bitAt, Stream.put_bits, List.getD]
  rw [List.getElem?_append_right (by omega), h1, Nat.add_sub_cancel_left]

/-- The next bits are as many as asked for, when that many remain (R151). -/
theorem Stream.next_length {st : Stream} {n : Nat} (h : n ≤ st.remaining) : (st.next n).length = n := by
  simp [Stream.next, Stream.remaining, Stream.count] at *; omega

theorem Stream.next_getD {st : Stream} {n i : Nat} (h : i < n) : (st.next n).getD i false = st.bitAt (st.pos + i) := by
  simp [Stream.next, Stream.bitAt, List.getD, List.getElem?_take_of_lt h, List.getElem?_drop]

theorem Stream.overflows_eq_false {st : Stream} {n : Nat} :
    st.overflows n = false ↔ ceil8 (st.pos + n) ≤ Config.streamMaxBits := by
  rw [Stream.overflows, decide_eq_false_iff_not, Nat.not_lt]

theorem Stream.overflows_eq_true {st : Stream} {n : Nat} :
    st.overflows n = true ↔ Config.streamMaxBits < ceil8 (st.pos + n) := by
  rw [Stream.overflows, decide_eq_true_iff]

/-- `StreamWrite` says once what it does: ALLOC, or the written stream (R150). -/
theorem streamWrite_ok_iff {st st' : Stream} {bs : List Bool} :
    streamWrite st bs = .ok st' ↔ st.overflows bs.length = false ∧ st' = st.put bs := by
  unfold streamWrite
  cases st.overflows bs.length <;> simp [eq_comm (a := st')]

theorem streamWrite_error_iff {st : Stream} {bs : List Bool} {e : ErrCode} :
    streamWrite st bs = .error e ↔ st.overflows bs.length = true ∧ e = .alloc := by
  unfold streamWrite
  cases st.overflows bs.length <;> simp [eq_comm (a := e)]

/-- `StreamRead` says once what it does: RANGE, or the next bits and the cursor advanced (R151). -/
theorem streamRead_ok_iff {st : Stream} {n : Nat} {p : List Bool × Stream} :
    streamRead st n = .ok p ↔ n ≤ st.remaining ∧ p = (st.next n, st.advance n) := by
  unfold streamRead; split <;> simp_all [eq_comm]

theorem streamRead_error_iff {st : Stream} {n : Nat} {e : ErrCode} :
    streamRead st n = .error e ↔ st.remaining < n ∧ e = .range := by
  unfold streamRead; split <;> simp_all [eq_comm]

/-- A write that does not overflow keeps the canonical form (R45). -/
theorem Stream.put_wf {st : Stream} (h : st.Wf) {bs : List Bool} (ho : st.overflows bs.length = false) : (st.put bs).Wf := by
  obtain ⟨h1, h2, h3, h4⟩ := h
  have hc := Stream.put_count h1 bs
  rw [Stream.overflows_eq_false] at ho
  have := ceil8_mod (st.pos + bs.length)
  have := le_ceil8 (st.pos + bs.length)
  refine ⟨?_, ?_, ?_, ?_⟩ <;> (try rw [hc]) <;> simp only [Stream.put_pos, Stream.put_cap] <;> (try split) <;> omega

/-- Advancing over bits that remain keeps the canonical form (R45). -/
theorem Stream.advance_wf {st : Stream} (h : st.Wf) {n : Nat} (hn : n ≤ st.remaining) : (st.advance n).Wf := by
  obtain ⟨h1, h2, h3, h4⟩ := h
  simp only [Stream.remaining] at hn
  exact ⟨by simp only [Stream.advance_pos, Stream.advance_count]; omega, h2, h3, h4⟩

/-- Two writes in a row are one write of both: RSEMIT's bytes and PLOAD's bits are successive StreamWrites (R203, R281). -/
theorem Stream.put_put (st : Stream) (xs ys : List Bool) :
    (st.put xs).put ys = st.put (xs ++ ys) := by
  have hb : ((st.put xs).put ys).bits = (st.put (xs ++ ys)).bits := by
    simp only [Stream.put_bits, Stream.put_pos]
    rw [List.take_of_length_le (by simp)]; simp
  have hp : ((st.put xs).put ys).pos = (st.put (xs ++ ys)).pos := by simp; omega
  have hcap : ((st.put xs).put ys).cap = (st.put (xs ++ ys)).cap := by
    simp only [Stream.put_cap, Stream.put_pos, List.length_append, ceil8]
    split <;> split <;> split <;> omega
  cases h1 : (st.put xs).put ys
  cases h2 : st.put (xs ++ ys)
  simp_all

/-! ## The bit grids -/

theorem BitGrid.get_build (d : Nat) (f : Nat → Nat → Bool) (r c : Nat) :
    BitGrid.get (BitGrid.build d f) r c = (decide (r < d ∧ c < d) && f r c) := by
  unfold BitGrid.get BitGrid.build
  by_cases hr : r < d <;> by_cases hc : c < d <;> simp [List.getD, hr, hc]

theorem BitGrid.square_build (d : Nat) (f : Nat → Nat → Bool) : BitGrid.Square d (BitGrid.build d f) := by
  simp [BitGrid.Square, BitGrid.build]

theorem BitGrid.square_set {d : Nat} {g : BitGrid} (h : BitGrid.Square d g) (r c : Nat) (b : Bool) :
    BitGrid.Square d (BitGrid.set g r c b) := by
  obtain ⟨h1, h2⟩ := h
  refine ⟨by simp [BitGrid.set, h1], ?_⟩
  intro row hrow
  simp only [BitGrid.set] at hrow
  obtain ⟨i, hi, rfl⟩ := List.mem_iff_getElem.mp hrow
  rw [List.getElem_modify]
  have hi' : i < g.length := by simpa using hi
  have := h2 g[i] (List.getElem_mem hi')
  split <;> simp [this]

theorem BitGrid.get_set_ne (g : BitGrid) {r c r' c' : Nat} (b : Bool) (h : ¬(r' = r ∧ c' = c)) :
    BitGrid.get (BitGrid.set g r c b) r' c' = BitGrid.get g r' c' := by
  unfold BitGrid.get BitGrid.set
  simp only [List.getD, List.getElem?_modify]
  by_cases hr : r = r'
  · subst hr
    have hc : c ≠ c' := fun e => h ⟨rfl, e.symm⟩
    cases g[r]? with
    | none => simp
    | some row => simp [hc]
  · simp [hr]

theorem BitGrid.get_set_same {d : Nat} {g : BitGrid} (h : BitGrid.Square d g) {r c : Nat} (hr : r < d) (hc : c < d) (b : Bool) :
    BitGrid.get (BitGrid.set g r c b) r c = b := by
  obtain ⟨h1, h2⟩ := h
  have hr' : r < g.length := by omega
  have hl := h2 g[r] (List.getElem_mem hr')
  unfold BitGrid.get BitGrid.set
  simp [List.getD, hr', hl, hc]

/-- One bit of a grid after another was set. -/
theorem BitGrid.get_set {d : Nat} {g : BitGrid} (h : BitGrid.Square d g) {r c : Nat} (hr : r < d) (hc : c < d) (b : Bool)
    (r' c' : Nat) :
    BitGrid.get (BitGrid.set g r c b) r' c' = if r' = r ∧ c' = c then b else BitGrid.get g r' c' := by
  split
  · next e => obtain ⟨rfl, rfl⟩ := e; exact BitGrid.get_set_same h hr hc b
  · next e => exact BitGrid.get_set_ne g b e

/-- Two square grids with the same bits are equal: the canonical form of a bit grid. -/
theorem BitGrid.ext_of_square {d : Nat} {g g' : BitGrid} (h : BitGrid.Square d g) (h' : BitGrid.Square d g')
    (he : ∀ r c, r < d → c < d → BitGrid.get g r c = BitGrid.get g' r c) : g = g' := by
  obtain ⟨l1, r1⟩ := h
  obtain ⟨l2, r2⟩ := h'
  apply List.ext_getElem (by omega)
  intro i h1 h2
  have e1 := r1 g[i] (List.getElem_mem h1)
  have e2 := r2 g'[i] (List.getElem_mem h2)
  apply List.ext_getElem (by omega)
  intro j k1 k2
  have := he i j (by omega) (by omega)
  simpa [BitGrid.get, List.getD, h1, h2, k1, k2] using this

end Sys2Proof.Machine
end

