-- ==== Sys2Proof/Laws/Exec.lean ====
section
/-! SUPPORT. What each command can do, said once, in the order of its checks: each error with the condition it is raised under, then the
next state when the command succeeds. Provers cite these lemmas and unfold no meaning. -/

namespace Sys2Proof.Machine

/-! ## The checks, one at a time -/

section
variable {s t u : State} {k : Except ErrCode State} {e : ErrCode}

theorem complete_ok_iff : complete s (.ok u) = .next t ↔ t = u.succeed := by simp [eq_comm]

theorem complete_error_iff : complete s (.error e) = .next t ↔ t = s.raise e := by simp [eq_comm]

theorem complete_if_iff {c : Prop} [Decidable c] {j : Except ErrCode State} :
    complete s (if c then j else k) = .next t ↔ (c ∧ complete s j = .next t) ∨ (¬c ∧ complete s k = .next t) := by
  split <;> simp_all

theorem complete_ifLegal_iff {b : Bool} :
    complete s (ifLegal b k) = .next t ↔ (b = false ∧ t = s.raise .illegal) ∨ (b = true ∧ complete s k = .next t) := by
  cases b <;> simp [ifLegal, eq_comm]

theorem complete_ifGrid_iff :
    complete s (ifGrid s k) = .next t ↔
      (s.grid.gvalid = false ∧ t = s.raise .range) ∨ (s.grid.gvalid = true ∧ complete s k = .next t) := by
  unfold ifGrid; cases s.grid.gvalid <;> simp [eq_comm]

theorem complete_ifModule_iff {row col : Byte} :
    complete s (ifModule s row col k) = .next t ↔
      (s.grid.gvalid = false ∧ t = s.raise .range)
      ∨ (s.grid.gvalid = true ∧ (s.grid.dim ≤ row.toNat ∨ s.grid.dim ≤ col.toNat) ∧ t = s.raise .range)
      ∨ (s.grid.gvalid = true ∧ row.toNat < s.grid.dim ∧ col.toNat < s.grid.dim ∧ complete s k = .next t) := by
  unfold ifModule; rw [complete_ifGrid_iff, complete_if_iff, complete_error_iff]
  have h : ¬(row.toNat < s.grid.dim ∧ col.toNat < s.grid.dim) ↔ s.grid.dim ≤ row.toNat ∨ s.grid.dim ≤ col.toNat := by omega
  rw [h]; tauto

theorem complete_ifPlacing_iff :
    complete s (ifPlacing s k) = .next t ↔
      (s.grid.gvalid = false ∧ t = s.raise .range)
      ∨ (s.grid.gvalid = true ∧ s.cursor.pstate = .idle ∧ t = s.raise .range)
      ∨ (s.grid.gvalid = true ∧ s.cursor.pstate ≠ .idle ∧ complete s k = .next t) := by
  unfold ifPlacing; rw [complete_ifGrid_iff, complete_if_iff, complete_error_iff]; tauto

end

variable {s t : State}

/-! ## 40_control.md -/

theorem execNop_iff : execNop s = .next t ↔ t = s.succeed := complete_ok_iff

theorem execClrerr_iff :
    execClrerr s = .next t ↔ t = (s.setStatus { s.status with firstErr := .ok, lastErr := .ok }).succeed := complete_ok_iff

theorem execReset_iff : execReset s = .next t ↔ t = (hardReset s).succeed := complete_ok_iff

/-! ## 41_bitstream.md -/

theorem execScreate_iff {a : StreamId} : execScreate a s = .next t ↔ t = (s.setStream a .empty).succeed :=
  complete_ok_iff

theorem execSresize_iff {a : StreamId} :
    execSresize a s = .next t ↔
      (s.arg0Nat < (s.stream a).count ∧ t = s.raise .range)
      ∨ ((s.stream a).count ≤ s.arg0Nat ∧
        ((Config.streamMaxBits < ceil8 s.arg0Nat ∧ t = s.raise .alloc)
        ∨ (ceil8 s.arg0Nat ≤ Config.streamMaxBits
          ∧ t = (s.setStream a { s.stream a with cap := ceil8 s.arg0Nat }).succeed))) := by
  simp only [execSresize, complete_if_iff, complete_ok_iff, complete_error_iff, Nat.not_lt]

theorem execSdup_iff {a b : StreamId} : execSdup a b s = .next t ↔ t = (s.setStream a (s.stream b)).succeed :=
  complete_ok_iff

theorem execSseek_iff {a : StreamId} :
    execSseek a s = .next t ↔
      ((s.stream a).count < s.arg0Nat ∧ t = s.raise .range)
      ∨ (s.arg0Nat ≤ (s.stream a).count ∧ t = (s.setStream a { s.stream a with pos := s.arg0Nat }).succeed) := by
  simp only [execSseek, complete_if_iff, complete_ok_iff, complete_error_iff, Nat.not_lt]

theorem execStell_iff {a : StreamId} :
    execStell a s = .next t ↔ t = (s.setResult (resultNat (s.stream a).pos)).succeed := complete_ok_iff

theorem execSremain_iff {a : StreamId} :
    execSremain a s = .next t ↔ t = (s.setResult (resultNat (s.stream a).remaining)).succeed := complete_ok_iff

theorem execSread_iff {a : StreamId} {n : BitVec 6} :
    execSread a n s = .next t ↔
      (32 < n.toNat ∧ t = s.raise .illegal)
      ∨ (n.toNat ≤ 32 ∧
        (((s.stream a).remaining < n.toNat ∧ t = s.raise .range)
        ∨ (n.toNat ≤ (s.stream a).remaining
          ∧ t = ((s.setStream a ((s.stream a).advance n.toNat)).setResult
              (bitsToWord ((s.stream a).next n.toNat))).succeed))) := by
  unfold execSread
  rw [complete_ifLegal_iff, decide_eq_false_iff_not, decide_eq_true_iff, Nat.not_le]
  by_cases h : (s.stream a).remaining < n.toNat
  · simp [streamRead, h, Nat.not_le.mpr h, eq_comm]
  · simp [streamRead, h, Nat.not_lt.mp h, eq_comm]

theorem execSwrite_iff {a : StreamId} {n : BitVec 6} :
    execSwrite a n s = .next t ↔
      (32 < n.toNat ∧ t = s.raise .illegal)
      ∨ (n.toNat ≤ 32 ∧
        (((s.stream a).overflows n.toNat = true ∧ t = s.raise .alloc)
        ∨ ((s.stream a).overflows n.toNat = false
          ∧ t = (s.setStream a ((s.stream a).put (s.arg0Bits n.toNat))).succeed))) := by
  unfold execSwrite
  rw [complete_ifLegal_iff, decide_eq_false_iff_not, decide_eq_true_iff, Nat.not_le, State.arg0Bits]
  cases h : (s.stream a).overflows n.toNat <;> simp [streamWrite, h, eq_comm]

theorem execScopy_iff {a b : StreamId} :
    execScopy a b s = .next t ↔
      (a = b ∧ t = s.raise .illegal)
      ∨ (a ≠ b ∧
        (((s.stream b).remaining < s.arg0Nat ∧ t = s.raise .range)
        ∨ (s.arg0Nat ≤ (s.stream b).remaining ∧
          ((s.arg0Nat = 0 ∧ t = s.succeed)
          ∨ (s.arg0Nat ≠ 0 ∧
            (((s.stream a).overflows s.arg0Nat = true ∧ t = s.raise .alloc)
            ∨ ((s.stream a).overflows s.arg0Nat = false
              ∧ t = ((s.setStream b ((s.stream b).advance s.arg0Nat)).setStream a
                  ((s.stream a).put ((s.stream b).next s.arg0Nat))).succeed))))))) := by
  unfold execScopy
  rw [complete_ifLegal_iff, decide_eq_false_iff_not, decide_eq_true_iff, not_not, complete_if_iff, Nat.not_lt, complete_if_iff,
    complete_ok_iff, complete_error_iff]
  by_cases h : s.arg0Nat ≤ (s.stream b).remaining
  · cases h' : (s.stream a).overflows s.arg0Nat <;> simp [streamWrite, Stream.next_length h, h', eq_comm]
  · simp [h]

theorem execSconcat_iff {a b : StreamId} :
    execSconcat a b s = .next t ↔
      (a = b ∧ t = s.raise .illegal)
      ∨ (a ≠ b ∧
        (((s.stream b).count = 0 ∧ t = s.succeed)
        ∨ ((s.stream b).count ≠ 0 ∧
          (((s.stream a).overflows (s.stream b).count = true ∧ t = s.raise .alloc)
          ∨ ((s.stream a).overflows (s.stream b).count = false
            ∧ t = (s.setStream a ((s.stream a).put (s.stream b).bits)).succeed))))) := by
  unfold execSconcat
  rw [complete_ifLegal_iff, decide_eq_false_iff_not, decide_eq_true_iff, not_not, complete_if_iff, complete_ok_iff]
  have hl : (s.stream b).bits.length = (s.stream b).count := rfl
  cases h' : (s.stream a).overflows (s.stream b).count <;> simp [streamWrite, hl, h', eq_comm]

/-! ## 42_gf_rs.md -/

theorem execGfmul_iff {ia ib : Byte} :
    execGfmul ia ib s = .next t ↔ t = (s.setResult (resultByte (gfmul ia ib))).succeed := complete_ok_iff

theorem execPolymod_iff :
    execPolymod s = .next t ↔
      (s.arg1 = 0 ∧ t = s.raise .range) ∨ (s.arg1 ≠ 0 ∧ t = (s.setResult (polymod s.arg0 s.arg1)).succeed) := by
  simp only [execPolymod, complete_if_iff, complete_ok_iff, complete_error_iff, ne_eq]

theorem execRsgen_iff {n : BitVec 6} :
    execRsgen n s = .next t ↔
      (Config.rsMaxK < n.toNat ∧ t = s.raise .range)
      ∨ (n.toNat ≤ Config.rsMaxK
        ∧ t = (s.setRs (lfsrClear { s.rs with k := n.toNat, g := generator n.toNat })).succeed) := by
  simp only [execRsgen, complete_if_iff, complete_ok_iff, complete_error_iff, Nat.not_lt]

theorem execRsclr_iff : execRsclr s = .next t ↔ t = (s.setRs (lfsrClear s.rs)).succeed := complete_ok_iff

theorem execRsfeedi_iff {ib : Byte} : execRsfeedi ib s = .next t ↔ t = (s.setRs (lfsrClock s.rs ib)).succeed :=
  complete_ok_iff

theorem execRsfeed_iff {a : StreamId} :
    execRsfeed a s = .next t ↔
      ((s.stream a).remaining < 8 * s.arg0Nat ∧ t = s.raise .range)
      ∨ (8 * s.arg0Nat ≤ (s.stream a).remaining
        ∧ t = ((s.setStream a ((s.stream a).advance (8 * s.arg0Nat))).setRs
            (lfsrFeed s.rs (takeBytes s.arg0Nat ((s.stream a).next (8 * s.arg0Nat))))).succeed) := by
  unfold execRsfeed
  by_cases h : (s.stream a).remaining < 8 * s.arg0Nat
  · simp [streamRead, h, Nat.not_le.mpr h, eq_comm]
  · simp [streamRead, h, Nat.not_lt.mp h, eq_comm]

theorem execRsemit_iff {a : StreamId} :
    execRsemit a s = .next t ↔
      ((s.stream a).overflows (8 * s.rs.k) = true ∧ t = s.raise .alloc)
      ∨ ((s.stream a).overflows (8 * s.rs.k) = false ∧
        ((s.rs.k = 0 ∧ t = s.succeed)
        ∨ (s.rs.k ≠ 0 ∧ t = (s.setStream a ((s.stream a).put ((ecBytes s.rs).flatMap byteBits))).succeed))) := by
  unfold execRsemit
  rw [complete_if_iff, complete_if_iff, complete_ok_iff, complete_ok_iff, complete_error_iff, Bool.not_eq_true]

theorem execRssyn_iff {a : StreamId} :
    execRssyn a s = .next t ↔
      ((s.stream a).remaining < 8 * s.arg0Nat ∧ t = s.raise .range)
      ∨ (8 * s.arg0Nat ≤ (s.stream a).remaining
        ∧ t = (((s.setStream a ((s.stream a).advance (8 * s.arg0Nat))).setRs
            { s.rs with syn := syndromes s.rs.k (takeBytes s.arg0Nat ((s.stream a).next (8 * s.arg0Nat))) }).setSynz
            (allZeroBelow s.rs.k
              (syndromes s.rs.k (takeBytes s.arg0Nat ((s.stream a).next (8 * s.arg0Nat)))))).succeed) := by
  unfold execRssyn
  by_cases h : (s.stream a).remaining < 8 * s.arg0Nat
  · simp [streamRead, h, Nat.not_le.mpr h, eq_comm]
  · simp [streamRead, h, Nat.not_lt.mp h, eq_comm]

theorem execRsrdg_iff {n : BitVec 6} :
    execRsrdg n s = .next t ↔
      (Config.rsMaxK < n.toNat ∧ t = s.raise .range)
      ∨ (n.toNat ≤ Config.rsMaxK ∧ t = (s.setResult (resultByte (byteAt s.rs.g n.toNat))).succeed) := by
  simp only [execRsrdg, complete_if_iff, complete_ok_iff, complete_error_iff, Nat.not_lt]

theorem execRsrdr_iff {n : BitVec 6} :
    execRsrdr n s = .next t ↔
      (Config.rsMaxK ≤ n.toNat ∧ t = s.raise .range)
      ∨ (n.toNat < Config.rsMaxK ∧ t = (s.setResult (resultByte (byteAt s.rs.r n.toNat))).succeed) := by
  simp only [execRsrdr, complete_if_iff, complete_ok_iff, complete_error_iff, Nat.not_le]

theorem execRsrds_iff {n : BitVec 6} :
    execRsrds n s = .next t ↔
      (Config.rsMaxK ≤ n.toNat ∧ t = s.raise .range)
      ∨ (n.toNat < Config.rsMaxK ∧ t = (s.setResult (resultByte (byteAt s.rs.syn n.toNat))).succeed) := by
  simp only [execRsrds, complete_if_iff, complete_ok_iff, complete_error_iff, Nat.not_le]

/-! ## 43_bch.md -/

theorem execFmtenc_iff {ib : Byte} :
    execFmtenc ib s = .next t ↔
      (32 ≤ ib.toNat ∧ t = s.raise .illegal)
      ∨ (ib.toNat < 32 ∧ t = (s.setResult (fmtword (ib.setWidth 5))).succeed) := by
  unfold execFmtenc
  rw [complete_ifLegal_iff, complete_ok_iff, decide_eq_false_iff_not, decide_eq_true_iff, Nat.not_lt]

theorem execFmtdec_iff :
    execFmtdec s = .next t ↔
      (isFmtWord s.arg0 = false ∧ t = s.raise .range)
      ∨ (isFmtWord s.arg0 = true
        ∧ t = ((s.setResult ((fmtPayload (fmtUnmask s.arg0)).setWidth 32)).setFchk
            (fmtClean (fmtUnmask s.arg0))).succeed) := by
  unfold execFmtdec
  rw [complete_if_iff, complete_ok_iff, complete_error_iff, Bool.not_eq_true, or_comm]

theorem execFmtdec2_iff :
    execFmtdec2 s = .next t ↔
      ((isFmtWord s.arg0 && isFmtWord s.arg1) = false ∧ t = s.raise .range)
      ∨ ((isFmtWord s.arg0 && isFmtWord s.arg1) = true ∧
        ((fmtClean (fmtUnmask s.arg0) = true
          ∧ t = (((s.setResult ((fmtPayload (fmtUnmask s.arg0)).setWidth 32)).setFsel false).setFchk true).succeed)
        ∨ (fmtClean (fmtUnmask s.arg0) = false ∧
          ((fmtClean (fmtUnmask s.arg1) = true
            ∧ t = (((s.setResult ((fmtPayload (fmtUnmask s.arg1)).setWidth 32)).setFsel true).setFchk true).succeed)
          ∨ (fmtClean (fmtUnmask s.arg1) = false ∧ t = s.raise .malformed))))) := by
  unfold execFmtdec2
  rw [complete_if_iff, complete_if_iff, complete_if_iff, complete_ok_iff, complete_ok_iff, complete_error_iff,
    complete_error_iff, Bool.not_eq_true, Bool.not_eq_true, Bool.not_eq_true, or_comm]

theorem execVerenc_iff {ib : Byte} :
    execVerenc ib s = .next t ↔
      ((ib.toNat < 7 ∨ Config.verMax < ib.toNat) ∧ t = s.raise .range)
      ∨ ((7 ≤ ib.toNat ∧ ib.toNat ≤ Config.verMax) ∧ t = (s.setResult (verword ib.toNat)).succeed) := by
  unfold execVerenc
  rw [complete_if_iff, complete_ok_iff, complete_error_iff, not_or, Nat.not_lt, Nat.not_lt]

theorem execVerdec_iff :
    execVerdec s = .next t ↔
      (isVerWord s.arg0 = false ∧ t = s.raise .range)
      ∨ (isVerWord s.arg0 = true
        ∧ t = (s.setResult (BitVec.ofNat 32 (nearestVersion s.arg0).2 <<< 8
            ||| BitVec.ofNat 32 (nearestVersion s.arg0).1)).succeed) := by
  unfold execVerdec
  rw [complete_if_iff, complete_ok_iff, complete_error_iff, Bool.not_eq_true, or_comm]

theorem execDimchk_iff :
    execDimchk s = .next t ↔
      ((s.arg0Nat ≠ s.arg1Nat ∨ s.arg0Nat < 21 ∨ 177 < s.arg0Nat ∨ (s.arg0Nat - 17) % 4 ≠ 0)
        ∧ t = s.raise .invalidSize)
      ∨ (s.arg0Nat = s.arg1Nat ∧ 21 ≤ s.arg0Nat ∧ s.arg0Nat ≤ 177 ∧ (s.arg0Nat - 17) % 4 = 0
        ∧ t = (s.setResult (resultNat ((s.arg0Nat - 17) / 4))).succeed) := by
  unfold execDimchk
  rw [complete_if_iff, complete_ok_iff, complete_error_iff, show Config.dimOf Config.verMin = 21 from rfl,
    show Config.dimOf Config.verMax = 177 from rfl, not_or, not_or, not_or, not_not, not_not, Nat.not_lt, Nat.not_lt]
  tauto

/-! ## 44_grid_layout.md -/

theorem execGinit_iff {ib : Byte} :
    execGinit ib s = .next t ↔
      ((ib.toNat < Config.verMin ∨ Config.verMax < ib.toNat) ∧ t = s.raise .range)
      ∨ ((Config.verMin ≤ ib.toNat ∧ ib.toNat ≤ Config.verMax)
        ∧ t = ((s.setGrid (blankGrid s.alignTable ib.toNat)).setCursor
            (beginCursor (Config.dimOf ib.toNat) (blankGrid s.alignTable ib.toNat).asg)).succeed) := by
  unfold execGinit
  rw [complete_if_iff, complete_ok_iff, complete_error_iff, not_or, Nat.not_lt, Nat.not_lt]

theorem execModw_iff {row col val : Byte} :
    execModw row col val s = .next t ↔
      (2 ≤ val.toNat ∧ t = s.raise .illegal)
      ∨ (val.toNat < 2 ∧
        ((s.grid.gvalid = false ∧ t = s.raise .range)
        ∨ (s.grid.gvalid = true ∧ (s.grid.dim ≤ row.toNat ∨ s.grid.dim ≤ col.toNat) ∧ t = s.raise .range)
        ∨ (s.grid.gvalid = true ∧ row.toNat < s.grid.dim ∧ col.toNat < s.grid.dim
          ∧ t = (s.setGrid
              { s.grid with mod := BitGrid.set s.grid.mod row.toNat col.toNat (val.getLsbD 0) }).succeed))) := by
  unfold execModw
  rw [complete_ifLegal_iff, complete_ifModule_iff, complete_ok_iff, decide_eq_false_iff_not, decide_eq_true_iff, Nat.not_lt]

theorem execModr_iff {row col : Byte} :
    execModr row col s = .next t ↔
      (s.grid.gvalid = false ∧ t = s.raise .range)
      ∨ (s.grid.gvalid = true ∧ (s.grid.dim ≤ row.toNat ∨ s.grid.dim ≤ col.toNat) ∧ t = s.raise .range)
      ∨ (s.grid.gvalid = true ∧ row.toNat < s.grid.dim ∧ col.toNat < s.grid.dim
        ∧ t = (s.setResult (0#30 ++ BitVec.ofBool (s.asgAt row.toNat col.toNat)
            ++ BitVec.ofBool (s.modAt row.toNat col.toNat))).succeed) := by
  unfold execModr; rw [complete_ifModule_iff, complete_ok_iff]

theorem execAmw_iff {row col val : Byte} :
    execAmw row col val s = .next t ↔
      (2 ≤ val.toNat ∧ t = s.raise .illegal)
      ∨ (val.toNat < 2 ∧
        ((s.grid.gvalid = false ∧ t = s.raise .range)
        ∨ (s.grid.gvalid = true ∧ (s.grid.dim ≤ row.toNat ∨ s.grid.dim ≤ col.toNat) ∧ t = s.raise .range)
        ∨ (s.grid.gvalid = true ∧ row.toNat < s.grid.dim ∧ col.toNat < s.grid.dim
          ∧ t = ((s.setGrid
              { s.grid with asg := BitGrid.set s.grid.asg row.toNat col.toNat (val.getLsbD 0) }).setCursor
              { s.cursor with pstate := .idle, pbits := 0 }).succeed))) := by
  unfold execAmw
  rw [complete_ifLegal_iff, complete_ifModule_iff, complete_ok_iff, decide_eq_false_iff_not, decide_eq_true_iff, Nat.not_lt]

theorem execModw32_iff {row col : Byte} :
    execModw32 row col s = .next t ↔
      (s.grid.gvalid = false ∧ t = s.raise .range)
      ∨ (s.grid.gvalid = true ∧ (s.grid.dim ≤ row.toNat ∨ s.grid.dim ≤ col.toNat) ∧ t = s.raise .range)
      ∨ (s.grid.gvalid = true ∧ row.toNat < s.grid.dim ∧ col.toNat < s.grid.dim
        ∧ t = (s.setGrid
            { s.grid with mod := writeRow32 s.grid.dim s.grid.mod row.toNat col.toNat s.arg0 }).succeed) := by
  unfold execModw32; rw [complete_ifModule_iff, complete_ok_iff]

theorem execModr32_iff {row col : Byte} :
    execModr32 row col s = .next t ↔
      (s.grid.gvalid = false ∧ t = s.raise .range)
      ∨ (s.grid.gvalid = true ∧ (s.grid.dim ≤ row.toNat ∨ s.grid.dim ≤ col.toNat) ∧ t = s.raise .range)
      ∨ (s.grid.gvalid = true ∧ row.toNat < s.grid.dim ∧ col.toNat < s.grid.dim
        ∧ t = (s.setResult (readRow32 s.grid.dim s.grid.mod row.toNat col.toNat)).succeed) := by
  unfold execModr32; rw [complete_ifModule_iff, complete_ok_iff]

theorem execPbegin_iff :
    execPbegin s = .next t ↔
      (s.grid.gvalid = false ∧ t = s.raise .range)
      ∨ (s.grid.gvalid = true ∧ t = (s.setCursor (beginCursor s.grid.dim s.grid.asg)).succeed) := by
  unfold execPbegin; rw [complete_ifGrid_iff, complete_ok_iff]

theorem execPwrite_iff {n : BitVec 6} :
    execPwrite n s = .next t ↔
      (¬(1 ≤ n.toNat ∧ n.toNat ≤ 8) ∧ t = s.raise .illegal)
      ∨ ((1 ≤ n.toNat ∧ n.toNat ≤ 8) ∧
        ((s.grid.gvalid = false ∧ t = s.raise .range)
        ∨ (s.grid.gvalid = true ∧ s.cursor.pstate = .idle ∧ t = s.raise .range)
        ∨ (s.grid.gvalid = true ∧ s.cursor.pstate ≠ .idle ∧
          ((s.modulesLeft < n.toNat ∧ t = s.raise .range)
          ∨ (n.toNat ≤ s.modulesLeft
            ∧ t = (s.setPlaced
                (placeBits s.grid.dim s.grid.asg (s.arg0Bits n.toNat) s.grid.mod s.cursor).1
                (placeBits s.grid.dim s.grid.asg (s.arg0Bits n.toNat) s.grid.mod s.cursor).2).succeed))))) := by
  unfold execPwrite
  rw [complete_ifLegal_iff, complete_ifPlacing_iff, complete_if_iff, complete_error_iff, decide_eq_false_iff_not,
    decide_eq_true_iff, Nat.not_lt, complete_ok_iff]

theorem execPread_iff {n : BitVec 6} :
    execPread n s = .next t ↔
      (¬(1 ≤ n.toNat ∧ n.toNat ≤ 8) ∧ t = s.raise .illegal)
      ∨ ((1 ≤ n.toNat ∧ n.toNat ≤ 8) ∧
        ((s.grid.gvalid = false ∧ t = s.raise .range)
        ∨ (s.grid.gvalid = true ∧ s.cursor.pstate = .idle ∧ t = s.raise .range)
        ∨ (s.grid.gvalid = true ∧ s.cursor.pstate ≠ .idle ∧
          ((s.modulesLeft < n.toNat ∧ t = s.raise .range)
          ∨ (n.toNat ≤ s.modulesLeft
            ∧ t = ((s.setCursor (pickBits s.grid.dim s.grid.asg s.grid.mod n.toNat s.cursor).2).setResult
                (bitsToWord (pickBits s.grid.dim s.grid.asg s.grid.mod n.toNat s.cursor).1)).succeed))))) := by
  unfold execPread
  rw [complete_ifLegal_iff, complete_ifPlacing_iff, complete_if_iff, complete_error_iff, decide_eq_false_iff_not,
    decide_eq_true_iff, Nat.not_lt, complete_ok_iff]

theorem execPstore_iff {a : StreamId} :
    execPstore a s = .next t ↔
      (s.grid.gvalid = false ∧ t = s.raise .range)
      ∨ (s.grid.gvalid = true ∧ s.cursor.pstate = .idle ∧ t = s.raise .range)
      ∨ (s.grid.gvalid = true ∧ s.cursor.pstate ≠ .idle ∧
        (((s.stream a).remaining < s.arg0Nat ∧ t = s.raise .range)
        ∨ (s.arg0Nat ≤ (s.stream a).remaining ∧
          ((s.modulesLeft < s.arg0Nat ∧ t = s.raise .range)
          ∨ (s.arg0Nat ≤ s.modulesLeft
            ∧ t = ((s.setStream a ((s.stream a).advance s.arg0Nat)).setPlaced
                (placeBits s.grid.dim s.grid.asg ((s.stream a).next s.arg0Nat) s.grid.mod s.cursor).1
                (placeBits s.grid.dim s.grid.asg ((s.stream a).next s.arg0Nat) s.grid.mod s.cursor).2).succeed))))) := by
  unfold execPstore
  rw [complete_ifPlacing_iff, complete_if_iff, complete_error_iff, Nat.not_lt, complete_if_iff, complete_error_iff, Nat.not_lt,
    complete_ok_iff]

theorem execPload_iff {a : StreamId} :
    execPload a s = .next t ↔
      (s.grid.gvalid = false ∧ t = s.raise .range)
      ∨ (s.grid.gvalid = true ∧ s.cursor.pstate = .idle ∧ t = s.raise .range)
      ∨ (s.grid.gvalid = true ∧ s.cursor.pstate ≠ .idle ∧
        ((s.modulesLeft < s.arg0Nat ∧ t = s.raise .range)
        ∨ (s.arg0Nat ≤ s.modulesLeft ∧
          ((s.arg0Nat = 0 ∧ t = s.succeed)
          ∨ (s.arg0Nat ≠ 0 ∧
            (((s.stream a).overflows s.arg0Nat = true ∧ t = s.raise .alloc)
            ∨ ((s.stream a).overflows s.arg0Nat = false
              ∧ t = ((s.setStream a ((s.stream a).put
                    (pickBits s.grid.dim s.grid.asg s.grid.mod s.arg0Nat s.cursor).1)).setCursor
                    (pickBits s.grid.dim s.grid.asg s.grid.mod s.arg0Nat s.cursor).2).succeed))))))) := by
  unfold execPload
  rw [complete_ifPlacing_iff, complete_if_iff, complete_error_iff, Nat.not_lt, complete_if_iff, complete_ok_iff, complete_if_iff,
    complete_error_iff, Bool.not_eq_true, complete_ok_iff]

/-! ## 45_mask.md -/

theorem execMapply_iff {ib : Byte} :
    execMapply ib s = .next t ↔
      (8 ≤ ib.toNat ∧ t = s.raise .illegal)
      ∨ (ib.toNat < 8 ∧
        ((s.grid.gvalid = false ∧ t = s.raise .range)
        ∨ (s.grid.gvalid = true ∧ t = (s.setGrid (s.maskedGrid ib.toNat)).succeed))) := by
  unfold execMapply
  rw [complete_ifLegal_iff, complete_ifGrid_iff, complete_ok_iff, decide_eq_false_iff_not, decide_eq_true_iff, Nat.not_lt]

theorem execMscore_iff {n : BitVec 6} :
    execMscore n s = .next t ↔
      (4 < n.toNat ∧ t = s.raise .illegal)
      ∨ (n.toNat ≤ 4 ∧
        ((s.grid.gvalid = false ∧ t = s.raise .range)
        ∨ (s.grid.gvalid = true
          ∧ t = (s.setResult (resultNat (scorePart s.grid.dim s.grid.mod n.toNat))).succeed))) := by
  unfold execMscore
  rw [complete_ifLegal_iff, complete_ifGrid_iff, complete_ok_iff, decide_eq_false_iff_not, decide_eq_true_iff, Nat.not_le]

theorem execMselect_iff :
    execMselect s = .next t ↔
      (s.grid.gvalid = false ∧ t = s.raise .range)
      ∨ (s.grid.gvalid = true
        ∧ t = (((s.setMask
              ⟨maskScores s.grid.dim s.grid.mod s.grid.asg,
                BitVec.ofNat 3 (bestMask (maskScores s.grid.dim s.grid.mod s.grid.asg))⟩).setGrid
              (s.maskedGrid (bestMask (maskScores s.grid.dim s.grid.mod s.grid.asg)))).setResult
              (resultNat (bestMask (maskScores s.grid.dim s.grid.mod s.grid.asg)))).succeed) := by
  unfold execMselect; rw [complete_ifGrid_iff, complete_ok_iff]

end Sys2Proof.Machine
end

