-- ==== Sys2Proof/Laws/Units.lean ====
section
/-! SUPPORT. The small lemmas of the units' functions: the LFSR, the syndromes, the grid's row words, the blank grid, the masked grid and
the choice of the best mask. -/

namespace Sys2Proof.Machine

/-! ## The RS unit (R194, R200, R202, R205) -/

@[simp] theorem lfsrClear_k (rs : Rs) : (lfsrClear rs).k = rs.k := rfl
@[simp] theorem lfsrClear_g (rs : Rs) : (lfsrClear rs).g = rs.g := rfl
@[simp] theorem lfsrClear_syn (rs : Rs) : (lfsrClear rs).syn = rs.syn := rfl
@[simp] theorem lfsrClear_r (rs : Rs) (j : Nat) : byteAt (lfsrClear rs).r j = 0 := by simp [lfsrClear]

@[simp] theorem lfsrClock_k (rs : Rs) (d : Byte) : (lfsrClock rs d).k = rs.k := by unfold lfsrClock; split <;> rfl
@[simp] theorem lfsrClock_g (rs : Rs) (d : Byte) : (lfsrClock rs d).g = rs.g := by unfold lfsrClock; split <;> rfl
@[simp] theorem lfsrClock_syn (rs : Rs) (d : Byte) : (lfsrClock rs d).syn = rs.syn := by unfold lfsrClock; split <;> rfl

theorem lfsrClock_of_zero {rs : Rs} (h : rs.k = 0) (d : Byte) : lfsrClock rs d = rs := by unfold lfsrClock; rw [if_pos h]

/-- The registers after one clock (R194). -/
theorem lfsrClock_r {rs : Rs} (h : rs.k ≠ 0) (d : Byte) {j : Nat} (hj : j < 32) :
    byteAt (lfsrClock rs d).r j =
      if j = 0 then gfmul (d ^^^ byteAt rs.r (rs.k - 1)) (byteAt rs.g 0)
      else if j < rs.k then byteAt rs.r (j - 1) ^^^ gfmul (d ^^^ byteAt rs.r (rs.k - 1)) (byteAt rs.g j)
      else byteAt rs.r j := by
  unfold lfsrClock; rw [if_neg h]; simp [hj]

@[simp] theorem lfsrFeed_nil (rs : Rs) : lfsrFeed rs [] = rs := rfl
@[simp] theorem lfsrFeed_cons (rs : Rs) (d : Byte) (ds : List Byte) : lfsrFeed rs (d :: ds) = lfsrFeed (lfsrClock rs d) ds := rfl

@[simp] theorem lfsrFeed_k (rs : Rs) (ds : List Byte) : (lfsrFeed rs ds).k = rs.k := by
  induction ds generalizing rs <;> simp [*]
@[simp] theorem lfsrFeed_g (rs : Rs) (ds : List Byte) : (lfsrFeed rs ds).g = rs.g := by
  induction ds generalizing rs <;> simp [*]
@[simp] theorem lfsrFeed_syn (rs : Rs) (ds : List Byte) : (lfsrFeed rs ds).syn = rs.syn := by
  induction ds generalizing rs <;> simp [*]

/-- A clock keeps the registers at and above K at 0 (R207). -/
theorem lfsrClock_wf {rs : Rs} (h : rs.Wf) (d : Byte) : (lfsrClock rs d).Wf := by
  refine ⟨by simpa using h.1, by simpa using h.2.1, fun j hj hk => ?_⟩
  rw [lfsrClock_k] at hk
  by_cases h0 : rs.k = 0
  · rw [lfsrClock_of_zero h0]; exact h.2.2 j hj hk
  · rw [lfsrClock_r h0 d hj, if_neg (by omega), if_neg (by omega)]; exact h.2.2 j hj hk

theorem lfsrFeed_wf {rs : Rs} (h : rs.Wf) (ds : List Byte) : (lfsrFeed rs ds).Wf := by
  induction ds generalizing rs with
  | nil => exact h
  | cons d ds ih => exact ih (lfsrClock_wf h d)

@[simp] theorem ecBytes_length (rs : Rs) : (ecBytes rs).length = rs.k := by simp [ecBytes]

theorem ecBytes_getD {rs : Rs} {j : Nat} (h : j < rs.k) : (ecBytes rs).getD j 0 = byteAt rs.r (rs.k - 1 - j) := by
  simp [ecBytes, List.getD, h]

theorem byteAt_syndromes (k : Nat) (cs : List Byte) {i : Nat} (hi : i < 32) :
    byteAt (syndromes k cs) i = if i < k then syndrome i cs else 0 := by simp [syndromes, hi]

theorem allZeroBelow_iff {k : Nat} {syn : Vector Byte 32} : allZeroBelow k syn = true ↔ ∀ i, i < k → byteAt syn i = 0 := by
  simp [allZeroBelow]

/-! ## Bits of bytes (R83, R202, R203) -/

theorem byteBits_getD (b : Byte) {i : Nat} (h : i < 8) : (byteBits b).getD i false = b.getLsbD (7 - i) := by
  simp [byteBits, List.getD, h]

/-- Bit `8 j + b` of a list of bytes is bit `7 - b` of byte `j`. -/
theorem flatMap_byteBits_getD (ds : List Byte) {j b : Nat} (hj : j < ds.length) (hb : b < 8) :
    (ds.flatMap byteBits).getD (8 * j + b) false = (ds.getD j 0).getLsbD (7 - b) := by
  induction ds generalizing j with
  | nil => simp at hj
  | cons d ds ih =>
    rw [List.flatMap_cons]
    cases j with
    | zero =>
      have : (byteBits d ++ ds.flatMap byteBits).getD (8 * 0 + b) false = (byteBits d).getD b false := by
        simp [List.getD, List.getElem?_append_left, hb]
      rw [this, byteBits_getD d hb]; rfl
    | succ j =>
      have : (byteBits d ++ ds.flatMap byteBits).getD (8 * (j + 1) + b) false = (ds.flatMap byteBits).getD (8 * j + b) false := by
        simp only [List.getD]
        rw [List.getElem?_append_right (by simp; omega)]
        congr 2; simp; omega
      rw [this, ih (by simpa using hj)]; rfl

/-- Bytes are determined by their bits. -/
theorem eq_flatMap_byteBits {bs : List Bool} {ds : List Byte} (hl : bs.length = 8 * ds.length)
    (h : ∀ j, j < ds.length → ∀ b, b < 8 → bs.getD (8 * j + b) false = (ds.getD j 0).getLsbD (7 - b)) :
    bs = ds.flatMap byteBits := by
  apply List.ext_getElem (by rw [hl, flatMap_byteBits_length])
  intro i h1 h2
  have hj : i / 8 < ds.length := by omega
  have hb : i % 8 < 8 := Nat.mod_lt _ (by decide)
  have e1 := h (i / 8) hj (i % 8) hb
  rw [← flatMap_byteBits_getD ds hj hb, Nat.div_add_mod] at e1
  rwa [List.getD_eq_getElem _ _ h1, List.getD_eq_getElem _ _ h2] at e1

/-! ## The grid (R268, R272, R273) -/

theorem blankGrid_get_mod (A : AlignTable) (v r c : Nat) : BitGrid.get (blankGrid A v).mod r c = false := by
  simp [blankGrid, BitGrid.get_build]

theorem blankGrid_get_asg (A : AlignTable) {v r c : Nat} (hr : r < Config.dimOf v) (hc : c < Config.dimOf v) :
    BitGrid.get (blankGrid A v).asg r c = !reserved (alignPos A v) v r c := by
  simp [blankGrid, BitGrid.get_build, hr, hc]

theorem blankGrid_wf (A : AlignTable) {v : Nat} (h : 1 ≤ v) (h' : v ≤ 40) : (blankGrid A v).Wf := by
  refine ⟨h', ?_, ?_, ?_, ?_⟩
  · simp [blankGrid]; omega
  · simp [blankGrid]
  · exact BitGrid.square_build _ _
  · exact BitGrid.square_build _ _

/-- A row word written module by module, from the left: what the first `n` of its bits do. -/
theorem writeRow32_prefix {d : Nat} {g : BitGrid} (h : BitGrid.Square d g) {row : Nat} (hr : row < d) (col : Nat) (v : Word) (n : Nat) :
    BitGrid.Square d ((List.range n).foldl
        (fun m j => if col + j < d then BitGrid.set m row (col + j) (v.getLsbD (31 - j)) else m) g) ∧
      ∀ r c, BitGrid.get ((List.range n).foldl
        (fun m j => if col + j < d then BitGrid.set m row (col + j) (v.getLsbD (31 - j)) else m) g) r c =
        if r = row ∧ col ≤ c ∧ c < col + n ∧ c < d then v.getLsbD (31 - (c - col)) else BitGrid.get g r c := by
  induction n with
  | zero => refine ⟨h, fun r c => ?_⟩; rw [if_neg (by omega)]; rfl
  | succ n ih =>
    obtain ⟨ih1, ih2⟩ := ih
    rw [List.range_succ, List.foldl_append]
    simp only [List.foldl_cons, List.foldl_nil]
    by_cases hd : col + n < d
    · rw [if_pos hd]
      refine ⟨BitGrid.square_set ih1 _ _ _, fun r c => ?_⟩
      rw [BitGrid.get_set ih1 hr hd, ih2]
      by_cases hc : r = row ∧ c = col + n
      · rw [if_pos hc, if_pos (by omega)]; congr 1; omega
      · rw [if_neg hc]
        by_cases h2 : r = row ∧ col ≤ c ∧ c < col + n ∧ c < d
        · rw [if_pos h2, if_pos (by omega)]
        · rw [if_neg h2, if_neg (by omega)]
    · rw [if_neg hd]
      refine ⟨ih1, fun r c => ?_⟩
      rw [ih2]
      by_cases h2 : r = row ∧ col ≤ c ∧ c < col + n ∧ c < d
      · rw [if_pos h2, if_pos (by omega)]
      · rw [if_neg h2, if_neg (by omega)]

theorem writeRow32_square {d : Nat} {g : BitGrid} (h : BitGrid.Square d g) {row : Nat} (hr : row < d) (col : Nat) (v : Word) :
    BitGrid.Square d (writeRow32 d g row col v) := (writeRow32_prefix h hr col v 32).1

/-- One module after MODW32 (R272, R84). -/
theorem writeRow32_get {d : Nat} {g : BitGrid} (h : BitGrid.Square d g) {row : Nat} (hr : row < d) (col : Nat) (v : Word) (r c : Nat) :
    BitGrid.get (writeRow32 d g row col v) r c =
      if r = row ∧ col ≤ c ∧ c < col + 32 ∧ c < d then v.getLsbD (31 - (c - col)) else BitGrid.get g r c :=
  (writeRow32_prefix h hr col v 32).2 r c

/-- One bit of MODR32's result (R273, R84). -/
theorem readRow32_getLsbD (d : Nat) (g : BitGrid) (row col : Nat) {j : Nat} (hj : j < 32) :
    (readRow32 d g row col).getLsbD (31 - j) = (decide (col + j < d) && BitGrid.get g row (col + j)) := by
  have h1 : 31 - j < 32 := by omega
  have h2 : 32 - 1 - (31 - j) = j := by omega
  rw [readRow32, bitsToWord, BitVec.getLsbD_ofNat, bitsToNat_testBit, List.length_map, List.length_range, h2]
  simp [h1, hj, List.getD]

/-! ## The mask unit (R311, R319) -/

/-- One module of the masked grid (R311). -/
theorem masked_get {d : Nat} (mod asg : BitGrid) (m : Nat) {i j : Nat} (hi : i < d) (hj : j < d) :
    BitGrid.get (masked d mod asg m) i j = (BitGrid.get mod i j ^^ (BitGrid.get asg i j && maskCond m i j == 0)) := by
  simp [masked, BitGrid.get_build, hi, hj]

theorem masked_square (d : Nat) (mod asg : BitGrid) (m : Nat) : BitGrid.Square d (masked d mod asg m) :=
  BitGrid.square_build _ _

/-- Reserved modules never change (R311). -/
theorem masked_get_of_reserved {d : Nat} (mod : BitGrid) {asg : BitGrid} (m : Nat) {i j : Nat} (hi : i < d) (hj : j < d)
    (h : BitGrid.get asg i j = false) : BitGrid.get (masked d mod asg m) i j = BitGrid.get mod i j := by
  rw [masked_get mod asg m hi hj, h]; simp

/-- The fold of the choice over the masks below `n`: the lowest of the least. -/
theorem bestFold_spec (scores : Vector Word 8) (n : Nat) :
    let b := (List.range n).foldl (fun b m => if (scores[m]?).getD 0 < (scores[b]?).getD 0 then m else b) 0
    (b < n ∨ b = 0) ∧ (∀ m, m < n → (scores[b]?).getD 0 ≤ (scores[m]?).getD 0)
      ∧ ∀ m, m < b → (scores[b]?).getD 0 < (scores[m]?).getD 0 := by
  induction n with
  | zero => exact ⟨.inr rfl, fun m h => absurd h (by omega), fun m h => absurd h (Nat.not_lt_zero m)⟩
  | succ n ih =>
    intro b
    obtain ⟨h1, h2, h3⟩ := ih
    have hb : b = if (scores[n]?).getD 0 < (scores[(List.range n).foldl
        (fun b m => if (scores[m]?).getD 0 < (scores[b]?).getD 0 then m else b) 0]?).getD 0 then n else
        (List.range n).foldl (fun b m => if (scores[m]?).getD 0 < (scores[b]?).getD 0 then m else b) 0 := by
      show List.foldl _ _ _ = _
      rw [List.range_succ, List.foldl_append]; rfl
    rw [hb]
    split
    · next hlt =>
      refine ⟨.inl (by omega), fun m hm => ?_, fun m hm => ?_⟩
      · rcases Nat.lt_succ_iff_lt_or_eq.mp hm with h | rfl
        · exact BitVec.le_trans (BitVec.le_of_lt hlt) (h2 m h)
        · exact BitVec.le_refl _
      · have h4 := h2 m hm; rw [BitVec.lt_def] at *; rw [BitVec.le_def] at h4; omega
    · next hge =>
      refine ⟨?_, fun m hm => ?_, h3⟩
      · omega
      · rcases Nat.lt_succ_iff_lt_or_eq.mp hm with h | rfl
        · exact h2 m h
        · exact BitVec.not_lt.mp hge

/-- The best mask is the lowest m whose score is the least of the eight (R319). -/
theorem bestMask_spec (scores : Vector Word 8) :
    bestMask scores < 8 ∧ (∀ m, m < 8 → (scores[bestMask scores]?).getD 0 ≤ (scores[m]?).getD 0)
      ∧ ∀ m, m < bestMask scores → (scores[bestMask scores]?).getD 0 < (scores[m]?).getD 0 := by
  obtain ⟨h1, h2, h3⟩ := bestFold_spec scores 8
  exact ⟨by unfold bestMask; omega, h2, h3⟩

/-- SCOREm of MSELECT (R319). -/
theorem maskScores_getElem (d : Nat) (mod asg : BitGrid) (m : Fin 8) : (maskScores d mod asg)[m] = maskScore d mod asg m := by
  unfold maskScores; fin_cases m <;> rfl

end Sys2Proof.Machine
end

