-- ==== Sys2Proof/Laws/Gf.lean ====
section
/-! SUPPORT. GF(256) and GF(2) arithmetic: additivity of gfmul in both arguments (addition is xor, R190), what it takes to show two additive
functions of a byte equal, and the coefficients of the generator one factor at a time (R193). -/

namespace Sys2Proof.Machine

/-! ## Additivity of gfmul (R190) -/

theorem xtime_getLsbD (a : Byte) (i : Nat) :
    (xtime a).getLsbD i =
      (decide (i < 8) && ((decide (1 ≤ i) && a.getLsbD (i - 1)) ^^ (a.getLsbD 7 && (0x1D#8).getLsbD i))) := by
  by_cases hi : i < 8
  · have hc : ∀ a7 : Bool, ∀ i, i < 8 → ((if a7 then 0x11D#9 else 0#9).getLsbD i) = (a7 && (0x1D#8).getLsbD i) := by decide
    have h7 : (BitVec.setWidth 9 a <<< 1).getLsbD 8 = a.getLsbD 7 := by simp
    have : xtime a = ((BitVec.setWidth 9 a <<< 1) ^^^ (if a.getLsbD 7 then 0x11D#9 else 0#9)).setWidth 8 := by
      unfold xtime; simp only [h7]; cases a.getLsbD 7 <;> simp
    rw [this, BitVec.getLsbD_setWidth, BitVec.getLsbD_xor, hc _ i hi, BitVec.getLsbD_shiftLeft, BitVec.getLsbD_setWidth]
    have h9 : i < 9 := by omega
    have h10 : i - 1 < 9 := by omega
    simp only [hi, h9, h10, decide_true, Bool.true_and]
    by_cases h1 : i < 1
    · have : ¬ 1 ≤ i := by omega
      simp [h1, this]
    · have : 1 ≤ i := by omega
      simp [h1, this]
  · rw [BitVec.getLsbD_of_ge _ _ (by omega)]; simp [hi]

theorem xtime_xor (a b : Byte) : xtime (a ^^^ b) = xtime a ^^^ xtime b := by
  apply BitVec.eq_of_getLsbD_eq
  intro i hi
  rw [BitVec.getLsbD_xor, xtime_getLsbD, xtime_getLsbD, xtime_getLsbD, BitVec.getLsbD_xor, BitVec.getLsbD_xor]
  cases a.getLsbD (i - 1) <;> cases b.getLsbD (i - 1) <;> cases a.getLsbD 7 <;> cases b.getLsbD 7 <;>
    cases decide (i < 8) <;> cases decide (1 ≤ i) <;> cases (0x1D#8).getLsbD i <;> rfl

/-- The loop adds its product to what `p` gathered before. -/
theorem gfmulLoop_acc (n : Nat) (a b p : Byte) : gfmulLoop n a b p = p ^^^ gfmulLoop n a b 0 := by
  induction n generalizing a b p with
  | zero => simp [gfmulLoop]
  | succ n ih =>
    simp only [gfmulLoop]
    rw [ih, ih (p := if b.getLsbD 0 then 0 ^^^ a else 0)]
    cases b.getLsbD 0 <;> simp [BitVec.xor_assoc]

theorem gfmulLoop_xor_left (n : Nat) (a a' b : Byte) :
    gfmulLoop n (a ^^^ a') b 0 = gfmulLoop n a b 0 ^^^ gfmulLoop n a' b 0 := by
  induction n generalizing a a' b with
  | zero => simp [gfmulLoop]
  | succ n ih =>
    simp only [gfmulLoop]
    rw [gfmulLoop_acc, gfmulLoop_acc n (xtime a), gfmulLoop_acc n (xtime a'), xtime_xor, ih]
    cases b.getLsbD 0
    · simp
    · simp only [if_true]; ac_rfl

theorem gfmulLoop_xor_right (n : Nat) (a b b' : Byte) :
    gfmulLoop n a (b ^^^ b') 0 = gfmulLoop n a b 0 ^^^ gfmulLoop n a b' 0 := by
  induction n generalizing a b b' with
  | zero => simp [gfmulLoop]
  | succ n ih =>
    simp only [gfmulLoop]
    rw [gfmulLoop_acc, gfmulLoop_acc n (xtime a) (b >>> 1), gfmulLoop_acc n (xtime a) (b' >>> 1),
      BitVec.ushiftRight_xor_distrib, ih, BitVec.getLsbD_xor]
    cases b.getLsbD 0 <;> cases b'.getLsbD 0
    · simp
    · simp only [Bool.false_bne, if_true, if_false, Bool.false_eq_true]; ac_rfl
    · simp only [Bool.bne_false, if_true, if_false, Bool.false_eq_true]; ac_rfl
    · simp only [bne_self_eq_false, if_true, if_false, Bool.false_eq_true]
      generalize gfmulLoop n (xtime a) (b >>> 1) 0 = x
      generalize gfmulLoop n (xtime a) (b' >>> 1) 0 = y
      generalize (0 : Byte) ^^^ a = z
      have h0 : ∀ u : Byte, 0 ^^^ u = u := fun u => BitVec.zero_xor
      rw [h0, show z ^^^ x ^^^ (z ^^^ y) = (z ^^^ z) ^^^ (x ^^^ y) by ac_rfl, BitVec.xor_self]; exact (h0 _).symm

/-- gfmul distributes over addition on the left. -/
theorem gfmul_xor_left (a a' b : Byte) : gfmul (a ^^^ a') b = gfmul a b ^^^ gfmul a' b := gfmulLoop_xor_left 8 a a' b

/-- gfmul distributes over addition on the right. -/
theorem gfmul_xor_right (a b b' : Byte) : gfmul a (b ^^^ b') = gfmul a b ^^^ gfmul a b' := gfmulLoop_xor_right 8 a b b'

@[simp] theorem gfmul_zero_left (b : Byte) : gfmul 0#8 b = 0#8 := by
  have := gfmul_xor_left 0#8 0#8 b; simpa using this

@[simp] theorem gfmul_zero_right (a : Byte) : gfmul a 0#8 = 0#8 := by
  have := gfmul_xor_right a 0#8 0#8; simpa using this

/-! ## Additive functions of a byte -/

/-- The part of `a` at bit `i`. -/
def bitPart (a : Byte) (i : Nat) : Byte := if a.getLsbD i then 1 <<< i else 0

theorem eq_xor_bitParts (a : Byte) :
    a = bitPart a 0 ^^^ bitPart a 1 ^^^ bitPart a 2 ^^^ bitPart a 3 ^^^ bitPart a 4 ^^^ bitPart a 5 ^^^ bitPart a 6 ^^^ bitPart a 7 := by
  revert a; decide +kernel

/-- Two additive functions that agree on the eight powers of x agree on every byte. -/
theorem eq_of_additive {f g : Byte → Byte} (hf : ∀ a b, f (a ^^^ b) = f a ^^^ f b) (hg : ∀ a b, g (a ^^^ b) = g a ^^^ g b)
    (h : ∀ i, i < 8 → f (1 <<< i) = g (1 <<< i)) (a : Byte) : f a = g a := by
  have f0 : f 0 = 0 := by have := hf 0 0; simpa using this
  have g0 : g 0 = 0 := by have := hg 0 0; simpa using this
  have hp : ∀ i, i < 8 → f (bitPart a i) = g (bitPart a i) := by
    intro i hi; unfold bitPart; split
    · exact h i hi
    · rw [f0, g0]
  rw [eq_xor_bitParts a]
  simp only [hf, hg, hp 0 (by decide), hp 1 (by decide), hp 2 (by decide), hp 3 (by decide), hp 4 (by decide), hp 5 (by decide),
    hp 6 (by decide), hp 7 (by decide)]

/-! ## The generator (R193) -/

@[simp] theorem generator_zero (j : Nat) : byteAt (generator 0) j = if j = 0 then 1 else 0 := by
  unfold generator; simp; omega

theorem generator_succ (k : Nat) : generator (k + 1) = genStep (generator k) k := by
  unfold generator; rw [List.range_succ, List.foldl_append]; rfl

theorem genStep_byteAt (g : Vector Byte 33) (i : Nat) {j : Nat} (hj : j < 33) :
    byteAt (genStep g i) j =
      if j = 0 then gfmul (byteAt g 0) (alpha i)
      else if j ≤ i + 1 then byteAt g (j - 1) ^^^ gfmul (byteAt g j) (alpha i)
      else byteAt g j := by simp [genStep, hj]

end Sys2Proof.Machine
end

