-- ==== Sys2Proof/Laws/PerInstr.lean ====
section
/-! SUPPORT. Statements made per constructor of Instr. -/

/-! The opcode field of a command's word is its opcode (R100, R107), so the decoder selects the row of the same command (R111). -/

namespace Sys2Proof.Laws.EncodeOpcode

def Statement (i : Sys2Proof.Instr) : Prop := Sys2Proof.opcField (Sys2Proof.encode i) = i.opcode

theorem of_wordN {i : Sys2Proof.Instr} (h : Sys2Proof.encode i = Sys2Proof.wordN i.opcode) : Statement i := by
  rw [Statement, h, Sys2Proof.opcField_wordN]
theorem of_wordR {i : Sys2Proof.Instr} (sa sb : BitVec 2) (n : BitVec 6)
    (h : Sys2Proof.encode i = Sys2Proof.wordR i.opcode sa sb n) : Statement i := by
  rw [Statement, h, Sys2Proof.opcField_wordR]
theorem of_wordI {i : Sys2Proof.Instr} (ia ib : Sys2Proof.Byte) (h : Sys2Proof.encode i = Sys2Proof.wordI i.opcode ia ib) :
    Statement i := by
  rw [Statement, h, Sys2Proof.opcField_wordI]
theorem of_wordM {i : Sys2Proof.Instr} (row col val : Sys2Proof.Byte)
    (h : Sys2Proof.encode i = Sys2Proof.wordM i.opcode row col val) : Statement i := by
  rw [Statement, h, Sys2Proof.opcField_wordM]

theorem nop : Statement Sys2Proof.Instr.nop := of_wordN rfl
theorem clrerr : Statement Sys2Proof.Instr.clrerr := of_wordN rfl
theorem reset : Statement Sys2Proof.Instr.reset := of_wordN rfl
theorem screate (a : Sys2Proof.StreamId) : Statement (Sys2Proof.Instr.screate a) := of_wordR _ _ _ rfl
theorem sresize (a : Sys2Proof.StreamId) : Statement (Sys2Proof.Instr.sresize a) := of_wordR _ _ _ rfl
theorem sdup (a : Sys2Proof.StreamId) (b : Sys2Proof.StreamId) : Statement (Sys2Proof.Instr.sdup a b) := of_wordR _ _ _ rfl
theorem sseek (a : Sys2Proof.StreamId) : Statement (Sys2Proof.Instr.sseek a) := of_wordR _ _ _ rfl
theorem stell (a : Sys2Proof.StreamId) : Statement (Sys2Proof.Instr.stell a) := of_wordR _ _ _ rfl
theorem sremain (a : Sys2Proof.StreamId) : Statement (Sys2Proof.Instr.sremain a) := of_wordR _ _ _ rfl
theorem sread (a : Sys2Proof.StreamId) (n : BitVec 6) : Statement (Sys2Proof.Instr.sread a n) := of_wordR _ _ _ rfl
theorem swrite (a : Sys2Proof.StreamId) (n : BitVec 6) : Statement (Sys2Proof.Instr.swrite a n) := of_wordR _ _ _ rfl
theorem scopy (a : Sys2Proof.StreamId) (b : Sys2Proof.StreamId) : Statement (Sys2Proof.Instr.scopy a b) := of_wordR _ _ _ rfl
theorem sconcat (a : Sys2Proof.StreamId) (b : Sys2Proof.StreamId) : Statement (Sys2Proof.Instr.sconcat a b) := of_wordR _ _ _ rfl
theorem gfmul (ia : Sys2Proof.Byte) (ib : Sys2Proof.Byte) : Statement (Sys2Proof.Instr.gfmul ia ib) := of_wordI _ _ rfl
theorem polymod : Statement Sys2Proof.Instr.polymod := of_wordN rfl
theorem rsgen (n : BitVec 6) : Statement (Sys2Proof.Instr.rsgen n) := of_wordR _ _ _ rfl
theorem rsclr : Statement Sys2Proof.Instr.rsclr := of_wordN rfl
theorem rsfeedi (ib : Sys2Proof.Byte) : Statement (Sys2Proof.Instr.rsfeedi ib) := of_wordI _ _ rfl
theorem rsfeed (a : Sys2Proof.StreamId) : Statement (Sys2Proof.Instr.rsfeed a) := of_wordR _ _ _ rfl
theorem rsemit (a : Sys2Proof.StreamId) : Statement (Sys2Proof.Instr.rsemit a) := of_wordR _ _ _ rfl
theorem rssyn (a : Sys2Proof.StreamId) : Statement (Sys2Proof.Instr.rssyn a) := of_wordR _ _ _ rfl
theorem rsrdg (n : BitVec 6) : Statement (Sys2Proof.Instr.rsrdg n) := of_wordR _ _ _ rfl
theorem rsrdr (n : BitVec 6) : Statement (Sys2Proof.Instr.rsrdr n) := of_wordR _ _ _ rfl
theorem rsrds (n : BitVec 6) : Statement (Sys2Proof.Instr.rsrds n) := of_wordR _ _ _ rfl
theorem fmtenc (ib : Sys2Proof.Byte) : Statement (Sys2Proof.Instr.fmtenc ib) := of_wordI _ _ rfl
theorem fmtdec : Statement Sys2Proof.Instr.fmtdec := of_wordN rfl
theorem fmtdec2 : Statement Sys2Proof.Instr.fmtdec2 := of_wordN rfl
theorem verenc (ib : Sys2Proof.Byte) : Statement (Sys2Proof.Instr.verenc ib) := of_wordI _ _ rfl
theorem verdec : Statement Sys2Proof.Instr.verdec := of_wordN rfl
theorem dimchk : Statement Sys2Proof.Instr.dimchk := of_wordN rfl
theorem ginit (ib : Sys2Proof.Byte) : Statement (Sys2Proof.Instr.ginit ib) := of_wordI _ _ rfl
theorem modw (row : Sys2Proof.Byte) (col : Sys2Proof.Byte) (val : Sys2Proof.Byte) : Statement (Sys2Proof.Instr.modw row col val) := of_wordM _ _ _ rfl
theorem modr (row : Sys2Proof.Byte) (col : Sys2Proof.Byte) : Statement (Sys2Proof.Instr.modr row col) := of_wordM _ _ _ rfl
theorem amw (row : Sys2Proof.Byte) (col : Sys2Proof.Byte) (val : Sys2Proof.Byte) : Statement (Sys2Proof.Instr.amw row col val) := of_wordM _ _ _ rfl
theorem modw32 (row : Sys2Proof.Byte) (col : Sys2Proof.Byte) : Statement (Sys2Proof.Instr.modw32 row col) := of_wordM _ _ _ rfl
theorem modr32 (row : Sys2Proof.Byte) (col : Sys2Proof.Byte) : Statement (Sys2Proof.Instr.modr32 row col) := of_wordM _ _ _ rfl
theorem pbegin : Statement Sys2Proof.Instr.pbegin := of_wordN rfl
theorem pwrite (n : BitVec 6) : Statement (Sys2Proof.Instr.pwrite n) := of_wordR _ _ _ rfl
theorem pread (n : BitVec 6) : Statement (Sys2Proof.Instr.pread n) := of_wordR _ _ _ rfl
theorem pstore (a : Sys2Proof.StreamId) : Statement (Sys2Proof.Instr.pstore a) := of_wordR _ _ _ rfl
theorem pload (a : Sys2Proof.StreamId) : Statement (Sys2Proof.Instr.pload a) := of_wordR _ _ _ rfl
theorem mapply (ib : Sys2Proof.Byte) : Statement (Sys2Proof.Instr.mapply ib) := of_wordI _ _ rfl
theorem mscore (n : BitVec 6) : Statement (Sys2Proof.Instr.mscore n) := of_wordR _ _ _ rfl
theorem mselect : Statement Sys2Proof.Instr.mselect := of_wordN rfl

end Sys2Proof.Laws.EncodeOpcode
end

