-- ==== Sys2Proof/Laws/Placement.lean ====
section
/-! SUPPORT. The raw order of the placement traversal by position number: strip `k` (from the right, column 6 skipped) and place `q` in it,
two modules a row (R274). The cursor's functions say on these numbers what they do; PSTATE and PBITS are carried along unread. -/

namespace Sys2Proof.Machine

/-- The cursor at place `q` of strip `k`, with PSTATE and PBITS of `c` (R274): strips are PX = d-1, d-3, …, 8, 5, 3, 1, alternately upward
and downward; within a row the right column comes first. -/
def rawPos (d : Nat) (c : Cursor) (k q : Nat) : Cursor where
  px := if d - 1 - 2 * k < 7 then d - 2 - 2 * k else d - 1 - 2 * k
  py := if k % 2 = 0 then d - 1 - q / 2 else q / 2
  pup := decide (k % 2 = 0)
  pside := decide (q % 2 = 1)
  pstate := c.pstate
  pbits := c.pbits

/-- The sides of grids: 4 v + 17 for some version. -/
abbrev IsSide (d : Nat) : Prop := d % 4 = 1 ∧ 21 ≤ d

theorem isSide_dimOf {v : Nat} (h : 1 ≤ v) : IsSide (Config.dimOf v) := by unfold Config.dimOf; omega

section
variable {d : Nat} (hd : IsSide d) (c : Cursor)
include hd

/-- Within a strip the raw order goes on to the next place. -/
theorem advanceRaw_within {k q : Nat} (hq : q + 1 < 2 * d) :
    advanceRaw d (rawPos d c k q) = (rawPos d c k (q + 1), false) := by
  unfold advanceRaw rawPos
  rcases Nat.mod_two_eq_zero_or_one q with h0 | h1
  · have e1 : ¬ q % 2 = 1 := by omega
    have e2 : (q + 1) % 2 = 1 := by omega
    have e3 : (q + 1) / 2 = q / 2 := by omega
    simp [e1, e2, e3]
  · have e2 : ¬ (q + 1) % 2 = 1 := by omega
    have e3 : (q + 1) / 2 = q / 2 + 1 := by omega
    by_cases hu : k % 2 = 0
    · have e4 : 0 < d - 1 - q / 2 := by omega
      have e5 : d - 1 - q / 2 - 1 = d - 1 - (q / 2 + 1) := by omega
      simp [h1, e2, e3, hu, e4, e5]
    · have e4 : q / 2 < d - 1 := by omega
      simp [h1, e2, e3, hu, e4]

/-- At the end of a strip it goes on to the next strip. -/
theorem advanceRaw_strip {k : Nat} (hk : 2 * k + 5 ≤ d) :
    advanceRaw d (rawPos d c k (2 * d - 1)) = (rawPos d c (k + 1) 0, false) := by
  obtain ⟨hd1, hd2⟩ := hd
  have e1 : (2 * d - 1) % 2 = 1 := by omega
  have e2 : (2 * d - 1) / 2 = d - 1 := by omega
  unfold advanceRaw rawPos
  have hx : (if d - 1 - 2 * k < 7 then d - 2 - 2 * k else d - 1 - 2 * k) ≠ 1 := by split <;> omega
  have hx2 : (if (if d - 1 - 2 * k < 7 then d - 2 - 2 * k else d - 1 - 2 * k) - 2 = 6 then 5
      else (if d - 1 - 2 * k < 7 then d - 2 - 2 * k else d - 1 - 2 * k) - 2) =
      if d - 1 - 2 * (k + 1) < 7 then d - 2 - 2 * (k + 1) else d - 1 - 2 * (k + 1) := by
    split <;> split <;> split <;> omega
  by_cases hu : k % 2 = 0
  · have hu' : ¬ (k + 1) % 2 = 0 := by omega
    simp only [e1, e2, hu, hu', decide_true, decide_false, if_true, if_false, Nat.sub_self, Bool.true_eq_false, Nat.lt_irrefl,
      and_false, false_and, hx, hx2]
    simp
  · have hu' : (k + 1) % 2 = 0 := by omega
    simp only [e1, e2, hu, hu', decide_true, decide_false, if_true, if_false, Bool.false_eq_true, Bool.true_eq_false, Nat.lt_irrefl,
      and_false, false_and, hx, hx2]
    simp

/-- The last place of the last strip ends the traversal; only PSIDE changes. -/
theorem advanceRaw_last {k : Nat} (hk : 2 * k + 3 = d) :
    advanceRaw d (rawPos d c k (2 * d - 1)) = ({ rawPos d c k (2 * d - 1) with pside := false }, true) := by
  obtain ⟨hd1, hd2⟩ := hd
  have e1 : (2 * d - 1) % 2 = 1 := by omega
  have e2 : (2 * d - 1) / 2 = d - 1 := by omega
  have hx : (if d - 1 - 2 * k < 7 then d - 2 - 2 * k else d - 1 - 2 * k) = 1 := by split <;> omega
  unfold advanceRaw rawPos
  by_cases hu : k % 2 = 0
  · simp [e1, e2, hu, hx]
  · simp [e1, e2, hu, hx]

end

/-! ## One number for a position -/

/-- The number of positions of the raw order. -/
def rawLen (d : Nat) : Nat := d * (d - 1)

/-- Position number `n` of the raw order. -/
def rawAt (d : Nat) (c : Cursor) (n : Nat) : Cursor := rawPos d c (n / (2 * d)) (n % (2 * d))

theorem strip_lt {d n : Nat} (hd : IsSide d) (hn : n < rawLen d) : 2 * (n / (2 * d)) + 3 ≤ d := by
  obtain ⟨m, hm⟩ : ∃ m, d = 2 * m + 1 := ⟨d / 2, by omega⟩
  have h2 : n < (2 * d) * m := by
    have : rawLen d = (2 * d) * m := by
      unfold rawLen; rw [show d - 1 = 2 * m by omega]; ring
    omega
  have := Nat.div_lt_of_lt_mul h2
  omega

theorem strip_eq_of_last {d n : Nat} (hd : IsSide d) (hn : n + 1 = rawLen d) : 2 * (n / (2 * d)) + 3 = d ∧ n % (2 * d) = 2 * d - 1 := by
  obtain ⟨m, hm⟩ : ∃ m, d = 2 * m + 1 := ⟨d / 2, by omega⟩
  have h1 : rawLen d = (2 * d) * m := by
    unfold rawLen; rw [show d - 1 = 2 * m by omega]; ring
  have h2 : n = (2 * d) * (m - 1) + (2 * d - 1) := by
    have : (2 * d) * m = (2 * d) * (m - 1) + 2 * d := by
      conv_lhs => rw [show m = (m - 1) + 1 by omega]
      ring
    omega
  have h3 : n / (2 * d) = m - 1 := by
    rw [h2, Nat.mul_add_div (by omega), Nat.div_eq_of_lt (by omega)]; rfl
  have h4 : n % (2 * d) = 2 * d - 1 := by
    rw [h2, Nat.mul_add_mod, Nat.mod_eq_of_lt (by omega)]
  omega

theorem succ_within {d n : Nat} (h : n % (2 * d) + 1 < 2 * d) :
    (n + 1) / (2 * d) = n / (2 * d) ∧ (n + 1) % (2 * d) = n % (2 * d) + 1 := by
  have e := Nat.div_add_mod n (2 * d)
  have e2 : n + 1 = (2 * d) * (n / (2 * d)) + (n % (2 * d) + 1) := by omega
  constructor
  · rw [e2, Nat.mul_add_div (by omega), Nat.div_eq_of_lt h]; rfl
  · rw [e2, Nat.mul_add_mod, Nat.mod_eq_of_lt h]

theorem succ_strip {d n : Nat} (hd : 0 < d) (h : n % (2 * d) = 2 * d - 1) :
    (n + 1) / (2 * d) = n / (2 * d) + 1 ∧ (n + 1) % (2 * d) = 0 := by
  have e := Nat.div_add_mod n (2 * d)
  have e2 : n + 1 = (2 * d) * (n / (2 * d) + 1) := by rw [Nat.mul_add]; omega
  constructor
  · rw [e2, Nat.mul_div_cancel_left _ (by omega)]
  · rw [e2, Nat.mul_mod_right]

/-- The raw order goes from each position to the next number. -/
theorem advanceRaw_rawAt {d : Nat} (hd : IsSide d) (c : Cursor) {n : Nat} (hn : n + 1 < rawLen d) :
    advanceRaw d (rawAt d c n) = (rawAt d c (n + 1), false) := by
  have hs := strip_lt hd (show n < rawLen d by omega)
  have hs1 := strip_lt hd hn
  unfold rawAt
  by_cases h : n % (2 * d) + 1 < 2 * d
  · obtain ⟨e1, e2⟩ := succ_within h
    rw [e1, e2]; exact advanceRaw_within hd c h
  · have hlt : n % (2 * d) < 2 * d := Nat.mod_lt _ (by omega)
    have hq : n % (2 * d) = 2 * d - 1 := by omega
    obtain ⟨e1, e2⟩ := succ_strip (by omega) hq
    rw [e1] at hs1
    rw [e1, e2, hq]; exact advanceRaw_strip hd c (by omega)

/-- After the last position the traversal is over. -/
theorem advanceRaw_rawAt_last {d : Nat} (hd : IsSide d) (c : Cursor) {n : Nat} (hn : n + 1 = rawLen d) :
    advanceRaw d (rawAt d c n) = ({ rawAt d c n with pside := false }, true) := by
  obtain ⟨h1, h2⟩ := strip_eq_of_last hd hn
  unfold rawAt; rw [h2]; exact advanceRaw_last hd c h1

theorem rawAt_with (d : Nat) (c : Cursor) (n : Nat) (st : PState) (b : Nat) :
    ({ rawAt d c n with pstate := st, pbits := b } : Cursor) = rawAt d { c with pstate := st, pbits := b } n := rfl

theorem startCursor_eq {d : Nat} (hd : IsSide d) : startCursor d = rawAt d (startCursor d) 0 := by
  have h : ¬ d - 1 < 7 := by have := hd.2; omega
  simp [startCursor, rawAt, rawPos, h]

/-! ## Which positions there are -/

theorem rawAt_py_lt {d : Nat} (hd : IsSide d) (c : Cursor) (n : Nat) : (rawAt d c n).py < d := by
  have : n % (2 * d) < 2 * d := Nat.mod_lt _ (by omega)
  simp only [rawAt, rawPos]; split <;> omega

theorem rawAt_col {d : Nat} (c : Cursor) (n : Nat) :
    (rawAt d c n).col =
      (if d - 1 - 2 * (n / (2 * d)) < 7 then d - 2 - 2 * (n / (2 * d)) else d - 1 - 2 * (n / (2 * d))) - n % (2 * d) % 2 := by
  simp only [Cursor.col, rawAt, rawPos]
  rcases Nat.mod_two_eq_zero_or_one (n % (2 * d)) with h | h <;> rw [h] <;> rfl

theorem rawAt_col_bounds {d : Nat} (hd : IsSide d) (c : Cursor) {n : Nat} (hn : n < rawLen d) :
    (rawAt d c n).col < d ∧ (rawAt d c n).col ≠ 6 := by
  have hs := strip_lt hd hn
  rw [rawAt_col]
  obtain ⟨h1, h2⟩ := hd
  split <;> omega

/-- A position is passed over once: its row and column give its number. -/
theorem rawAt_inj {d : Nat} (hd : IsSide d) (c c' : Cursor) {n n' : Nat} (hn : n < rawLen d) (hn' : n' < rawLen d)
    (hr : (rawAt d c n).py = (rawAt d c' n').py) (hc : (rawAt d c n).col = (rawAt d c' n').col) : n = n' := by
  have hs := strip_lt hd hn
  have hs' := strip_lt hd hn'
  have hq : n % (2 * d) < 2 * d := Nat.mod_lt _ (by omega)
  have hq' : n' % (2 * d) < 2 * d := Nat.mod_lt _ (by omega)
  have e := Nat.div_add_mod n (2 * d)
  have e' := Nat.div_add_mod n' (2 * d)
  rw [rawAt_col, rawAt_col] at hc
  simp only [rawAt, rawPos] at hr
  obtain ⟨h1, h2⟩ := hd
  generalize n / (2 * d) = k at *
  generalize n % (2 * d) = q at *
  generalize n' / (2 * d) = k' at *
  generalize n' % (2 * d) = q' at *
  have hk : k = k' ∧ q % 2 = q' % 2 := by
    split at hc <;> split at hc <;> omega
  obtain ⟨rfl, hqq⟩ := hk
  have hq2 : q / 2 = q' / 2 := by split at hr <;> omega
  have : q = q' := by omega
  subst this; omega

/-- The number of the position at row `r`, column `c` (c ≠ 6). -/
def rawIndex (d r c : Nat) : Nat :=
  let p := if c < 6 then (c + 2) / 2 * 2 else (c + 1) / 2 * 2
  let k := (d - 1 - p) / 2
  let side := if c < 6 then 1 - c % 2 else c % 2
  2 * d * k + (2 * (if k % 2 = 0 then d - 1 - r else r) + side)

/-- Every module outside column 6 has a position. -/
theorem rawAt_rawIndex {d : Nat} (hd : IsSide d) (cur : Cursor) {r c : Nat} (hr : r < d) (hc : c < d) (h6 : c ≠ 6) :
    rawIndex d r c < rawLen d ∧ (rawAt d cur (rawIndex d r c)).py = r ∧ (rawAt d cur (rawIndex d r c)).col = c := by
  obtain ⟨h1, h2⟩ := hd
  obtain ⟨p, hp⟩ : ∃ p, p = if c < 6 then (c + 2) / 2 * 2 else (c + 1) / 2 * 2 := ⟨_, rfl⟩
  obtain ⟨k, hk⟩ : ∃ k, k = (d - 1 - p) / 2 := ⟨_, rfl⟩
  obtain ⟨side, hside⟩ : ∃ side, side = if c < 6 then 1 - c % 2 else c % 2 := ⟨_, rfl⟩
  obtain ⟨q, hq⟩ : ∃ q, q = 2 * (if k % 2 = 0 then d - 1 - r else r) + side := ⟨_, rfl⟩
  have hidx : rawIndex d r c = 2 * d * k + q := by
    unfold rawIndex; rw [hq, hk, hside, hp]
  have hpb : 2 ≤ p ∧ p ≤ d - 1 ∧ p % 2 = 0 := by rw [hp]; split <;> omega
  have hsb : side ≤ 1 := by rw [hside]; split <;> omega
  have hqb : q < 2 * d := by rw [hq]; split <;> omega
  have hkb : 2 * k + 3 ≤ d ∧ d - 1 - 2 * k = p := by omega
  have e1 : rawIndex d r c / (2 * d) = k := by
    rw [hidx, Nat.mul_add_div (by omega), Nat.div_eq_of_lt hqb]; rfl
  have e2 : rawIndex d r c % (2 * d) = q := by
    rw [hidx, Nat.mul_add_mod, Nat.mod_eq_of_lt hqb]
  refine ⟨?_, ?_, ?_⟩
  · rw [hidx]
    obtain ⟨m, hm⟩ : ∃ m, d = 2 * m + 1 := ⟨d / 2, by omega⟩
    have hl : rawLen d = 2 * d * m := by unfold rawLen; rw [show d - 1 = 2 * m by omega]; ring
    have hkm : k + 1 ≤ m := by omega
    have := Nat.mul_le_mul_left (2 * d) hkm
    rw [Nat.mul_add] at this
    omega
  · simp only [rawAt, rawPos]; rw [e1, e2, hq]
    split <;> omega
  · rw [rawAt_col, e1, e2, hq]
    rw [hkb.2]
    by_cases hlt : c < 6
    · rw [if_pos hlt] at hp hside
      rw [if_pos (by omega)]; omega
    · rw [if_neg hlt] at hp hside
      rw [if_neg (by omega)]; omega

/-- The raw walk by numbers (R274). -/
theorem rawWalk_rawAt {d : Nat} (hd : IsSide d) (c : Cursor) (m n : Nat) (hn : n < rawLen d) :
    rawWalk d m (rawAt d c n) = if n + m < rawLen d then some (rawAt d c (n + m)) else none := by
  induction m generalizing n with
  | zero => rw [rawWalk, Nat.add_zero, if_pos hn]
  | succ m ih =>
    rw [rawWalk]
    by_cases h : n + 1 < rawLen d
    · rw [advanceRaw_rawAt hd c h]
      simp only [Bool.false_eq_true, if_false]
      rw [ih (n + 1) h, show n + 1 + m = n + (m + 1) by omega]
    · rw [advanceRaw_rawAt_last hd c (by omega)]
      rw [if_pos rfl, if_neg (by omega)]

/-- A cursor on the path is at some position (R274). -/
theorem Cursor.OnPath.exists_rawAt {d : Nat} (hd : IsSide d) {c : Cursor} (h : c.OnPath d) :
    ∃ n, n < rawLen d ∧ c = rawAt d c n := by
  obtain ⟨hy, hx, hx1, hx2, hup⟩ := h
  obtain ⟨h1, h2⟩ := hd
  obtain ⟨p, hp⟩ : ∃ p, p = if c.px < 8 then c.px + 1 else c.px := ⟨_, rfl⟩
  rw [← hp] at hup
  obtain ⟨k, hk⟩ : ∃ k, k = (d - 1 - p) / 2 := ⟨_, rfl⟩
  obtain ⟨q, hq⟩ : ∃ q, q = 2 * (if k % 2 = 0 then d - 1 - c.py else c.py) + c.pside.toNat := ⟨_, rfl⟩
  have hs : c.pside.toNat ≤ 1 := Bool.toNat_le _
  have hpb : 2 ≤ p ∧ p ≤ d - 1 ∧ p % 2 = 0 := by rw [hp]; split <;> omega
  have hqb : q < 2 * d := by rw [hq]; split <;> omega
  have hkb : 2 * k + 3 ≤ d ∧ d - 1 - 2 * k = p := by omega
  have e1 : (2 * d * k + q) / (2 * d) = k := by
    rw [Nat.mul_add_div (by omega), Nat.div_eq_of_lt hqb]; rfl
  have e2 : (2 * d * k + q) % (2 * d) = q := by
    rw [Nat.mul_add_mod, Nat.mod_eq_of_lt hqb]
  refine ⟨2 * d * k + q, ?_, ?_⟩
  · obtain ⟨m, hm⟩ : ∃ m, d = 2 * m + 1 := ⟨d / 2, by omega⟩
    have hl : rawLen d = 2 * d * m := by unfold rawLen; rw [show d - 1 = 2 * m by omega]; ring
    have hkm : k + 1 ≤ m := by omega
    have := Nat.mul_le_mul_left (2 * d) hkm
    rw [Nat.mul_add] at this
    omega
  · unfold rawAt rawPos
    rw [e1, e2]
    have f1 : (if d - 1 - 2 * k < 7 then d - 2 - 2 * k else d - 1 - 2 * k) = c.px := by
      split at hp <;> split <;> omega
    have f2 : (if k % 2 = 0 then d - 1 - q / 2 else q / 2) = c.py := by
      by_cases hk2 : k % 2 = 0
      · rw [if_pos hk2] at hq ⊢; omega
      · rw [if_neg hk2] at hq ⊢; omega
    have f3 : decide (k % 2 = 0) = c.pup := by rw [hup, hk]
    have f4 : decide (q % 2 = 1) = c.pside := by
      have : q % 2 = c.pside.toNat := by omega
      rw [this]; cases c.pside <;> rfl
    rw [f1, f2, f3, f4]

theorem rawPos_onPath {d : Nat} (hd : IsSide d) (c : Cursor) {k q : Nat} (hk : 2 * k + 3 ≤ d) (hq : q < 2 * d) :
    (rawPos d c k q).OnPath d := by
  obtain ⟨h1, h2⟩ := hd
  refine ⟨?_, ?_⟩
  · simp only [rawPos]; split <;> omega
  · have hu : (rawPos d c k q).pup = decide (k % 2 = 0) := rfl
    by_cases h : d - 1 - 2 * k < 7
    · have e : (rawPos d c k q).px = d - 2 - 2 * k := by simp [rawPos, h]
      rw [hu, e, if_pos (by omega), show (d - 1 - (d - 2 - 2 * k + 1)) / 2 = k by omega]
      exact ⟨by omega, by omega, by omega, rfl⟩
    · have e : (rawPos d c k q).px = d - 1 - 2 * k := by simp [rawPos, h]
      rw [hu, e, if_neg (by omega), show (d - 1 - (d - 1 - 2 * k)) / 2 = k by omega]
      exact ⟨by omega, by omega, by omega, rfl⟩

theorem rawAt_onPath {d : Nat} (hd : IsSide d) (c : Cursor) {n : Nat} (hn : n < rawLen d) : (rawAt d c n).OnPath d :=
  rawPos_onPath hd c (strip_lt hd hn) (Nat.mod_lt _ (by omega))

/-! ## seek() and remaining() by numbers (R275) -/

/-- The assignable bit at position number `n`. -/
def asgNum (d : Nat) (asg : BitGrid) (n : Nat) : Bool :=
  BitGrid.get asg (rawAt d (startCursor d) n).py (rawAt d (startCursor d) n).col

theorem onAssignable_rawAt (d : Nat) (asg : BitGrid) (c : Cursor) (n : Nat) : (rawAt d c n).onAssignable asg = asgNum d asg n := rfl

/-- With enough fuel, countAhead counts the assignable positions from `n` on. -/
theorem countAhead_rawAt {d : Nat} (hd : IsSide d) (asg : BitGrid) (c : Cursor) (f n : Nat) (hn : n < rawLen d)
    (hf : rawLen d ≤ n + f) :
    countAhead d asg f (rawAt d c n) = (List.range' n (rawLen d - n)).countP (asgNum d asg) := by
  induction f generalizing n with
  | zero => omega
  | succ f ih =>
    rw [countAhead, onAssignable_rawAt]
    have hr : rawLen d - n = (rawLen d - (n + 1)) + 1 := by omega
    rw [hr, List.range'_succ, List.countP_cons]
    by_cases h : n + 1 < rawLen d
    · rw [advanceRaw_rawAt hd c h]
      simp only [Bool.false_eq_true, if_false]
      rw [ih (n + 1) h (by omega), Nat.add_comm]
      cases asgNum d asg n <;> rfl
    · rw [advanceRaw_rawAt_last hd c (by omega), if_pos rfl, show rawLen d - (n + 1) = 0 by omega]
      cases asgNum d asg n <;> rfl

theorem rawLen_le (d : Nat) : rawLen d ≤ d * d := Nat.mul_le_mul_left d (Nat.sub_le d 1)

/-- With enough fuel, seek stops at the first assignable position from `n` on, or has passed the last (R275). -/
theorem seekFor_rawAt {d : Nat} (hd : IsSide d) (asg : BitGrid) (c : Cursor) (f n : Nat) (hn : n < rawLen d)
    (hf : rawLen d ≤ n + f) :
    (∃ m, n ≤ m ∧ m < rawLen d ∧ asgNum d asg m = true ∧ (∀ j, n ≤ j → j < m → asgNum d asg j = false)
        ∧ seekFor d asg f (rawAt d c n) = { rawAt d c m with pstate := .active })
    ∨ ((∀ j, n ≤ j → j < rawLen d → asgNum d asg j = false)
        ∧ seekFor d asg f (rawAt d c n) = { rawAt d c (rawLen d - 1) with pside := false, pstate := .done }) := by
  induction f generalizing n with
  | zero => omega
  | succ f ih =>
    rw [seekFor, onAssignable_rawAt]
    by_cases ha : asgNum d asg n = true
    · exact .inl ⟨n, le_refl n, hn, ha, fun j h1 h2 => by omega, by rw [if_pos ha]⟩
    · have ha' : asgNum d asg n = false := by simpa using ha
      rw [if_neg ha]
      by_cases h : n + 1 < rawLen d
      · rw [advanceRaw_rawAt hd c h]
        simp only [Bool.false_eq_true, if_false]
        rcases ih (n + 1) h (by omega) with ⟨m, h1, h2, h3, h4, h5⟩ | ⟨h1, h2⟩
        · refine .inl ⟨m, by omega, h2, h3, fun j hj hm => ?_, h5⟩
          rcases Nat.eq_or_lt_of_le hj with rfl | hlt
          · exact ha'
          · exact h4 j hlt hm
        · refine .inr ⟨fun j hj hm => ?_, h2⟩
          rcases Nat.eq_or_lt_of_le hj with rfl | hlt
          · exact ha'
          · exact h1 j hlt hm
      · rw [advanceRaw_rawAt_last hd c (by omega), if_pos rfl]
        refine .inr ⟨fun j hj hm => ?_, ?_⟩
        · rw [show j = n by omega]; exact ha'
        · rw [show rawLen d - 1 = n by omega]

/-- The assignable positions of the raw order are as many as the assignable modules outside column 6 (R276). -/
theorem countP_asgNum {d : Nat} (hd : IsSide d) (asg : BitGrid) :
    (List.range' 0 (rawLen d)).countP (asgNum d asg) = freeCount d asg := by
  let f : Nat → Nat × Nat := fun n => ((rawAt d (startCursor d) n).py, (rawAt d (startCursor d) n).col)
  let A : List (Nat × Nat) := (List.range' 0 (rawLen d)).map f
  let B : List (Nat × Nat) := (List.range d).flatMap fun r => ((List.range d).filter fun c => decide (c ≠ 6)).map fun c => (r, c)
  have hA : A.Nodup := by
    refine List.Nodup.map_on (fun x hx y hy h => ?_) List.nodup_range'
    have hx' := (List.mem_range'_1.mp hx).2
    have hy' := (List.mem_range'_1.mp hy).2
    simp only [f, Prod.mk.injEq] at h
    exact rawAt_inj hd _ _ (by omega) (by omega) h.1 h.2
  have hB : B.Nodup := by
    rw [List.nodup_flatMap]
    refine ⟨fun r _ => ?_, ?_⟩
    · exact (List.nodup_range.filter _).map (fun a b h => by simpa using h)
    · refine List.nodup_range.imp (fun {a b} hab => ?_)
      intro x h1 h2
      simp only [List.mem_map] at h1 h2
      obtain ⟨_, _, rfl⟩ := h1
      obtain ⟨_, _, h⟩ := h2
      exact hab (by simpa using (congrArg Prod.fst h).symm)
  have hAB : A.Perm B := by
    rw [List.perm_ext_iff_of_nodup hA hB]
    rintro ⟨r, c⟩
    simp only [A, B, f, List.mem_map, List.mem_flatMap, List.mem_filter, List.mem_range, List.mem_range'_1, Prod.mk.injEq,
      decide_eq_true_eq]
    constructor
    · rintro ⟨n, hn, rfl, rfl⟩
      have := rawAt_col_bounds hd (startCursor d) (show n < rawLen d by omega)
      exact ⟨_, rawAt_py_lt hd _ n, _, ⟨this.1, this.2⟩, rfl, rfl⟩
    · rintro ⟨r', hr, c', ⟨hc, h6⟩, rfl, rfl⟩
      obtain ⟨h1, h2, h3⟩ := rawAt_rawIndex hd (startCursor d) hr hc h6
      exact ⟨_, by omega, h2, h3⟩
  have e1 : (List.range' 0 (rawLen d)).countP (asgNum d asg) = A.countP fun p => BitGrid.get asg p.1 p.2 := by
    simp only [A, List.countP_map]; rfl
  have e2 : B.countP (fun p => BitGrid.get asg p.1 p.2) = freeCount d asg := by
    simp only [B, freeCount, List.countP_flatMap]
    congr 1
    apply List.map_congr_left
    intro r _
    simp only [Function.comp, List.countP_map, List.countP_filter]
    apply List.countP_congr
    intro c _
    simp [and_comm]
  rw [e1, hAB.countP_eq, e2]

/-! ## Cursors of a traversal in progress -/

/-- The cursor is ACTIVE on the assignable position number `n`. -/
abbrev Cursor.ActiveAt (d : Nat) (asg : BitGrid) (c : Cursor) (n : Nat) : Prop :=
  n < rawLen d ∧ c = rawAt d c n ∧ c.pstate = .active ∧ asgNum d asg n = true

theorem Cursor.ActiveAt.of_onPath {d : Nat} (hd : IsSide d) {asg : BitGrid} {c : Cursor} (h : c.OnPath d)
    (ha : c.onAssignable asg = true) (hs : c.pstate = .active) : ∃ n, c.ActiveAt d asg n := by
  obtain ⟨n, hn, e⟩ := h.exists_rawAt hd
  refine ⟨n, hn, e, hs, ?_⟩
  rw [e, onAssignable_rawAt] at ha; exact ha

theorem Cursor.ActiveAt.onPath {d : Nat} (hd : IsSide d) {asg : BitGrid} {c : Cursor} {n : Nat} (h : c.ActiveAt d asg n) :
    c.OnPath d := by
  rw [h.2.1]; exact rawAt_onPath hd c h.1

theorem Cursor.ActiveAt.onAssignable {d : Nat} {asg : BitGrid} {c : Cursor} {n : Nat} (h : c.ActiveAt d asg n) :
    c.onAssignable asg = true := by
  have := h.2.2.2; rw [h.2.1, onAssignable_rawAt]; exact this

theorem Cursor.ActiveAt.py_lt {d : Nat} (hd : IsSide d) {asg : BitGrid} {c : Cursor} {n : Nat} (h : c.ActiveAt d asg n) :
    c.py < d := by
  rw [h.2.1]; exact rawAt_py_lt hd c n

theorem Cursor.ActiveAt.col_lt {d : Nat} (hd : IsSide d) {asg : BitGrid} {c : Cursor} {n : Nat} (h : c.ActiveAt d asg n) :
    c.col < d := by
  rw [h.2.1]; exact (rawAt_col_bounds hd c h.1).1

/-- `remaining()` of a cursor on the path (R275). -/
theorem Cursor.remaining_rawAt {d : Nat} (hd : IsSide d) (asg : BitGrid) {c : Cursor} {n : Nat} (hn : n < rawLen d)
    (hs : c.pstate ≠ .done) : (rawAt d c n).remaining d asg = (List.range' n (rawLen d - n)).countP (asgNum d asg) := by
  have h : (rawAt d c n).pstate ≠ .done := hs
  have := rawLen_le d
  rw [Cursor.remaining, if_neg h, countAhead_rawAt hd asg c (d * d) n hn (by omega)]

theorem Cursor.remaining_of_done {d : Nat} (asg : BitGrid) {c : Cursor} (h : c.pstate = .done) : c.remaining d asg = 0 := by
  rw [Cursor.remaining, if_pos h]

theorem Cursor.ActiveAt.remaining {d : Nat} (hd : IsSide d) {asg : BitGrid} {c : Cursor} {n : Nat} (h : c.ActiveAt d asg n) :
    c.remaining d asg = (List.range' n (rawLen d - n)).countP (asgNum d asg) := by
  have hs : c.pstate ≠ .done := by rw [h.2.2.1]; decide
  rw [h.2.1, Cursor.remaining_rawAt hd asg h.1 hs]

/-- No position from `n` to `m` is assignable: the counts from both are the same. -/
theorem countP_skip {d : Nat} {asg : BitGrid} {n m : Nat} (hnm : n ≤ m) (hm : m ≤ rawLen d)
    (h : ∀ j, n ≤ j → j < m → asgNum d asg j = false) :
    (List.range' n (rawLen d - n)).countP (asgNum d asg) = (List.range' m (rawLen d - m)).countP (asgNum d asg) := by
  have e : List.range' n (rawLen d - n) = List.range' n (m - n) ++ List.range' m (rawLen d - m) := by
    have := List.range'_append_1 (s := n) (m := m - n) (n := rawLen d - m)
    rw [show n + (m - n) = m by omega, show m - n + (rawLen d - m) = rawLen d - n by omega] at this
    exact this.symm
  have z : (List.range' n (m - n)).countP (asgNum d asg) = 0 := by
    rw [List.countP_eq_zero]
    intro j hj
    have := List.mem_range'_1.mp hj
    rw [h j this.1 (by omega)]; decide
  rw [e, List.countP_append, z, Nat.zero_add]

/-- `seek()` from position `n` on: PBITS is kept; ACTIVE at the first assignable position, or DONE with none left (R275). -/
theorem seek_rawAt {d : Nat} (hd : IsSide d) (asg : BitGrid) (c : Cursor) {n : Nat} (hn : n < rawLen d) :
    (seek d asg (rawAt d c n)).pbits = c.pbits
    ∧ (seek d asg (rawAt d c n)).remaining d asg = (List.range' n (rawLen d - n)).countP (asgNum d asg)
    ∧ ((∃ m, n ≤ m ∧ (∀ j, n ≤ j → j < m → asgNum d asg j = false) ∧ (seek d asg (rawAt d c n)).ActiveAt d asg m
          ∧ seek d asg (rawAt d c n) = { rawAt d c m with pstate := .active })
      ∨ ((seek d asg (rawAt d c n)).pstate = .done ∧ (∀ j, n ≤ j → j < rawLen d → asgNum d asg j = false))) := by
  have hl := rawLen_le d
  rcases seekFor_rawAt hd asg c (d * d) n hn (by omega) with ⟨m, h1, h2, h3, h4, h5⟩ | ⟨h1, h2⟩
  · have ha : (seek d asg (rawAt d c n)).ActiveAt d asg m := by
      unfold seek; rw [h5]; exact ⟨h2, rfl, rfl, h3⟩
    refine ⟨by unfold seek; rw [h5]; rfl, ?_, .inl ⟨m, h1, h4, ha, h5⟩⟩
    rw [ha.remaining hd, countP_skip h1 (by omega) h4]
  · have hs : (seek d asg (rawAt d c n)).pstate = .done := by unfold seek; rw [h2]
    refine ⟨by unfold seek; rw [h2]; rfl, ?_, .inr ⟨hs, h1⟩⟩
    rw [Cursor.remaining_of_done asg hs, countP_skip (Nat.le_of_lt hn) (le_refl _) h1]; simp

/-- `step()` counts the module and goes on; one module fewer remains (R275). -/
theorem Cursor.ActiveAt.step {d : Nat} (hd : IsSide d) {asg : BitGrid} {c : Cursor} {n : Nat} (h : c.ActiveAt d asg n) :
    (c.step d asg).pbits = c.pbits + 1
    ∧ (c.step d asg).remaining d asg + 1 = c.remaining d asg
    ∧ ((∃ m, n < m ∧ (∀ j, n < j → j < m → asgNum d asg j = false) ∧ (c.step d asg).ActiveAt d asg m
          ∧ c.step d asg = { rawAt d { c with pbits := c.pbits + 1 } m with pstate := .active })
      ∨ ((c.step d asg).pstate = .done ∧ (∀ j, n < j → j < rawLen d → asgNum d asg j = false))) := by
  have hr := h.remaining hd
  obtain ⟨hn, e, hs, ha⟩ := h
  have e' : ({ c with pbits := c.pbits + 1 } : Cursor) = rawAt d { c with pbits := c.pbits + 1 } n := by
    conv_lhs => rw [e]
    rfl
  have hcount : (List.range' n (rawLen d - n)).countP (asgNum d asg)
      = (List.range' (n + 1) (rawLen d - (n + 1))).countP (asgNum d asg) + 1 := by
    rw [show rawLen d - n = (rawLen d - (n + 1)) + 1 by omega, List.range'_succ, List.countP_cons, if_pos ha]
  unfold Cursor.step
  rw [hr, hcount]
  simp only
  rw [e']
  by_cases hl : n + 1 < rawLen d
  · rw [advanceRaw_rawAt hd _ hl]
    simp only [Bool.false_eq_true, if_false]
    obtain ⟨h1, h2, h3⟩ := seek_rawAt hd asg { c with pbits := c.pbits + 1 } hl
    refine ⟨h1, by rw [h2], ?_⟩
    rcases h3 with ⟨m, q1, q2, q3⟩ | ⟨q1, q2⟩
    · exact .inl ⟨m, by omega, fun j hj => q2 j (by omega), q3⟩
    · exact .inr ⟨q1, fun j hj => q2 j (by omega)⟩
  · rw [advanceRaw_rawAt_last hd _ (by omega)]
    simp only [if_true]
    refine ⟨rfl, ?_, .inr ⟨trivial, fun j h1 h2 => by omega⟩⟩
    rw [Cursor.remaining_of_done asg rfl, show rawLen d - (n + 1) = 0 by omega]; rfl

/-- `n` steps of the cursor. -/
def Cursor.steps (d : Nat) (asg : BitGrid) : Nat → Cursor → Cursor
  | 0, c => c
  | n + 1, c => Cursor.steps d asg n (c.step d asg)

theorem placeBits_cursor (d : Nat) (asg : BitGrid) (bs : List Bool) (mod : BitGrid) (c : Cursor) :
    (placeBits d asg bs mod c).2 = c.steps d asg bs.length := by
  induction bs generalizing mod c with
  | nil => rfl
  | cons b bs ih => rw [placeBits, ih]; rfl

theorem pickBits_cursor (d : Nat) (asg mod : BitGrid) (n : Nat) (c : Cursor) :
    (pickBits d asg mod n c).2 = c.steps d asg n := by
  induction n generalizing c with
  | zero => rfl
  | succ n ih => rw [pickBits]; exact ih _

@[simp] theorem pickBits_length (d : Nat) (asg mod : BitGrid) (n : Nat) (c : Cursor) : (pickBits d asg mod n c).1.length = n := by
  induction n generalizing c with
  | zero => rfl
  | succ n ih => rw [pickBits]; simp [ih]

/-- As many steps as modules remain, or fewer: each counts one module; the cursor ends ACTIVE or DONE. -/
theorem Cursor.steps_spec {d : Nat} (hd : IsSide d) {asg : BitGrid} {k : Nat} {c : Cursor}
    (h : (∃ n, c.ActiveAt d asg n) ∨ c.pstate = .done) (hk : k ≤ c.remaining d asg) :
    (c.steps d asg k).pbits = c.pbits + k
    ∧ (c.steps d asg k).remaining d asg + k = c.remaining d asg
    ∧ ((∃ n, (c.steps d asg k).ActiveAt d asg n) ∨ (c.steps d asg k).pstate = .done) := by
  induction k generalizing c with
  | zero => exact ⟨rfl, rfl, h⟩
  | succ k ih =>
    rcases h with ⟨n, hn⟩ | hdn
    · obtain ⟨h1, h2, h3⟩ := hn.step hd
      have h3' : (∃ m, (c.step d asg).ActiveAt d asg m) ∨ (c.step d asg).pstate = .done := by
        rcases h3 with ⟨m, _, _, hm, _⟩ | ⟨hm, _⟩
        · exact .inl ⟨m, hm⟩
        · exact .inr hm
      obtain ⟨g1, g2, g3⟩ := ih h3' (by omega)
      refine ⟨?_, ?_, g3⟩
      · rw [Cursor.steps, g1, h1]; omega
      · rw [Cursor.steps]; omega
    · rw [Cursor.remaining_of_done asg hdn] at hk; omega

/-- Placing bits changes only modules passed over, which are assignable ones; the grid stays square. -/
theorem placeBits_frame {d : Nat} (hd : IsSide d) {asg : BitGrid} {bs : List Bool} {mod : BitGrid} {c : Cursor}
    (h : (∃ n, c.ActiveAt d asg n) ∨ c.pstate = .done) (hk : bs.length ≤ c.remaining d asg) :
    (BitGrid.Square d mod → BitGrid.Square d (placeBits d asg bs mod c).1)
    ∧ (∀ r k, BitGrid.get asg r k = false → BitGrid.get (placeBits d asg bs mod c).1 r k = BitGrid.get mod r k)
    ∧ ∀ n, c.ActiveAt d asg n → ∀ j, j < n → ∀ c' : Cursor,
        BitGrid.get (placeBits d asg bs mod c).1 (rawAt d c' j).py (rawAt d c' j).col
          = BitGrid.get mod (rawAt d c' j).py (rawAt d c' j).col := by
  induction bs generalizing mod c with
  | nil => exact ⟨id, fun _ _ _ => rfl, fun _ _ _ _ _ => rfl⟩
  | cons b bs ih =>
    rcases h with ⟨n, hn⟩ | hdn
    · obtain ⟨h1, h2, h3⟩ := hn.step hd
      have h3' : (∃ m, (c.step d asg).ActiveAt d asg m) ∨ (c.step d asg).pstate = .done := by
        rcases h3 with ⟨m, _, _, hm, _⟩ | ⟨hm, _⟩
        · exact .inl ⟨m, hm⟩
        · exact .inr hm
      rw [List.length_cons] at hk
      obtain ⟨g1, g2, g3⟩ := ih (mod := BitGrid.set mod c.py c.col b) h3' (by omega)
      refine ⟨fun hq => g1 (BitGrid.square_set hq _ _ _), fun r k hrk => ?_, fun n' hn' j hj c' => ?_⟩
      · rw [placeBits, g2 r k hrk, BitGrid.get_set_ne]
        rintro ⟨rfl, rfl⟩
        have := hn.onAssignable
        rw [Cursor.onAssignable, hrk] at this; exact absurd this (by decide)
      · have hnn : n = n' := by
          have e1 := hn.2.1; have e2 := hn'.2.1
          exact rawAt_inj hd c c hn.1 hn'.1 (by rw [← e1, ← e2]) (by rw [← e1, ← e2])
        subst hnn
        have hne : BitGrid.get (BitGrid.set mod c.py c.col b) (rawAt d c' j).py (rawAt d c' j).col
            = BitGrid.get mod (rawAt d c' j).py (rawAt d c' j).col := by
          apply BitGrid.get_set_ne
          rintro ⟨q1, q2⟩
          have e1 := hn.2.1
          have := rawAt_inj hd c' c (show j < rawLen d by have := hn.1; omega) hn.1 (by rw [q1, ← e1]) (by rw [q2, ← e1])
          omega
        rw [placeBits]
        rcases h3 with ⟨m, hm1, _, hm, _⟩ | ⟨hm, _⟩
        · rw [g3 m hm j (by omega) c', hne]
        · rw [Cursor.remaining_of_done asg hm] at h2
          have : bs = [] := List.length_eq_zero_iff.mp (by omega)
          subst this
          exact hne
    · rw [Cursor.remaining_of_done asg hdn, List.length_cons] at hk; omega

/-- What is placed along a traversal is picked up again from the same cursor (R278-R281). -/
theorem pickBits_placeBits {d : Nat} (hd : IsSide d) {asg : BitGrid} {bs : List Bool} {mod : BitGrid} {c : Cursor}
    (hq : BitGrid.Square d mod) (h : (∃ n, c.ActiveAt d asg n) ∨ c.pstate = .done) (hk : bs.length ≤ c.remaining d asg) :
    (pickBits d asg (placeBits d asg bs mod c).1 bs.length c).1 = bs := by
  induction bs generalizing mod c with
  | nil => rfl
  | cons b bs ih =>
    rcases h with ⟨n, hn⟩ | hdn
    · obtain ⟨h1, h2, h3⟩ := hn.step hd
      have h3' : (∃ m, (c.step d asg).ActiveAt d asg m) ∨ (c.step d asg).pstate = .done := by
        rcases h3 with ⟨m, _, _, hm, _⟩ | ⟨hm, _⟩
        · exact .inl ⟨m, hm⟩
        · exact .inr hm
      rw [List.length_cons] at hk
      have hsq := BitGrid.square_set hq c.py c.col b
      have hfirst : BitGrid.get (placeBits d asg bs (BitGrid.set mod c.py c.col b) (c.step d asg)).1 c.py c.col = b := by
        have hset := BitGrid.get_set_same hq (hn.py_lt hd) (hn.col_lt hd) b
        rcases h3 with ⟨m, hm1, _, hm, _⟩ | ⟨hm, _⟩
        · have := (placeBits_frame hd (bs := bs) (mod := BitGrid.set mod c.py c.col b) h3' (by omega)).2.2 m hm n hm1 c
          rw [← hn.2.1] at this
          rw [this, hset]
        · rw [Cursor.remaining_of_done asg hm] at h2
          have : bs = [] := List.length_eq_zero_iff.mp (by omega)
          subst this
          exact hset
      rw [placeBits, List.length_cons, pickBits]
      simp only
      rw [hfirst, ih hsq h3' (by omega)]
    · rw [Cursor.remaining_of_done asg hdn, List.length_cons] at hk; omega

/-- PBEGIN's cursor: PBITS 0 and every assignable module outside column 6 ahead (R277, R276). -/
theorem beginCursor_spec {d : Nat} (hd : IsSide d) (asg : BitGrid) :
    (beginCursor d asg).pbits = 0 ∧ (beginCursor d asg).remaining d asg = freeCount d asg
    ∧ ((∃ m, (∀ j, j < m → asgNum d asg j = false) ∧ (beginCursor d asg).ActiveAt d asg m
          ∧ beginCursor d asg = { rawAt d (startCursor d) m with pstate := .active })
      ∨ ((beginCursor d asg).pstate = .done ∧ (∀ j, j < rawLen d → asgNum d asg j = false))) := by
  have hpos : 0 < rawLen d := Nat.mul_pos (by have := hd.2; omega) (by have := hd.2; omega)
  obtain ⟨h1, h2, h3⟩ := seek_rawAt hd asg (startCursor d) hpos
  rw [Nat.sub_zero, countP_asgNum hd asg, ← startCursor_eq hd] at h2
  rw [← startCursor_eq hd] at h1 h3
  refine ⟨h1, h2, ?_⟩
  rcases h3 with ⟨m, _, q2, q3⟩ | ⟨q1, q2⟩
  · exact .inl ⟨m, fun j => q2 j (Nat.zero_le j), q3⟩
  · exact .inr ⟨q1, fun j => q2 j (Nat.zero_le j)⟩

end Sys2Proof.Machine
end

