-- ==== Sys2Proof/Tests/Slice0.lean ====
section
/-! SUPPORT. The model's own tests: words written from the encodings, one step per test with results from the spec's examples
and vectors (95_test_vectors.md), and a witness for the hypotheses of every statement that has some. -/

namespace Sys2Proof.Tests

open Sys2Proof Sys2Proof.Machine

set_option Elab.async false

abbrev Result := Host.Outcome State Fault Refusal

/-- What `f` reads of the next state; none for a stop. -/
def seen {α : Type} (o : Result) (f : State → α) : Option α :=
  match o with
  | .next t => some (f t)
  | .fault _ => none
  | .refused _ => none

/-- The next state; the reset state for a stop. -/
def nextOf (o : Result) : State :=
  match o with
  | .next t => t
  | .fault _ => .reset
  | .refused _ => .reset

theorem eq_next_of_seen {o : Result} (h : (seen o fun _ => ()) = some ()) : o = .next (nextOf o) := by
  cases o <;> first | rfl | cases h

/-- A reset machine with ARG0 and ARG1. -/
def args (x y : Word) : State := { State.reset with arg0 := x, arg1 := y }

/-- A machine with ARG0, S0 and S1. -/
def two (x : Word) (a b : Stream) : State := { State.reset with arg0 := x, streams := { State.reset.streams with s0 := a, s1 := b } }

/-- A machine with the host's next access. -/
def host (a : Access) : State := { State.reset with host := { pending := [a], response := none } }

/-- What a command changes of streams: bits, cursor, count, capacity. -/
def shape (st : Stream) : List Bool × Nat × Nat × Nat := (st.bits, st.pos, st.count, st.cap)

def code (s : State) : ErrCode := s.status.lastErr

/-- The bytes of the version-1 example: data, then EC (V-RS-2). -/
def isoData : List Byte :=
  [0x10, 0x20, 0x0C, 0x56, 0x61, 0x80, 0xEC, 0x11, 0xEC, 0x11, 0xEC, 0x11, 0xEC, 0x11, 0xEC, 0x11]
def isoEc : List Byte := [0xA5, 0x24, 0xD4, 0xC1, 0xED, 0x36, 0xC7, 0x87, 0x2C, 0x55]

/-- A stream holding the bytes, the cursor at 0. -/
def byteStream (ds : List Byte) : Stream := { pos := 0, cap := 8 * ds.length, bits := ds.flatMap byteBits }

/-- RSGEN k was executed. -/
def gen (k : BitVec 6) : State := nextOf (exec (.rsgen k) State.reset)

/-- GINIT 1 was executed. -/
def grid1 : State := nextOf (exec (.ginit 1) State.reset)

/-! ## Decoding (30_encoding.md): one word per command, the fields in the order of its format -/

theorem test_decode_control :
    decode 0b00000000_000000000000000000000000#32 = .ok .nop
    ∧ decode 0b00000001_000000000000000000000000#32 = .ok .clrerr
    ∧ decode 0b00000010_000000000000000000000000#32 = .ok .reset := by
  decide +kernel

theorem test_decode_streams :
    decode 0b00010000_11_00_000000_00000000000000#32 = .ok (.screate .s3)
    ∧ decode 0b00010001_11_00_000000_00000000000000#32 = .ok (.sresize .s3)
    ∧ decode 0b00010010_01_10_000000_00000000000000#32 = .ok (.sdup .s1 .s2)
    ∧ decode 0b00010011_11_00_000000_00000000000000#32 = .ok (.sseek .s3)
    ∧ decode 0b00010100_11_00_000000_00000000000000#32 = .ok (.stell .s3)
    ∧ decode 0b00010101_11_00_000000_00000000000000#32 = .ok (.sremain .s3)
    ∧ decode 0b00010110_10_00_000001_00000000000000#32 = .ok (.sread .s2 1)
    ∧ decode 0b00010111_01_00_100000_00000000000000#32 = .ok (.swrite .s1 32)
    ∧ decode 0b00011000_11_01_000000_00000000000000#32 = .ok (.scopy .s3 .s1)
    ∧ decode 0b00011001_11_01_000000_00000000000000#32 = .ok (.sconcat .s3 .s1) := by
  decide +kernel

theorem test_decode_gf_rs :
    decode 0b00100000_00000000_01010011_11001010#32 = .ok (.gfmul 0x53 0xCA)
    ∧ decode 0b00100001_000000000000000000000000#32 = .ok .polymod
    ∧ decode 0b00100010_00_00_111111_00000000000000#32 = .ok (.rsgen 63)
    ∧ decode 0b00100011_000000000000000000000000#32 = .ok .rsclr
    ∧ decode 0b00100100_00000000_00000000_11001010#32 = .ok (.rsfeedi 0xCA)
    ∧ decode 0b00100101_11_00_000000_00000000000000#32 = .ok (.rsfeed .s3)
    ∧ decode 0b00100110_11_00_000000_00000000000000#32 = .ok (.rsemit .s3)
    ∧ decode 0b00100111_11_00_000000_00000000000000#32 = .ok (.rssyn .s3)
    ∧ decode 0b00101000_00_00_100000_00000000000000#32 = .ok (.rsrdg 32)
    ∧ decode 0b00101001_00_00_001000_00000000000000#32 = .ok (.rsrdr 8)
    ∧ decode 0b00101010_00_00_001000_00000000000000#32 = .ok (.rsrds 8) := by
  decide +kernel

theorem test_decode_bch :
    decode 0b00110000_00000000_00000000_00011101#32 = .ok (.fmtenc 0x1D)
    ∧ decode 0b00110001_000000000000000000000000#32 = .ok .fmtdec
    ∧ decode 0b00110010_000000000000000000000000#32 = .ok .fmtdec2
    ∧ decode 0b00110011_00000000_00000000_00101000#32 = .ok (.verenc 0x28)
    ∧ decode 0b00110100_000000000000000000000000#32 = .ok .verdec
    ∧ decode 0b00110101_000000000000000000000000#32 = .ok .dimchk := by
  decide +kernel

theorem test_decode_grid :
    decode 0b01000000_00000000_00000000_00000111#32 = .ok (.ginit 0x7)
    ∧ decode 0b01000001_00010100_00001000_00000001#32 = .ok (.modw 20 8 1)
    ∧ decode 0b01000010_00010100_00001000_00000000#32 = .ok (.modr 20 8)
    ∧ decode 0b01000011_00010100_00001000_00000001#32 = .ok (.amw 20 8 1)
    ∧ decode 0b01000100_00010100_00001000_00000000#32 = .ok (.modw32 20 8)
    ∧ decode 0b01000101_00010100_00001000_00000000#32 = .ok (.modr32 20 8)
    ∧ decode 0b01001000_000000000000000000000000#32 = .ok .pbegin
    ∧ decode 0b01001001_00_00_001000_00000000000000#32 = .ok (.pwrite 8)
    ∧ decode 0b01001010_00_00_001000_00000000000000#32 = .ok (.pread 8)
    ∧ decode 0b01001011_11_00_000000_00000000000000#32 = .ok (.pstore .s3)
    ∧ decode 0b01001100_11_00_000000_00000000000000#32 = .ok (.pload .s3) := by
  decide +kernel

theorem test_decode_mask :
    decode 0b01010000_00000000_00000000_00000110#32 = .ok (.mapply 0x6)
    ∧ decode 0b01010001_00_00_000100_00000000000000#32 = .ok (.mscore 4)
    ∧ decode 0b01010010_000000000000000000000000#32 = .ok .mselect := by
  decide +kernel

/-- V-CTL-1: the illegal words, by the condition that fails. -/
theorem test_illegal_words :
    ([0x00000001#32, 0x01000100, 0x16000001, 0x16100000, 0x12404000, 0x20010000, 0x24000100].all fun w =>
      decide (decode w = .error .reservedField)) = true
    ∧ ([0x16090000#32, 0x18500000, 0x19F00000, 0x30000020, 0x41000002, 0x49000000, 0x49024000, 0x4A000000, 0x50000008,
        0x51014000].all fun w => decide (decode w = .error .illegalValue)) = true
    ∧ ([0x03#8, 0x0F, 0x1A, 0x1F, 0x2B, 0x2F, 0x36, 0x3F, 0x46, 0x47, 0x4D, 0x4F, 0x53, 0xFF].all fun o =>
        decide (decode (o ++ 0#24) = .error (.unassignedOpcode o))) = true := by
  decide +kernel

/-- An ill-formed command for each check of WellFormed.lean, and the last legal value of each. -/
theorem test_wellformed_smoke :
    (Instr.sread .s0 33).wf = false ∧ (Instr.swrite .s0 33).wf = false
    ∧ (Instr.scopy .s1 .s1).wf = false ∧ (Instr.sconcat .s3 .s3).wf = false
    ∧ (Instr.fmtenc 32).wf = false ∧ (Instr.modw 0 0 2).wf = false ∧ (Instr.amw 0 0 2).wf = false
    ∧ (Instr.pwrite 0).wf = false ∧ (Instr.pwrite 9).wf = false ∧ (Instr.pread 0).wf = false ∧ (Instr.pread 9).wf = false
    ∧ (Instr.mapply 8).wf = false ∧ (Instr.mscore 5).wf = false
    ∧ (Instr.sread .s0 32).wf = true ∧ (Instr.scopy .s1 .s2).wf = true ∧ (Instr.fmtenc 31).wf = true
    ∧ (Instr.modw 255 255 1).wf = true ∧ (Instr.pwrite 1).wf = true ∧ (Instr.pread 8).wf = true
    ∧ (Instr.mapply 7).wf = true ∧ (Instr.mscore 4).wf = true := by
  decide

/-- The host's view: a table word, and step on it from reset (V-CTL-1: GINIT 40 gives GRIDCFG = 0x0000B128). -/
theorem test_table_word : decodeTableWord 32 0x12800000 = some (.sdup .s2 .s0) ∧ decodeTableWord 32 0x03000000 = none := by
  decide +kernel
theorem test_step_from_reset :
    seen (step (State.reset.withFetchWord 32 0x22080000)) (fun t => (readReg t .status, readReg t .rscfg)) = some (0, 32)
    ∧ seen (step (State.reset.withFetchWord 32 0x03000000)) (fun t => readReg t .status) = some 0x66 := by
  decide +kernel



/-! ## Control (R140-R142, V-CTL-2) -/

theorem test_nop : seen (exec .nop (State.reset.withError .range)) (readReg · .status) = some 0x30 := by decide
theorem test_clrerr : seen (exec .clrerr (State.reset.withError .range)) (readReg · .status) = some 0 := by decide
theorem test_reset : seen (exec .reset (gen 7)) id = some State.reset := by decide +kernel

/-! ## Bit streams (41_bitstream.md) -/

/-- The bits 10110101011. -/
def bits11 : List Bool := [true, false, true, true, false, true, false, true, false, true, true]

theorem test_screate : seen (exec (.screate .s1) (two 0 .empty ⟨5, 16, bits11.take 9⟩)) (shape ·.streams.s1) = some ([], 0, 0, 0) := by
  decide
theorem test_sresize : seen (exec (.sresize .s0) (two 100 ⟨0, 16, bits11⟩ .empty)) (fun t => (t.streams.s0.cap, code t)) = some (104, .ok) := by
  decide
theorem test_sresize_errors :
    seen (exec (.sresize .s0) (two 10 ⟨0, 16, bits11⟩ .empty)) (fun t => (t.streams.s0.cap, code t)) = some (16, .range)
    ∧ seen (exec (.sresize .s0) (two 32769 .empty .empty)) (fun t => (t.streams.s0.cap, code t)) = some (0, .alloc) := by
  decide
theorem test_sdup : seen (exec (.sdup .s2 .s0) (two 0 ⟨2, 8, [true, false, true, true]⟩ .empty)) (shape ·.streams.s2)
    = some ([true, false, true, true], 2, 4, 8) := by decide
theorem test_sseek : seen (exec (.sseek .s0) (two 11 ⟨0, 16, bits11⟩ .empty)) (fun t => (t.streams.s0.pos, code t)) = some (11, .ok) := by
  decide
theorem test_sseek_range : seen (exec (.sseek .s0) (two 12 ⟨3, 16, bits11⟩ .empty)) (fun t => (t.streams.s0.pos, code t)) = some (3, .range) := by
  decide
theorem test_stell : seen (exec (.stell .s0) (two 0 ⟨4, 16, bits11⟩ .empty)) (·.result) = some 4 := by decide
theorem test_sremain : seen (exec (.sremain .s0) (two 0 ⟨4, 16, bits11⟩ .empty)) (·.result) = some 7 := by decide
theorem test_sread : seen (exec (.sread .s0 4) (two 0 ⟨0, 16, bits11⟩ .empty)) (fun t => (t.result, t.streams.s0.pos)) = some (0xB, 4) := by
  decide
theorem test_swrite : seen (exec (.swrite .s0 3) (two 5 .empty .empty)) (shape ·.streams.s0) = some ([true, false, true], 3, 3, 8) := by
  decide
theorem test_swrite_inside :
    seen (exec (.swrite .s0 4) (two 0xF { pos := 16, cap := 32, bits := wordBits 32 0xDEADBEEF } .empty)) (shape ·.streams.s0)
      = some (wordBits 20 0xDEADF, 20, 20, 32) := by
  decide +kernel
theorem test_scopy : seen (exec (.scopy .s0 .s1) (two 3 .empty ⟨0, 8, [true, false, true, true]⟩)) (fun t => (shape t.streams.s0, t.streams.s1.pos))
    = some (([true, false, true], 3, 3, 8), 3) := by decide
theorem test_sconcat : seen (exec (.sconcat .s0 .s1) (two 0 ⟨2, 8, [true, true, true, true, true, true]⟩ ⟨2, 8, [false, true]⟩))
    (fun t => (shape t.streams.s0, t.streams.s1.pos)) = some (([true, true, false, true], 4, 4, 8), 2) := by decide

/-! ## GF(256) and Reed-Solomon (42_gf_rs.md) -/

theorem test_gfmul : seen (exec (.gfmul 0x53 0xCA) State.reset) (·.result) = some 0x8F := by decide +kernel
theorem test_gfmul_reduces : seen (exec (.gfmul 0xFF 0xFF) State.reset) (·.result) = some 0xE2 := by decide +kernel
theorem test_polymod : seen (exec .polymod (args 0x1C00 0x537)) (·.result) = some 0x2B2 := by decide +kernel
theorem test_polymod_corners :
    seen (exec .polymod (args 0xFFFFFFFF 0x1)) (·.result) = some 0 ∧ seen (exec .polymod (args 7 0)) code = some .range := by
  decide +kernel
theorem test_rsgen : seen (exec (.rsgen 7) State.reset) (fun t => (t.rs.k, (List.range 9).map (byteAt t.rs.g)))
    = some (7, [0x75, 0x44, 0x0B, 0xA4, 0x9A, 0x7A, 0x7F, 0x01, 0]) := by decide +kernel
theorem test_rsgen_range : seen (exec (.rsgen 33) State.reset) code = some .range := by decide +kernel
theorem test_rsfeedi : seen (exec (.rsfeedi 0x10) (gen 10)) (fun t => (List.range 10).map (byteAt t.rs.r))
    = some [0x8C, 0x25, 0x43, 0x99, 0x89, 0xEC, 0xBE, 0x05, 0xBC, 0x01] := by decide +kernel

/-- R202's state before RSFEED. -/
def beforeFeed : State := { gen 10 with arg0 := 16, streams := { State.reset.streams with s0 := byteStream isoData } }

/-- R202's state after RSFEED. -/
def fed : State := nextOf (exec (.rsfeed .s0) beforeFeed)

theorem test_rsfeed : seen (exec (.rsfeed .s0) beforeFeed)
    (fun t => ((List.range 10).map fun j => byteAt t.rs.r (9 - j), t.streams.s0.pos)) = some (isoEc, 128) := by decide +kernel
theorem test_rsclr : seen (exec .rsclr fed) (fun t => (t.rs.r, t.rs.g == fed.rs.g, t.rs.k)) = some (Vector.replicate 32 0, true, 10) := by
  decide +kernel
theorem test_rsemit : seen (exec (.rsemit .s1) fed) (shape ·.streams.s1) = some (isoEc.flatMap byteBits, 80, 80, 80) := by
  decide +kernel
theorem test_rssyn_clean :
    seen (exec (.rssyn .s0) { gen 10 with arg0 := 26, streams := { State.reset.streams with s0 := byteStream (isoData ++ isoEc) } })
      (fun t => (t.status.synz, t.rs.syn)) = some (true, Vector.replicate 32 0) := by
  decide +kernel

/-- R205's error example after RSSYN: the sixth byte is 0x81. -/
def syndromed : State :=
  nextOf (exec (.rssyn .s0)
    { gen 10 with arg0 := 26, streams := { State.reset.streams with s0 := byteStream ((isoData ++ isoEc).set 5 0x81) } })

theorem test_rssyn_error : (syndromed.status.synz, (List.range 11).map (byteAt syndromed.rs.syn))
    = (false, [0x01, 0xB4, 0x6A, 0xB9, 0xFD, 0x11, 0x3B, 0x84, 0xE6, 0x96, 0]) := by decide +kernel
theorem test_rsrdg : seen (exec (.rsrdg 1) (gen 2)) (·.result) = some 0x03 := by decide +kernel
theorem test_rsrdr : seen (exec (.rsrdr 9) fed) (·.result) = some 0xA5 := by decide +kernel
theorem test_rsrds : seen (exec (.rsrds 1) syndromed) (·.result) = some 0xB4 := by decide +kernel

/-! ## BCH (43_bch.md) -/

theorem test_fmtenc : seen (exec (.fmtenc 2) State.reset) (·.result) = some 0x5E7C ∧ seen (exec (.fmtenc 0x1D) State.reset) (·.result) = some 0x2183 := by
  decide +kernel
theorem test_fmtdec : seen (exec .fmtdec (args 0x5E7C 0)) (fun t => (t.result, t.status.fchk)) = some (2, true)
    ∧ seen (exec .fmtdec (args 0x1E7D 0)) (fun t => (t.result, t.status.fchk)) = some (0x12, false) := by decide +kernel
theorem test_fmtdec2 : seen (exec .fmtdec2 (args 0x1E7D 0x5E7C)) (fun t => (t.result, t.status.fsel, t.status.fchk)) = some (2, true, true) := by
  decide +kernel
theorem test_fmtdec2_malformed : seen (exec .fmtdec2 (args 0x1E7D 0x1E7D)) code = some .malformed := by decide +kernel
theorem test_verenc : seen (exec (.verenc 7) State.reset) (·.result) = some 0x07C94 ∧ seen (exec (.verenc 41) State.reset) code = some .range := by
  decide +kernel
theorem test_verdec : seen (exec .verdec (args 0x07C93 0)) (·.result) = some 0x0307 := by decide +kernel
theorem test_verdec_corners : seen (exec .verdec (args 0 0)) (·.result) = some 0x0807
    ∧ seen (exec .verdec (args 0x3FFFF 0)) (·.result) = some 0x060B ∧ seen (exec .verdec (args 0x40000 0)) code = some .range := by
  decide +kernel
theorem test_dimchk : seen (exec .dimchk (args 45 45)) (·.result) = some 7 ∧ seen (exec .dimchk (args 45 49)) code = some .invalidSize := by
  decide +kernel

/-! ## Module grid and placement (44_grid_layout.md) -/

theorem test_ginit : (readReg grid1 .gridcfg, readReg grid1 .pcur, grid1.cursor.pstate, readReg grid1 .pbits)
    = (0x00001501, 0x00011414, .active, 0) := by decide +kernel

/-- An instance with another alignment table: version 2's centres are 6 and 14. -/
def otherTable : State := { State.reset with alignTable := [[], [6, 14]] }

/-- R265: the square around (14, 14) is reserved and (18, 18), a centre of the default table, is assignable. -/
theorem test_ginit_other_table :
    seen (exec (.ginit 2) otherTable) (fun t => (t.asgAt 12 16, t.asgAt 17 14, t.asgAt 18 18, t.alignTable)) = some (false, true, true, [[], [6, 14]])
    ∧ seen (exec (.ginit 2) State.reset) (fun t => t.asgAt 18 18) = some false
    ∧ seen (exec .reset otherTable) (·.alignTable) = some [[], [6, 14]] := by
  decide +kernel

/-- AMW 20, 20, 0 after GINIT 1. -/
def amwDone : State := nextOf (exec (.amw 20 20 0) grid1)

theorem test_modw : seen (exec (.modw 20 8 1) grid1) (fun t => (t.modAt 20 8, t.modAt 8 20)) = some (true, false) := by decide +kernel
theorem test_modr : seen (exec (.modr 20 20) grid1) (·.result) = some 2 ∧ seen (exec (.modr 0 0) grid1) (·.result) = some 0 := by
  decide +kernel
theorem test_amw : (amwDone.asgAt 20 20, amwDone.cursor.pstate) = (false, .idle) := by decide +kernel
theorem test_pbegin : seen (exec .pbegin amwDone) (readReg · .pcur) = some 0x00031413 := by decide +kernel

/-- R272's example. -/
def rowWritten : State := nextOf (exec (.modw32 0 0) { grid1 with arg0 := 0xFE000000 })

theorem test_modw32 : (rowWritten.modAt 0 6, rowWritten.modAt 0 7, rowWritten.modAt 1 0) = (true, false, false) := by decide +kernel
theorem test_modr32 : seen (exec (.modr32 0 0) rowWritten) (·.result) = some 0xFE000000
    ∧ seen (exec (.modr32 0 16) rowWritten) (·.result) = some 0 := by decide +kernel
theorem test_pwrite : seen (exec (.pwrite 8) { grid1 with arg0 := 0x40 })
    (fun t => (t.modAt 20 19, t.modAt 20 20, readReg t .pcur, t.cursor.pbits)) = some (true, false, 0x00011014, 8) := by decide +kernel

/-- R278's example, and the cursor at the start again. -/
def written : State := { nextOf (exec (.pwrite 8) { grid1 with arg0 := 0x40 }) with cursor := grid1.cursor }

theorem test_pread : seen (exec (.pread 8) written) (fun t => (t.result, t.cursor.pbits)) = some (0x40, 8) := by decide +kernel

/-- R280's example. -/
def stored : State :=
  nextOf (exec (.pstore .s0) { grid1 with arg0 := 208, streams := { State.reset.streams with s0 := byteStream (isoData ++ isoEc) } })

theorem test_pstore : (code stored, stored.cursor.pstate, stored.cursor.pbits, stored.streams.s0.pos) = (.ok, .done, 208, 208) := by
  decide +kernel
theorem test_pload : seen (exec (.pload .s2) { stored with cursor := grid1.cursor }) (fun t => (t.streams.s2.bits, t.streams.s2.pos))
    = some ((isoData ++ isoEc).flatMap byteBits, 208) := by decide +kernel

/-! ## Mask unit (45_mask.md) -/

theorem test_mapply : seen (exec (.mapply 0) grid1) (fun t => (darkCount 21 t.grid.mod, readRow32 21 t.grid.mod 0 0, readRow32 21 t.grid.mod 1 0))
    = some (104, 0x00280000, 0x00500000) := by decide +kernel
theorem test_mscore : seen (exec (.mscore 0) grid1) (·.result) = some 2098
    ∧ seen (exec (.mscore 1) grid1) (·.result) = some 798 ∧ seen (exec (.mscore 2) grid1) (·.result) = some 1200
    ∧ seen (exec (.mscore 3) grid1) (·.result) = some 0 ∧ seen (exec (.mscore 4) grid1) (·.result) = some 100 := by decide +kernel
theorem test_mselect : seen (exec .mselect grid1) (fun t => (t.mask.scores, t.mask.best, t.result))
    = some (#v[982, 1219, 1409, 1112, 1195, 1188, 1122, 1072], 0, 0) := by decide +kernel

/-! ## Witnesses: for each statement with hypotheses, a concrete state and operands that meet them, by clause -/

theorem witness_DecodeEncodeRoundTrip : (Instr.swrite .s3 32).wf = true ∧ (Instr.pread 1).wf = true ∧ (Instr.amw 255 255 1).wf = true := by
  decide

theorem witness_StepIssuesCommandWord :
    (host (.write 0x004 4 0x16080000)).host.pending = .write 0x004 4 0x16080000 :: []
    ∧ decode 0x16080000 = .ok (.sread .s0 32) ∧ decode 0x50000008 = .error .illegalValue := by
  decide +kernel

theorem witness_HostAccessEffects :
    0x0FC % 4 = 0 ∧ 0x000 % 4 = 0 ∧ Reg.ofOffset 0x000 = some .id ∧ Reg.ofOffset 0x098 = some (.scap .s3) ∧ Reg.ofOffset 0x0FC = none ∧ (host (.read 0x0FC 4)).host.pending = .read 0x0FC 4 :: []
    ∧ (host (.write 0x008 4 7)).host.pending = .write 0x008 4 7 :: [] ∧ (host (.write 0x00C 4 7)).host.pending = .write 0x00C 4 7 :: []
    ∧ (host (.write 0x0FC 4 7)).host.pending = .write 0x0FC 4 7 :: [] ∧ State.reset.host.pending = [] := by
  decide

theorem witness_UnsupportedAccessIsRefused :
    (host (.read 0x0FC 4)).host.pending = .read 0x0FC 4 :: [] ∧ (4 = 4 ∧ 0x0FC % 4 = 0 ∧ 0x0FC ≤ 0x0FC)
    ∧ (host (.write 0x100 4 0)).host.pending = .write 0x100 4 0 :: [] ∧ ¬(4 = 4 ∧ 0x100 % 4 = 0 ∧ 0x100 ≤ 0x0FC)
    ∧ ¬(2 = 4 ∧ 0x008 % 4 = 0 ∧ 0x008 ≤ 0x0FC) ∧ ¬(4 = 4 ∧ 0x009 % 4 = 0 ∧ 0x009 ≤ 0x0FC) := by
  decide

theorem witness_RegisterMapIsFaithful :
    Reg.ofOffset 0x02C = none ∧ Reg.ofOffset 0x028 = some .best ∧ Reg.ofOffset 0x03C = none ∧ Reg.ofOffset 0x040 = some (.score 0)
    ∧ Reg.ofOffset 0x05C = some (.score 7) ∧ Reg.ofOffset 0x098 = some (.scap .s3) ∧ Reg.ofOffset 0x09C = none
    ∧ Reg.ofOffset 0x0A0 = none ∧ Reg.ofOffset 0x0FC = none := by
  decide

theorem witness_RegistersReadTheirFields : grid1.cursor.pstate = .active ∧ State.reset.cursor.pstate ≠ .active := by decide +kernel

theorem witness_EveryCommandCompletesWithItsErrors : (Instr.mapply 8).wf = false ∧ (Instr.mapply 7).wf = true := by decide

theorem witness_FailingCommandChangesOnlyErrorFields :
    (∃ t, issue 0x16004000 State.reset = .next t ∧ t.status.lastErr ≠ .ok)
    ∧ ∃ t, exec (.rsgen 33) State.reset = .next t ∧ t.status.lastErr ≠ .ok :=
  ⟨⟨_, eq_next_of_seen (by decide +kernel), by decide +kernel⟩, _, eq_next_of_seen (by decide +kernel), by decide +kernel⟩

theorem witness_FirstErrIsSticky :
    (∃ t, issue 0x03000000 State.reset = .next t ∧ decode 0x03000000 ≠ .ok .clrerr ∧ decode 0x03000000 ≠ .ok .reset)
    ∧ ∃ t, step { host (.write 0x004 4 0x01000000) with status := { State.reset.status with firstErr := .range } } = .next t
        ∧ t.status.firstErr = .ok :=
  ⟨⟨_, eq_next_of_seen (by decide +kernel), by decide +kernel, by decide +kernel⟩, _, eq_next_of_seen (by decide +kernel),
    by decide +kernel⟩

theorem witness_OperandAndResultRegistersAreWrittenAsListed :
    (∃ t, exec (.screate .s0) State.reset = .next t ∧ Instr.screate .s0 ≠ .reset ∧ (Instr.screate .s0).writesResult = false)
    ∧ ∃ t, exec (.sread .s0 1) State.reset = .next t ∧ t.status.lastErr ≠ .ok :=
  ⟨⟨_, eq_next_of_seen (by decide +kernel), by decide, by decide⟩, _, eq_next_of_seen (by decide +kernel), by decide +kernel⟩

theorem witness_GridChecksComeFirst :
    (Instr.modw 21 0 1).wf = true ∧ (Instr.modw 21 0 1).needsGrid = true ∧ State.reset.grid.gvalid = false
    ∧ (Instr.modw 21 0 1).coords = some (21, 0) ∧ grid1.grid.dim ≤ (21 : Byte).toNat ∧ grid1.grid.dim ≤ (255 : Byte).toNat := by
  decide +kernel

theorem witness_ControlCommandEffects : (host .reset).host.pending = .reset :: [] := rfl

/-- A full stream: pos = count = cap = 32768. -/
def full : Stream := { pos := 32768, cap := 32768, bits := List.replicate 32768 false }

theorem full_count : full.count = 32768 := List.length_replicate
theorem full_wf : full.Wf := ⟨full_count.ge, full_count.le, Nat.le_refl _, rfl⟩

theorem witness_StreamDescriptorAndCursorEffects :
    (let s := two 10 ⟨0, 16, bits11⟩ .empty; s.arg0.toNat < (s.stream .s0).count)
    ∧ (let s := two 32769 .empty .empty; (s.stream .s0).count ≤ s.arg0.toNat ∧ 32768 < s.arg0.toNat)
    ∧ (let s := two 11 ⟨0, 16, bits11⟩ .empty; (s.stream .s0).count ≤ s.arg0.toNat ∧ s.arg0.toNat ≤ 32768)
    ∧ (let s := two 12 ⟨0, 16, bits11⟩ .empty; (s.stream .s0).count < s.arg0.toNat)
    ∧ (let s := two 11 ⟨0, 16, bits11⟩ .empty; s.arg0.toNat ≤ (s.stream .s0).count) := by
  decide +kernel

theorem witness_SreadReturnsNextBits :
    let s := two 0 ⟨4, 16, bits11⟩ .empty
    (8 : BitVec 6).toNat ≤ 32 ∧ (s.stream .s0).count - (s.stream .s0).pos < (8 : BitVec 6).toNat
    ∧ (7 : BitVec 6).toNat ≤ (s.stream .s0).count - (s.stream .s0).pos ∧ (32 : BitVec 6).toNat ≤ 32 := by
  decide +kernel

theorem witness_SwriteStoresAtCursor :
    (let s := two 0 full .empty
     (s.stream .s0).pos ≤ (s.stream .s0).count ∧ 32768 < (s.stream .s0).pos + (1 : BitVec 6).toNat
       ∧ (s.stream .s0).pos + (0 : BitVec 6).toNat ≤ 32768)
    ∧ (let s := two 0 ⟨5, 16, bits11⟩ .empty
       (s.stream .s0).pos ≤ (s.stream .s0).count ∧ (s.stream .s0).cap < (s.stream .s0).pos + (12 : BitVec 6).toNat
         ∧ (s.stream .s0).pos + (11 : BitVec 6).toNat ≤ (s.stream .s0).cap) :=
  ⟨⟨full_count.ge, by decide, by decide⟩, by decide +kernel⟩

theorem witness_ScopyAndSconcatMoveBits :
    (StreamId.s0 ≠ StreamId.s1)
    ∧ (let s := two 12 .empty ⟨0, 16, bits11⟩
       (s.stream .s0).pos ≤ (s.stream .s0).count ∧ (s.stream .s1).count - (s.stream .s1).pos < s.arg0.toNat)
    ∧ (let s := two 11 full ⟨0, 16, bits11⟩
       (s.stream .s0).pos ≤ (s.stream .s0).count ∧ 0 < s.arg0.toNat ∧ s.arg0.toNat ≤ (s.stream .s1).count - (s.stream .s1).pos
         ∧ 32768 < (s.stream .s0).pos + s.arg0.toNat ∧ 0 < (s.stream .s1).count ∧ 32768 < (s.stream .s0).pos + (s.stream .s1).count)
    ∧ (let s := two 11 .empty ⟨0, 16, bits11⟩
       0 < s.arg0.toNat ∧ s.arg0.toNat ≤ (s.stream .s1).count - (s.stream .s1).pos ∧ (s.stream .s0).pos + s.arg0.toNat ≤ 32768
         ∧ 0 < (s.stream .s1).count ∧ (s.stream .s0).pos + (s.stream .s1).count ≤ 32768)
    ∧ (let s := two 0 .empty .empty; s.arg0.toNat = 0 ∧ (s.stream .s1).count = 0) :=
  ⟨by decide, by decide +kernel, ⟨full_count.ge, by decide +kernel⟩, by decide +kernel, by decide +kernel⟩

theorem witness_ScopySplitsIntoChunks :
    let s := two 0 .empty ⟨0, 16, bits11⟩
    ∃ t u v, exec (.scopy .s0 .s1) { s with arg0 := BitVec.ofNat 32 (5 + 6) } = .next t ∧ t.status.lastErr = .ok
      ∧ exec (.scopy .s0 .s1) { s with arg0 := BitVec.ofNat 32 5 } = .next u ∧ u.status.lastErr = .ok
      ∧ exec (.scopy .s0 .s1) { u with arg0 := BitVec.ofNat 32 6 } = .next v ∧ v.status.lastErr = .ok :=
  ⟨_, _, _, eq_next_of_seen (by decide +kernel), by decide +kernel, eq_next_of_seen (by decide +kernel), by decide +kernel,
    eq_next_of_seen (by decide +kernel), by decide +kernel⟩

theorem witness_WriteSeekReadReturnsValue :
    full.Wf ∧ ceil8 (full.pos + (0 : BitVec 6).toNat) ≤ 32768
    ∧ (Stream.empty).Wf ∧ (32 : BitVec 6).toNat ≤ 32 ∧ ceil8 (Stream.empty.pos + (32 : BitVec 6).toNat) ≤ 32768 :=
  ⟨full_wf, by decide, by decide⟩

theorem witness_StepKeepsStreamsWellFormed :
    ∃ s t : State, s.StreamsWf ∧ s.host.pending ≠ [] ∧ step s = .next t ∧ (t.stream .s0).count = 32 :=
  ⟨State.reset.withFetchWord 32 0x17080000, _, fun a => by cases a <;> decide, by decide, eq_next_of_seen (by decide +kernel),
    by decide +kernel⟩

theorem witness_StreamCommandFrame :
    let s := two 3 ⟨5, 16, bits11⟩ ⟨0, 16, bits11⟩
    (∃ t, exec (.scopy .s0 .s1) s = .next t ∧ code t = .ok) ∧ (Instr.scopy .s0 .s1).streamDest = some .s0
    ∧ (Instr.scopy .s0 .s1).writesResult = false ∧ (Instr.scopy .s0 .s1).streamSource ≠ some .s2
    ∧ (Instr.scopy .s0 .s1).streamSource = some .s1 ∧ (Instr.scopy .s0 .s1).storesBits = true ∧ (s.stream .s0).pos ≤ (s.stream .s0).count
    ∧ (∃ t, exec (.sread .s0 6) s = .next t ∧ code t = .ok) ∧ (Instr.sread .s0 6).streamDest = some .s0
    ∧ (Instr.sread .s0 6).storesBits = false ∧ (∃ t, exec (.stell .s0) s = .next t) ∧ (Instr.stell .s0).streamDest = some .s0 :=
  ⟨⟨_, eq_next_of_seen (by decide +kernel), by decide +kernel⟩, by decide, by decide, by decide, by decide, by decide, by decide,
    ⟨_, eq_next_of_seen (by decide +kernel), by decide +kernel⟩, by decide, by decide, ⟨_, eq_next_of_seen (by decide +kernel)⟩, by decide⟩

theorem witness_GfmulFieldLaws : (0xFF : Byte) ≠ 0 := by decide
theorem witness_AlphaRunsThroughNonZeroElements : (0x01 : Byte) ≠ 0 ∧ (0xFF : Byte) ≠ 0 := by decide

theorem witness_PolymodIsResidue :
    (0x80000000 : Word) ≠ 0 ∧ degree 0x80000000 + 0 < 32 ∧ (1 : Word) ≠ 0 ∧ degree 1 + 31 < 32
    ∧ (0x3FF : Word).toNat < 2 ^ degree 0x537 := by
  decide +kernel

theorem witness_GfAndReadbackResults :
    (args 5 0).arg1 = 0 ∧ (args 5 1).arg1 ≠ 0 ∧ (32 : BitVec 6).toNat ≤ 32 ∧ 32 < (33 : BitVec 6).toNat ∧ (31 : BitVec 6).toNat < 32 := by
  decide

theorem witness_GeneratorIsProductOfFactors : 31 < 32 ∧ 1 ≤ 32 ∧ 32 ≤ 32 := by decide

theorem witness_GeneratorBuildAndClockEffects :
    32 < (33 : BitVec 6).toNat ∧ (32 : BitVec 6).toNat ≤ 32 ∧ State.reset.rs.k = 0 ∧ 0 < (gen 32).rs.k ∧ (gen 32).rs.k ≤ 32
    ∧ 0 < (gen 1).rs.k := by
  decide +kernel

theorem witness_RsfeedConsumesBytes :
    (let s := two 3 (byteStream [0xAB, 0xCD]) .empty; (s.stream .s0).count - (s.stream .s0).pos < 8 * s.arg0.toNat)
    ∧ (let s := two 2 (byteStream [0xAB, 0xCD]) .empty
       ([0xAB, 0xCD] : List Byte).length = s.arg0.toNat ∧ 8 * s.arg0.toNat ≤ (s.stream .s0).count - (s.stream .s0).pos
       ∧ ∀ j, j < s.arg0.toNat → ∀ b, b < 8 →
          (s.stream .s0).bitAt ((s.stream .s0).pos + 8 * j + b) = (([0xAB, 0xCD] : List Byte).getD j 0).getLsbD (7 - b)) := by
  decide +kernel

theorem witness_RsemitWritesRegistersInOrder :
    full.Wf ∧ 32768 < full.pos + 8 * (gen 1).rs.k ∧ Stream.empty.Wf ∧ State.reset.rs.k = 0 ∧ 0 < (gen 32).rs.k
    ∧ Stream.empty.pos + 8 * (gen 32).rs.k ≤ 32768 :=
  ⟨full_wf, by decide +kernel⟩

/-- The hypotheses are those of RSFEED. -/
theorem witness_RssynComputesSyndromes :
    (let s := two 1 .empty .empty; (s.stream .s0).count - (s.stream .s0).pos < 8 * s.arg0.toNat)
    ∧ (let s := two 1 (byteStream [0xAB]) .empty
       ([0xAB] : List Byte).length = s.arg0.toNat ∧ 8 * s.arg0.toNat ≤ (s.stream .s0).count - (s.stream .s0).pos
       ∧ ∀ j, j < s.arg0.toNat → ∀ b, b < 8 →
          (s.stream .s0).bitAt ((s.stream .s0).pos + 8 * j + b) = (([0xAB] : List Byte).getD j 0).getLsbD (7 - b)) := by
  decide +kernel

theorem witness_RsSystematicProperty :
    (gen 32).rs.k ≤ 32 ∧ (gen 32).rs.g = generator (gen 32).rs.k ∧ (∀ j, j < 32 → byteAt (gen 32).rs.r j = 0) ∧ 31 < (gen 32).rs.k := by
  decide +kernel

theorem witness_StepKeepsRsUnitWellFormed :
    ∃ s t : State, s.rs.Wf ∧ s.rs.k = 10 ∧ s.host.pending ≠ [] ∧ step s = .next t ∧ byteAt t.rs.r 0 = 0x8C :=
  ⟨(gen 10).withFetchWord 32 0x24000010, _, by decide +kernel, by decide +kernel, by decide, eq_next_of_seen (by decide +kernel),
    by decide +kernel⟩

theorem witness_RsCommandFrame :
    (∃ t, exec (.rsemit .s1) fed = .next t ∧ code t = .ok) ∧ (Instr.rsemit .s1).isRs = true ∧ (Instr.rsemit .s1).writesResult = false
    ∧ (∀ n, Instr.rsemit .s1 ≠ .rsgen n) ∧ Instr.rsemit .s1 ≠ .rsclr ∧ (∀ d, Instr.rsemit .s1 ≠ .rsfeedi d)
    ∧ (∀ a, Instr.rsemit .s1 ≠ .rsfeed a) ∧ (∀ a, Instr.rsemit .s1 ≠ .rssyn a) ∧ (Instr.rsemit .s1).rsStream ≠ some .s0
    ∧ (∃ t, exec (.rsfeed .s0) beforeFeed = .next t ∧ code t = .ok) ∧ ∀ a, Instr.rsfeed .s0 ≠ .rsemit a :=
  ⟨⟨_, eq_next_of_seen (by decide +kernel), by decide +kernel⟩, rfl, rfl, by simp, by simp, by simp, by simp, by simp, by decide,
    ⟨_, eq_next_of_seen (by decide +kernel), by decide +kernel⟩, by simp⟩

theorem witness_BchEncodeAndSizeResults :
    (31 : Byte).toNat < 32 ∧ (6 : Byte).toNat < 7 ∧ 40 < (41 : Byte).toNat ∧ 7 ≤ (7 : Byte).toNat ∧ (40 : Byte).toNat ≤ 40
    ∧ (args 177 177).arg0.toNat = 4 * 40 + 17 ∧ (args 177 177).arg1 = (args 177 177).arg0
    ∧ ¬ ∃ v, 1 ≤ v ∧ v ≤ 40 ∧ (args 17 17).arg0.toNat = 4 * v + 17 ∧ (args 17 17).arg1 = (args 17 17).arg0 :=
  ⟨by decide, by decide, by decide, by decide, by decide, by decide, by decide, by
    rintro ⟨v, h, _, e, _⟩
    have : (args 17 17).arg0.toNat = 17 := by decide
    omega⟩

theorem witness_FormatDecodeResults :
    ¬ (0x8000 : Word).toNat < 2 ^ 15 ∧ (0x5E7C : Word).toNat < 2 ^ 15 ∧ polymod (0x5E7C ^^^ 0x5412) 0x537 = 0
    ∧ (0x7FFF : Word).toNat < 2 ^ 15 ∧ polymod (0x7FFF ^^^ 0x5412) 0x537 ≠ 0 := by
  decide +kernel

theorem witness_BchRoundTrips :
    (∃ t, exec (.fmtenc 31) State.reset = .next t) ∧ (31 : Byte).toNat < 32 ∧ (∃ t, exec (.verenc 40) State.reset = .next t)
    ∧ 7 ≤ (40 : Byte).toNat ∧ (40 : Byte).toNat ≤ 40 ∧ ∃ t, exec (.verenc 7) State.reset = .next t :=
  ⟨⟨_, eq_next_of_seen (by decide +kernel)⟩, by decide, ⟨_, eq_next_of_seen (by decide +kernel)⟩, by decide, by decide, _,
    eq_next_of_seen (by decide +kernel)⟩

theorem witness_VerdecFindsNearestVersion :
    2 ^ 18 ≤ (args 0x40000 0).arg0.toNat ∧ (args 0x3FFFF 0).arg0.toNat < 2 ^ 18 ∧ popcount (verword 7 ^^^ 0x07C93) ≤ 3 := by
  decide +kernel

theorem witness_BchCommandFrame :
    (∃ t, exec (.fmtenc 0) State.reset = .next t) ∧ (Instr.fmtenc 0).isBch = true ∧ Instr.fmtenc 0 ≠ .fmtdec ∧ Instr.fmtenc 0 ≠ .fmtdec2 :=
  ⟨⟨_, eq_next_of_seen (by decide +kernel)⟩, rfl, by decide, by decide⟩

theorem witness_ReservedIsUnionOfRegions : 1 ≤ 40 ∧ 40 ≤ 40 ∧ 176 < 4 * 40 + 17 ∧ 20 < 4 * 1 + 17 := by decide

theorem witness_GinitDefinesBlankGrid :
    (0 : Byte).toNat < 1 ∧ 40 < (41 : Byte).toNat ∧ 1 ≤ (1 : Byte).toNat ∧ (40 : Byte).toNat ≤ 40
    ∧ grid1.alignTable = State.reset.alignTable ∧ otherTable.alignTable ≠ State.reset.alignTable := by decide +kernel

theorem witness_GinitGridHasSpecModuleCount :
    State.reset.alignTable = State.reset.alignTable ∧ 1 ≤ (1 : Byte).toNat ∧ (1 : Byte).toNat ≤ 40 ∧ exec (.ginit 1) State.reset = .next grid1 :=
  ⟨rfl, by decide, by decide, eq_next_of_seen (by decide +kernel)⟩

theorem witness_ModuleAccessEffects :
    grid1.grid.Wf ∧ grid1.grid.gvalid = true ∧ (20 : Byte).toNat < grid1.grid.dim ∧ (0 : Byte).toNat < grid1.grid.dim
    ∧ (1 : Byte).toNat < 2 := by
  decide +kernel

/-- Version 1 has 420 positions; its strip number 7 has the right column 5 and goes downward from row 0. -/
theorem witness_RawOrderVisitsEachModuleOnce :
    419 < 21 * (21 - 1) ∧ 21 * (21 - 1) ≤ 420
    ∧ (rawWalk 21 (7 * 42) (startCursor 21)).map (fun x => (x.py, x.col, x.pup)) = some (0, 5, false)
    ∧ (rawWalk 21 419 (startCursor 21)).map (fun x => (x.py, x.col)) = some (20, 0) ∧ rawWalk 21 420 (startCursor 21) = none := by
  decide +kernel

theorem witness_SeekFindsFirstAssignableModule :
    (startCursor 21).OnPath 21 ∧ (startCursor 177).OnPath 177
    ∧ (seek 21 grid1.grid.asg (startCursor 21)).pstate = .active ∧ (seek 21 [] (startCursor 21)).pstate = .done := by
  decide +kernel

theorem grid1_wf : grid1.grid.Wf := by decide +kernel

theorem witness_PbeginStartsTraversal : grid1.grid.Wf ∧ grid1.grid.gvalid = true := ⟨grid1_wf, by decide +kernel⟩

theorem grid1_placementWf : grid1.PlacementWf := by
  refine ⟨grid1_wf, ⟨?_, ?_, ?_⟩, ?_⟩ <;> decide +kernel

/-- The grid of version 1 with two streams and ARG0. -/
def placing (x : Word) (a : Stream) : State := { grid1 with arg0 := x, streams := { State.reset.streams with s0 := a } }

theorem placing_wf (x : Word) (a : Stream) : (placing x a).PlacementWf := grid1_placementWf

theorem witness_PlacementTransfersComplete :
    (placing 208 (byteStream (isoData ++ isoEc))).PlacementWf
    ∧ (let s := placing 208 (byteStream (isoData ++ isoEc))
       s.grid.gvalid = true ∧ s.cursor.pstate ≠ .idle ∧ (8 : BitVec 6).toNat ≤ s.cursor.remaining s.grid.dim s.grid.asg
       ∧ s.arg0.toNat ≤ (s.stream .s0).count - (s.stream .s0).pos ∧ s.arg0.toNat ≤ s.cursor.remaining s.grid.dim s.grid.asg
       ∧ (s.stream .s1).pos ≤ (s.stream .s1).count ∧ (s.stream .s1).pos + s.arg0.toNat ≤ 32768) :=
  ⟨placing_wf _ _, by decide +kernel⟩

theorem witness_PlacementTransferErrors :
    (let s := amwDone; s.grid.gvalid = true ∧ s.cursor.pstate = .idle)
    ∧ (let s := stored; s.grid.gvalid = true ∧ s.cursor.remaining s.grid.dim s.grid.asg < (1 : BitVec 6).toNat)
    ∧ (let s := placing 209 .empty
       s.cursor.remaining s.grid.dim s.grid.asg < s.arg0.toNat ∧ (s.stream .s0).count - (s.stream .s0).pos < s.arg0.toNat)
    ∧ (let s := placing 208 full
       s.cursor.pstate ≠ .idle ∧ s.arg0.toNat ≤ s.cursor.remaining s.grid.dim s.grid.asg ∧ 0 < s.arg0.toNat
       ∧ 32768 < (s.stream .s0).pos + s.arg0.toNat) := by
  decide +kernel

theorem witness_PlacementMovesBitByBit :
    let s := placing 8 (byteStream [0x40])
    s.PlacementWf ∧ s.cursor.pstate = .active ∧ 2 ≤ (8 : BitVec 6).toNat ∧ (8 : BitVec 6).toNat ≤ 8 ∧ 0 < s.arg0.toNat
    ∧ (∃ t, exec (.pwrite 8) s = .next t ∧ t.status.lastErr = .ok)
    ∧ (∃ u, exec (.pwrite 1) { s with arg0 := s.arg0 >>> ((8 : BitVec 6).toNat - 1) } = .next u)
    ∧ (∃ t u, exec (.pread 8) s = .next t ∧ t.status.lastErr = .ok ∧ exec (.pread 1) s = .next u)
    ∧ (∃ t u, exec (.pstore .s0) s = .next t ∧ t.status.lastErr = .ok
        ∧ exec (.pwrite 1) { s with arg0 := BitVec.ofNat 32 ((s.stream .s0).bitAt (s.stream .s0).pos).toNat } = .next u)
    ∧ ∃ t u w, (s.stream .s1).pos ≤ (s.stream .s1).count ∧ exec (.pload .s1) s = .next t ∧ t.status.lastErr = .ok
        ∧ exec (.pread 1) s = .next u ∧ exec (.swrite .s1 1) { u with arg0 := u.result } = .next w :=
  ⟨placing_wf _ _, by decide +kernel, by decide, by decide, by decide +kernel,
    ⟨_, eq_next_of_seen (by decide +kernel), by decide +kernel⟩,
    ⟨_, eq_next_of_seen (by decide +kernel)⟩,
    ⟨_, _, eq_next_of_seen (by decide +kernel), by decide +kernel, eq_next_of_seen (by decide +kernel)⟩,
    ⟨_, _, eq_next_of_seen (by decide +kernel), by decide +kernel, eq_next_of_seen (by decide +kernel)⟩,
    _, _, _, by decide +kernel, eq_next_of_seen (by decide +kernel), by decide +kernel, eq_next_of_seen (by decide +kernel),
    eq_next_of_seen (by decide +kernel)⟩

theorem witness_PlacementReadsBackWhatWasPlaced :
    let s := placing 16 (byteStream [0x40, 0x54])
    ∃ t u, s.PlacementWf ∧ s.StreamsWf ∧ exec (.pstore .s0) s = .next t ∧ t.status.lastErr = .ok ∧ 0 < s.arg0.toNat
      ∧ exec (.pload .s1) { t with cursor := s.cursor } = .next u ∧ u.status.lastErr = .ok :=
  ⟨_, _, placing_wf _ _, fun a => by cases a <;> decide +kernel, eq_next_of_seen (by decide +kernel), by decide +kernel,
    by decide +kernel, eq_next_of_seen (by decide +kernel), by decide +kernel⟩

theorem witness_StepKeepsPlacementWellFormed :
    ∃ s t : State, s.PlacementWf ∧ s.host.pending ≠ [] ∧ step s = .next t ∧ t.cursor.pbits = 8 :=
  ⟨(placing 0x40 .empty).withFetchWord 32 0x49020000, _, placing_wf 0x40 .empty, by decide +kernel, eq_next_of_seen (by decide +kernel),
    by decide +kernel⟩

theorem witness_GridCommandFrame :
    let s := placing 8 (byteStream [0x40])
    (∃ t, exec (.pstore .s0) s = .next t ∧ code t = .ok) ∧ (Instr.pstore .s0).isGrid = true ∧ (Instr.pstore .s0).writesResult = false
    ∧ (Instr.pstore .s0).isGinit = false ∧ (Instr.pstore .s0).isAmw = false ∧ (Instr.pstore .s0).placesModules = true
    ∧ s.PlacementWf ∧ s.asgAt 6 6 = false ∧ (Instr.pstore .s0).gridStream ≠ some .s1
    ∧ (∃ t, exec (.modr 20 20) s = .next t) ∧ (Instr.modr 20 20).isGrid = true ∧ (Instr.modr 20 20).writesModules = false
    ∧ (Instr.modr 20 20).movesCursor = false :=
  ⟨⟨_, eq_next_of_seen (by decide +kernel), by decide +kernel⟩, rfl, rfl, rfl, rfl, rfl, placing_wf _ _, by decide +kernel, by decide,
    ⟨_, eq_next_of_seen (by decide +kernel)⟩, rfl, rfl, rfl⟩

theorem witness_MapplyFlipsMaskedModules :
    (7 : Byte).toNat < 8 ∧ grid1.grid.gvalid = true ∧ 20 < grid1.grid.dim ∧ grid1.grid.Wf :=
  ⟨by decide, by decide +kernel, by decide +kernel, grid1_wf⟩

theorem witness_MscoreReadsPenalties : (4 : BitVec 6).toNat ≤ 4 ∧ grid1.grid.gvalid = true ∧ 0 < grid1.grid.dim := by decide +kernel

theorem witness_ScoreBounds :
    177 ≤ 177 ∧ grid1.grid.Wf ∧ grid1.grid.gvalid = true ∧ ∃ t, exec .mselect grid1 = .next t :=
  ⟨by decide, grid1_wf, by decide +kernel, _, eq_next_of_seen (by decide +kernel)⟩

theorem witness_MselectPicksLowestScore : grid1.grid.gvalid = true := by decide +kernel

theorem witness_MaskCommandFrame :
    (∃ t, exec (.mapply 0) grid1 = .next t ∧ code t = .ok) ∧ (Instr.mapply 0).isMask = true ∧ Instr.mapply 0 ≠ .mselect
    ∧ (Instr.mapply 0).writesResult = false ∧ 0 < grid1.grid.dim ∧ grid1.asgAt 0 0 = false ∧ (Instr.mscore 0).isMask = true :=
  ⟨⟨_, eq_next_of_seen (by decide +kernel), by decide +kernel⟩, rfl, by decide, rfl, by decide +kernel, by decide +kernel, rfl⟩

end Sys2Proof.Tests
end

section
/-! SUPPORT. GINIT (44_grid_layout.md R260, R268): the rows of the default alignment table, the bottom-right module where a traversal
starts, and the blank grid's obligation. -/

namespace Sys2Proof.Machine

/-! ## The default alignment table (I1) -/

/-- The shape of the default row of a version: v/7 + 2 increasing centres from 6 to DIM-7, none for version 1 (R260, I1). -/
theorem defaultAlignTable_row : ∀ v ≤ 40, 1 ≤ v →
    (alignPos defaultAlignTable v).length = (if v = 1 then 0 else v / 7 + 2)
      ∧ (alignPos defaultAlignTable v).Pairwise (· < ·)
      ∧ (2 ≤ v → (alignPos defaultAlignTable v).head? = some 6
          ∧ (alignPos defaultAlignTable v).getLast? = some (Config.dimOf v - 7)) := by
  decide

/-- Every default centre is at most DIM-7, the last of its row. -/
theorem defaultAlignTable_centre_le {v : Nat} (h1 : 1 ≤ v) (h40 : v ≤ 40) {a : Nat} (ha : a ∈ alignPos defaultAlignTable v) :
    a ≤ Config.dimOf v - 7 := by
  obtain ⟨hlen, hinc, hends⟩ := defaultAlignTable_row v h40 h1
  have hv : 2 ≤ v := by
    by_contra hv
    rw [if_pos (by omega)] at hlen
    exact List.ne_nil_of_mem ha (List.eq_nil_of_length_eq_zero hlen)
  have hle : a ≤ (alignPos defaultAlignTable v).getLast (List.ne_nil_of_mem ha) := (hinc.imp Nat.le_of_lt).rel_getLast ha
  rwa [List.getLast_of_getLast?_eq_some (hends hv).2] at hle

/-! ## The bottom-right module -/

/-- No alignment square reaches a row more than 2 past every centre (R265). -/
theorem alignRegion_eq_false_of_past {A : List Nat} {r : Nat} (h : ∀ a ∈ A, a + 2 < r) (c : Nat) : alignRegion A r c = false := by
  rw [alignRegion, List.any_eq_false]
  intro i hi
  have hi' : i < A.length := List.mem_range.mp hi
  have hfar : nearCentre (A.getD i 0) r = false := by
    rw [List.getD_eq_getElem _ _ hi']
    have := h _ (List.getElem_mem hi')
    simp [nearCentre]; omega
  rw [hfar, Bool.false_and]
  exact Bool.false_ne_true

/-- The bottom-right module is not reserved when the alignment squares stay clear of the last row (R266). -/
theorem reserved_bottomRight {A : List Nat} {v : Nat} (h1 : 1 ≤ v) (hA : ∀ a ∈ A, a ≤ Config.dimOf v - 7) :
    reserved A v (Config.dimOf v - 1) (Config.dimOf v - 1) = false := by
  have hd : 21 ≤ Config.dimOf v := (isSide_dimOf h1).2
  have halign := alignRegion_eq_false_of_past (A := A) (r := Config.dimOf v - 1)
    (fun a ha => by have := hA a ha; omega) (Config.dimOf v - 1)
  simp [reserved, halign, finderRegion, timingRegion, formatRegion, versionRegion, inRange]
  omega

/-- PBEGIN's cursor where the first position of the raw order, the bottom-right module, is assignable (R277). -/
theorem beginCursor_of_bottomRight {d : Nat} (hd : IsSide d) {asg : BitGrid} (h : BitGrid.get asg (d - 1) (d - 1) = true) :
    beginCursor d asg = { startCursor d with pstate := .active } := by
  have hpos : 0 < rawLen d := Nat.mul_pos (by have := hd.2; omega) (by have := hd.2; omega)
  have h0 : asgNum d asg 0 = true := by rw [asgNum, ← startCursor_eq hd]; exact h
  obtain ⟨-, -, ⟨m, hbefore, -, heq⟩ | ⟨-, hnone⟩⟩ := beginCursor_spec hd asg
  · obtain rfl : m = 0 := by
      by_contra hm
      exact absurd h0 (by rw [hbefore 0 (Nat.pos_of_ne_zero hm)]; decide)
    rw [heq, ← startCursor_eq hd]
  · exact absurd h0 (by rw [hnone 0 hpos]; decide)

/-- Under the default table the traversal of a blank grid starts on the bottom-right module (R268, I1). -/
theorem beginCursor_blankGrid_default {v : Nat} (h1 : 1 ≤ v) (h40 : v ≤ 40) :
    beginCursor (Config.dimOf v) (blankGrid defaultAlignTable v).asg
      = { startCursor (Config.dimOf v) with pstate := .active } := by
  have hd := isSide_dimOf h1
  have hlast : Config.dimOf v - 1 < Config.dimOf v := Nat.sub_lt (by have := hd.2; omega) Nat.one_pos
  refine beginCursor_of_bottomRight hd ?_
  rw [blankGrid_get_asg _ hlast hlast, reserved_bottomRight h1 fun a ha => defaultAlignTable_centre_le h1 h40 ha]
  rfl

/-! ## GINIT -/

/-- GINIT outside versions 1..40 (R268). -/
theorem exec_ginit_of_not_version {ib : Byte} {s : State} (h : ib.toNat < 1 ∨ 40 < ib.toNat) :
    exec (.ginit ib) s = .next (s.withError .range) :=
  execGinit_iff.mpr (.inl ⟨h, rfl⟩)

/-- GINIT of a version (R268). -/
theorem exec_ginit_of_version {ib : Byte} {s : State} (h1 : 1 ≤ ib.toNat) (h40 : ib.toNat ≤ 40) :
    exec (.ginit ib) s = .next ((s.setGrid (blankGrid s.alignTable ib.toNat)).setCursor
      (beginCursor (Config.dimOf ib.toNat) (blankGrid s.alignTable ib.toNat).asg)).succeed :=
  execGinit_iff.mpr (.inr ⟨⟨h1, h40⟩, rfl⟩)

/-- PBEGIN on a defined grid (R277). -/
theorem exec_pbegin_of_gvalid {s : State} (h : s.grid.gvalid = true) :
    exec .pbegin s = .next (s.setCursor (beginCursor s.grid.dim s.grid.asg)).succeed :=
  execPbegin_iff.mpr (.inr ⟨h, rfl⟩)

/-- Settles O44: GINIT's next state is its blank grid with PBEGIN's cursor on it, and under the default table no alignment square
reaches the bottom-right module. -/
theorem ginitDefinesBlankGrid : Obligations.GinitDefinesBlankGrid := by
  refine ⟨fun ib s => ⟨exec_ginit_of_not_version, fun h1 h40 => ?_⟩, rfl, fun v h1 h40 => defaultAlignTable_row v h40 h1⟩
  refine ⟨_, exec_ginit_of_version h1 h40, ⟨rfl, rfl⟩, rfl, rfl, rfl, fun r c hr hc => ⟨?_, ?_⟩, ?_, fun hA => ?_⟩
  · exact blankGrid_get_mod _ _ r c
  · exact blankGrid_get_asg _ hr hc
  · exact ⟨_, exec_pbegin_of_gvalid rfl, rfl⟩
  · calc beginCursor (Config.dimOf ib.toNat) (blankGrid s.alignTable ib.toNat).asg
        = beginCursor (Config.dimOf ib.toNat) (blankGrid defaultAlignTable ib.toNat).asg := by rw [hA]; rfl
      _ = { startCursor (Config.dimOf ib.toNat) with pstate := .active } := beginCursor_blankGrid_default h1 h40

end Sys2Proof.Machine
end

section
/-! SUPPORT. What each command may write, said once for all commands: a table per unit, and the frame lemma `exec_frame`, by which an
invariant of one unit is checked at the commands that write the unit and at no others. With it the obligation on the operand and result
registers. -/

namespace Sys2Proof

/-- The commands that write a stream's bits, cursor or capacity. -/
def Instr.writesStreams : Instr → Bool
  | .screate _ | .sresize _ | .sdup _ _ | .sseek _ | .sread _ _ | .swrite _ _ | .scopy _ _ | .sconcat _ _ => true
  | .rsfeed _ | .rsemit _ | .rssyn _ | .pstore _ | .pload _ => true
  | _ => false

/-- The commands that write the RS unit. -/
def Instr.writesRs : Instr → Bool
  | .rsgen _ | .rsclr | .rsfeedi _ | .rsfeed _ | .rssyn _ => true
  | _ => false

/-- The commands that write the module grid. -/
def Instr.writesGrid : Instr → Bool
  | .ginit _ | .modw _ _ _ | .amw _ _ _ | .modw32 _ _ | .pwrite _ | .pstore _ | .mapply _ | .mselect => true
  | _ => false

/-- The commands that write FCHK, FSEL or SYNZ (R54). -/
def Instr.writesFlags : Instr → Bool
  | .rssyn _ | .fmtdec | .fmtdec2 => true
  | _ => false

end Sys2Proof

namespace Sys2Proof.Machine

/-- From `s` to `t` nothing changed but the error fields and what command `i` may write. -/
structure Frame (i : Instr) (s t : State) : Prop where
  hostSide : s.SameHostSide t
  result : i.writesResult = false → t.result = s.result
  flags : i.writesFlags = false → s.SameFlags t
  streams : i.writesStreams = false → t.streams = s.streams
  rs : i.writesRs = false → t.rs = s.rs
  grid : i.writesGrid = false → t.grid = s.grid
  cursor : i.movesCursor = false → t.cursor = s.cursor
  mask : i ≠ .mselect → t.mask = s.mask

namespace Frame
variable {i : Instr} {s u : State}

theorem same : Frame i s s :=
  ⟨⟨rfl, rfl, rfl, rfl⟩, fun _ => rfl, fun _ => ⟨rfl, rfl, rfl⟩, fun _ => rfl, fun _ => rfl, fun _ => rfl, fun _ => rfl, fun _ => rfl⟩

theorem raise (e : ErrCode) : Frame i s (s.raise e) := { same with }

theorem succeed (h : Frame i s u) : Frame i s u.succeed := { h with }

theorem setErrors (h : Frame i s u) (e f : ErrCode) :
    Frame i s (u.setStatus { u.status with firstErr := e, lastErr := f }) := { h with }

theorem setResult (h : Frame i s u) (hi : i.writesResult = true) (v : Word) : Frame i s (u.setResult v) :=
  { h with result := fun h' => nomatch hi.symm.trans h' }

theorem setFchk (h : Frame i s u) (hi : i.writesFlags = true) (b : Bool) : Frame i s (u.setFchk b) :=
  { h with flags := fun h' => nomatch hi.symm.trans h' }

theorem setFsel (h : Frame i s u) (hi : i.writesFlags = true) (b : Bool) : Frame i s (u.setFsel b) :=
  { h with flags := fun h' => nomatch hi.symm.trans h' }

theorem setSynz (h : Frame i s u) (hi : i.writesFlags = true) (b : Bool) : Frame i s (u.setSynz b) :=
  { h with flags := fun h' => nomatch hi.symm.trans h' }

theorem setStream (h : Frame i s u) (hi : i.writesStreams = true) (a : StreamId) (st : Stream) : Frame i s (u.setStream a st) :=
  { h with streams := fun h' => nomatch hi.symm.trans h' }

theorem setRs (h : Frame i s u) (hi : i.writesRs = true) (rs : Rs) : Frame i s (u.setRs rs) :=
  { h with rs := fun h' => nomatch hi.symm.trans h' }

theorem setGrid (h : Frame i s u) (hi : i.writesGrid = true) (g : Grid) : Frame i s (u.setGrid g) :=
  { h with grid := fun h' => nomatch hi.symm.trans h' }

theorem setCursor (h : Frame i s u) (hi : i.movesCursor = true) (c : Cursor) : Frame i s (u.setCursor c) :=
  { h with cursor := fun h' => nomatch hi.symm.trans h' }

theorem setMask (h : Frame i s u) (hi : i = .mselect) (m : MaskUnit) : Frame i s (u.setMask m) :=
  { h with mask := fun h' => absurd hi h' }

end Frame

/-- How command `i` ends from `s`: an error is taken and nothing else happens, or it succeeds within its frame (R341, R342). -/
inductive CommandEnd (i : Instr) (s : State) : State → Prop
  | raise (e : ErrCode) : CommandEnd i s (s.raise e)
  | succeed {u : State} (h : Frame i s u) : CommandEnd i s u.succeed

/-- How each command but RESET ends, read off its own lemma of Laws/Exec: each error it takes, and the units a success writes. -/
theorem exec_end {i : Instr} {s t : State} (h : exec i s = .next t) (hi : i ≠ .reset) : CommandEnd i s t := by
  cases i with
  | nop =>
    obtain rfl := execNop_iff.mp h; exact .succeed .same
  | clrerr =>
    obtain rfl := execClrerr_iff.mp h; exact .succeed <| .setErrors .same _ _
  | reset =>
    exact absurd rfl hi
  | screate a =>
    obtain rfl := execScreate_iff.mp h; exact .succeed <| .setStream .same rfl _ _
  | sresize a =>
    obtain ⟨-, rfl⟩ | ⟨-, ⟨-, rfl⟩ | ⟨-, rfl⟩⟩ := execSresize_iff.mp h
    exacts [.raise _, .raise _, .succeed <| .setStream .same rfl _ _]
  | sdup a b =>
    obtain rfl := execSdup_iff.mp h; exact .succeed <| .setStream .same rfl _ _
  | sseek a =>
    obtain ⟨-, rfl⟩ | ⟨-, rfl⟩ := execSseek_iff.mp h
    exacts [.raise _, .succeed <| .setStream .same rfl _ _]
  | stell a =>
    obtain rfl := execStell_iff.mp h; exact .succeed <| .setResult .same rfl _
  | sremain a =>
    obtain rfl := execSremain_iff.mp h; exact .succeed <| .setResult .same rfl _
  | sread a n =>
    obtain ⟨-, rfl⟩ | ⟨-, ⟨-, rfl⟩ | ⟨-, rfl⟩⟩ := execSread_iff.mp h
    exacts [.raise _, .raise _, .succeed <| .setResult (.setStream .same rfl _ _) rfl _]
  | swrite a n =>
    obtain ⟨-, rfl⟩ | ⟨-, ⟨-, rfl⟩ | ⟨-, rfl⟩⟩ := execSwrite_iff.mp h
    exacts [.raise _, .raise _, .succeed <| .setStream .same rfl _ _]
  | scopy a b =>
    obtain ⟨-, rfl⟩ | ⟨-, ⟨-, rfl⟩ | ⟨-, ⟨-, rfl⟩ | ⟨-, ⟨-, rfl⟩ | ⟨-, rfl⟩⟩⟩⟩ := execScopy_iff.mp h
    exacts [.raise _, .raise _, .succeed .same, .raise _, .succeed <| .setStream (.setStream .same rfl _ _) rfl _ _]
  | sconcat a b =>
    obtain ⟨-, rfl⟩ | ⟨-, ⟨-, rfl⟩ | ⟨-, ⟨-, rfl⟩ | ⟨-, rfl⟩⟩⟩ := execSconcat_iff.mp h
    exacts [.raise _, .succeed .same, .raise _, .succeed <| .setStream .same rfl _ _]
  | gfmul ia ib =>
    obtain rfl := execGfmul_iff.mp h; exact .succeed <| .setResult .same rfl _
  | polymod =>
    obtain ⟨-, rfl⟩ | ⟨-, rfl⟩ := execPolymod_iff.mp h
    exacts [.raise _, .succeed <| .setResult .same rfl _]
  | rsgen n =>
    obtain ⟨-, rfl⟩ | ⟨-, rfl⟩ := execRsgen_iff.mp h
    exacts [.raise _, .succeed <| .setRs .same rfl _]
  | rsclr =>
    obtain rfl := execRsclr_iff.mp h; exact .succeed <| .setRs .same rfl _
  | rsfeedi ib =>
    obtain rfl := execRsfeedi_iff.mp h; exact .succeed <| .setRs .same rfl _
  | rsfeed a =>
    obtain ⟨-, rfl⟩ | ⟨-, rfl⟩ := execRsfeed_iff.mp h
    exacts [.raise _, .succeed <| .setRs (.setStream .same rfl _ _) rfl _]
  | rsemit a =>
    obtain ⟨-, rfl⟩ | ⟨-, ⟨-, rfl⟩ | ⟨-, rfl⟩⟩ := execRsemit_iff.mp h
    exacts [.raise _, .succeed .same, .succeed <| .setStream .same rfl _ _]
  | rssyn a =>
    obtain ⟨-, rfl⟩ | ⟨-, rfl⟩ := execRssyn_iff.mp h
    exacts [.raise _, .succeed <| .setSynz (.setRs (.setStream .same rfl _ _) rfl _) rfl _]
  | rsrdg n =>
    obtain ⟨-, rfl⟩ | ⟨-, rfl⟩ := execRsrdg_iff.mp h
    exacts [.raise _, .succeed <| .setResult .same rfl _]
  | rsrdr n =>
    obtain ⟨-, rfl⟩ | ⟨-, rfl⟩ := execRsrdr_iff.mp h
    exacts [.raise _, .succeed <| .setResult .same rfl _]
  | rsrds n =>
    obtain ⟨-, rfl⟩ | ⟨-, rfl⟩ := execRsrds_iff.mp h
    exacts [.raise _, .succeed <| .setResult .same rfl _]
  | fmtenc ib =>
    obtain ⟨-, rfl⟩ | ⟨-, rfl⟩ := execFmtenc_iff.mp h
    exacts [.raise _, .succeed <| .setResult .same rfl _]
  | fmtdec =>
    obtain ⟨-, rfl⟩ | ⟨-, rfl⟩ := execFmtdec_iff.mp h
    exacts [.raise _, .succeed <| .setFchk (.setResult .same rfl _) rfl _]
  | fmtdec2 =>
    obtain ⟨-, rfl⟩ | ⟨-, ⟨-, rfl⟩ | ⟨-, ⟨-, rfl⟩ | ⟨-, rfl⟩⟩⟩ := execFmtdec2_iff.mp h
    exacts [.raise _, .succeed <| .setFchk (.setFsel (.setResult .same rfl _) rfl _) rfl _, .succeed <| .setFchk (.setFsel (.setResult .same rfl _) rfl _) rfl _, .raise _]
  | verenc ib =>
    obtain ⟨-, rfl⟩ | ⟨-, rfl⟩ := execVerenc_iff.mp h
    exacts [.raise _, .succeed <| .setResult .same rfl _]
  | verdec =>
    obtain ⟨-, rfl⟩ | ⟨-, rfl⟩ := execVerdec_iff.mp h
    exacts [.raise _, .succeed <| .setResult .same rfl _]
  | dimchk =>
    obtain ⟨-, rfl⟩ | ⟨-, -, -, -, rfl⟩ := execDimchk_iff.mp h
    exacts [.raise _, .succeed <| .setResult .same rfl _]
  | ginit ib =>
    obtain ⟨-, rfl⟩ | ⟨-, rfl⟩ := execGinit_iff.mp h
    exacts [.raise _, .succeed <| .setCursor (.setGrid .same rfl _) rfl _]
  | modw row col val =>
    obtain ⟨-, rfl⟩ | ⟨-, ⟨-, rfl⟩ | ⟨-, -, rfl⟩ | ⟨-, -, -, rfl⟩⟩ := execModw_iff.mp h
    exacts [.raise _, .raise _, .raise _, .succeed <| .setGrid .same rfl _]
  | modr row col =>
    obtain ⟨-, rfl⟩ | ⟨-, -, rfl⟩ | ⟨-, -, -, rfl⟩ := execModr_iff.mp h
    exacts [.raise _, .raise _, .succeed <| .setResult .same rfl _]
  | amw row col val =>
    obtain ⟨-, rfl⟩ | ⟨-, ⟨-, rfl⟩ | ⟨-, -, rfl⟩ | ⟨-, -, -, rfl⟩⟩ := execAmw_iff.mp h
    exacts [.raise _, .raise _, .raise _, .succeed <| .setCursor (.setGrid .same rfl _) rfl _]
  | modw32 row col =>
    obtain ⟨-, rfl⟩ | ⟨-, -, rfl⟩ | ⟨-, -, -, rfl⟩ := execModw32_iff.mp h
    exacts [.raise _, .raise _, .succeed <| .setGrid .same rfl _]
  | modr32 row col =>
    obtain ⟨-, rfl⟩ | ⟨-, -, rfl⟩ | ⟨-, -, -, rfl⟩ := execModr32_iff.mp h
    exacts [.raise _, .raise _, .succeed <| .setResult .same rfl _]
  | pbegin =>
    obtain ⟨-, rfl⟩ | ⟨-, rfl⟩ := execPbegin_iff.mp h
    exacts [.raise _, .succeed <| .setCursor .same rfl _]
  | pwrite n =>
    obtain ⟨-, rfl⟩ | ⟨-, ⟨-, rfl⟩ | ⟨-, -, rfl⟩ | ⟨-, -, ⟨-, rfl⟩ | ⟨-, rfl⟩⟩⟩ := execPwrite_iff.mp h
    exacts [.raise _, .raise _, .raise _, .raise _, .succeed <| .setCursor (.setGrid .same rfl _) rfl _]
  | pread n =>
    obtain ⟨-, rfl⟩ | ⟨-, ⟨-, rfl⟩ | ⟨-, -, rfl⟩ | ⟨-, -, ⟨-, rfl⟩ | ⟨-, rfl⟩⟩⟩ := execPread_iff.mp h
    exacts [.raise _, .raise _, .raise _, .raise _, .succeed <| .setResult (.setCursor .same rfl _) rfl _]
  | pstore a =>
    obtain ⟨-, rfl⟩ | ⟨-, -, rfl⟩ | ⟨-, -, ⟨-, rfl⟩ | ⟨-, ⟨-, rfl⟩ | ⟨-, rfl⟩⟩⟩ := execPstore_iff.mp h
    exacts [.raise _, .raise _, .raise _, .raise _, .succeed <| .setCursor (.setGrid (.setStream .same rfl _ _) rfl _) rfl _]
  | pload a =>
    obtain ⟨-, rfl⟩ | ⟨-, -, rfl⟩ | ⟨-, -, ⟨-, rfl⟩ | ⟨-, ⟨-, rfl⟩ | ⟨-, ⟨-, rfl⟩ | ⟨-, rfl⟩⟩⟩⟩ := execPload_iff.mp h
    exacts [.raise _, .raise _, .raise _, .succeed .same, .raise _, .succeed <| .setCursor (.setStream .same rfl _ _) rfl _]
  | mapply ib =>
    obtain ⟨-, rfl⟩ | ⟨-, ⟨-, rfl⟩ | ⟨-, rfl⟩⟩ := execMapply_iff.mp h
    exacts [.raise _, .raise _, .succeed <| .setGrid .same rfl _]
  | mscore n =>
    obtain ⟨-, rfl⟩ | ⟨-, ⟨-, rfl⟩ | ⟨-, rfl⟩⟩ := execMscore_iff.mp h
    exacts [.raise _, .raise _, .succeed <| .setResult .same rfl _]
  | mselect =>
    obtain ⟨-, rfl⟩ | ⟨-, rfl⟩ := execMselect_iff.mp h
    exacts [.raise _, .succeed <| .setResult (.setGrid (.setMask .same rfl _) rfl _) rfl _]

theorem CommandEnd.frame {i : Instr} {s t : State} (h : CommandEnd i s t) : Frame i s t := by
  cases h with
  | raise e => exact .raise e
  | succeed h => exact h.succeed

/-- What a command does not write stays, however it ends. -/
theorem exec_frame {i : Instr} {s t : State} (h : exec i s = .next t) (hi : i ≠ .reset) : Frame i s t := (exec_end h hi).frame

/-- A failing command leaves RESULT as it is (R342). -/
theorem CommandEnd.result_of_error {i : Instr} {s t : State} (h : CommandEnd i s t) (he : t.status.lastErr ≠ .ok) :
    t.result = s.result := by
  cases h with
  | raise e => rfl
  | succeed h => exact absurd rfl he

/-- Settles O15: the frame of every command but RESET keeps ARG0, ARG1 and, outside R35's list, RESULT; an error keeps RESULT. -/
theorem operandAndResultRegistersAreWrittenAsListed : Obligations.OperandAndResultRegistersAreWrittenAsListed := by
  intro i s t hi h
  have hf := exec_frame h hi
  obtain ⟨harg0, harg1, -, -⟩ := hf.hostSide
  refine ⟨harg0, harg1, ?_⟩
  rintro (hw | he)
  · exact hf.result hw
  · exact (exec_end h hi).result_of_error he

end Sys2Proof.Machine
end

section
/-! SUPPORT. The host's accesses, case by case (20_memory.md R81, R89, R92, R97): what each makes the step do, what a step can do at all,
and the rule `step_keeps` for an invariant of QRC's units. With them the obligations of the register window and of the reset state. -/

namespace Sys2Proof.Machine

variable {s t : State} {off : Nat} {v w : Word} {rest : List Access}

/-! ## One access -/

theorem step_of_idle (h : s.host.pending = []) : step s = .next s := by
  rw [step, hostStep, h]

theorem step_of_pending {a : Access} (h : s.host.pending = a :: rest) : step s = perform a (s.takeAccess rest) := by
  rw [step, hostStep, h]

theorem supportedAccess_iff {size : Nat} : supportedAccess off size = true ↔ size = 4 ∧ off % 4 = 0 ∧ off ≤ 0x0FC := by
  simp [supportedAccess, and_assoc]

/-- A read changes only what the host gets back (R89, R97). -/
theorem step_read (h4 : off % 4 = 0) (hle : off ≤ 0x0FC) (h : s.host.pending = .read off 4 :: rest) :
    step s = .next { s with host := { pending := rest, response := some (readOffset s off) } } := by
  rw [step_of_pending h, perform, if_pos (supportedAccess_iff.mpr ⟨rfl, h4, hle⟩)]
  rfl

theorem step_write (h4 : off % 4 = 0) (hle : off ≤ 0x0FC) (h : s.host.pending = .write off 4 v :: rest) :
    step s = writeOffset off v (s.takeAccess rest) := by
  rw [step_of_pending h, perform, if_pos (supportedAccess_iff.mpr ⟨rfl, h4, hle⟩)]

/-- A write outside CMD, ARG0 and ARG1 is ignored (R89). -/
theorem writeOffset_ignored (hcmd : Reg.ofOffset off ≠ some .cmd) (h0 : Reg.ofOffset off ≠ some .arg0)
    (h1 : Reg.ofOffset off ≠ some .arg1) : writeOffset off v s = .next s := by
  unfold writeOffset
  split
  · exact absurd ‹_› hcmd
  · exact absurd ‹_› h0
  · exact absurd ‹_› h1
  · rfl

theorem issue_of_ok {i : Instr} (h : decode w = .ok i) : issue w s = exec i s := by rw [issue, h]

theorem issue_of_error {e : Illegal} (h : decode w = .error e) : issue w s = .next (s.raise .illegal) := by
  rw [issue, h, complete_error]

/-- Settles O5: a write to CMD takes the access from the queue and issues the word. -/
theorem stepIssuesCommandWord : Obligations.StepIssuesCommandWord := by
  intro s w rest h
  have hstep : step s = issue w (s.takeAccess rest) := step_write rfl (by decide) h
  exact ⟨fun i hi => hstep.trans (issue_of_ok hi), fun e he => hstep.trans (issue_of_error he)⟩

/-! ## The register map (R31-R43, R55) -/

theorem Reg.ofOffset_offset (r : Reg) : Reg.ofOffset r.offset = some r := by
  cases r with
  | score m => revert m; decide
  | spos a | scnt a | scap a => cases a <;> rfl
  | _ => rfl

theorem Reg.offset_aligned (r : Reg) : r.offset % 4 = 0 := by
  cases r with
  | score m => revert m; decide
  | spos a | scnt a | scap a => cases a <;> rfl
  | _ => rfl

theorem Reg.offset_le (r : Reg) : r.offset ≤ 0x0FC := by
  cases r with
  | score m => revert m; decide
  | spos a | scnt a | scap a => cases a <;> decide
  | _ => decide

/-- The reserved offsets (R43, R55). -/
abbrev ReservedOffset (off : Nat) : Prop :=
  (0x02C ≤ off ∧ off ≤ 0x03C) ∨ (0x0A0 ≤ off ∧ off ≤ 0x0FC) ∨ off = 0x06C ∨ off = 0x07C ∨ off = 0x08C ∨ off = 0x09C

/-- The 64 aligned offsets of the window: none at the reserved ones, and elsewhere a register whose offset it is. -/
theorem Reg.ofOffset_window : ∀ k < 64,
    (Reg.ofOffset (4 * k) = none ↔ ReservedOffset (4 * k)) ∧ ∀ r ∈ Reg.ofOffset (4 * k), r.offset = 4 * k := by
  decide

theorem Reg.ofOffset_eq_none_iff (h4 : off % 4 = 0) (hle : off ≤ 0x0FC) : Reg.ofOffset off = none ↔ ReservedOffset off := by
  obtain ⟨k, rfl⟩ := Nat.dvd_of_mod_eq_zero h4
  exact (Reg.ofOffset_window k (by omega)).1

/-- A register is found at its own offset only. -/
theorem Reg.offset_of_ofOffset (h4 : off % 4 = 0) (hle : off ≤ 0x0FC) {r : Reg} (h : Reg.ofOffset off = some r) : r.offset = off := by
  obtain ⟨k, rfl⟩ := Nat.dvd_of_mod_eq_zero h4
  exact (Reg.ofOffset_window k (by omega)).2 r h

/-- Settles O8: the offsets by definition, each register found at its own, and the reserved offsets. -/
theorem registerMapIsFaithful : Obligations.RegisterMapIsFaithful := by
  refine ⟨⟨rfl, rfl, rfl, rfl, rfl, rfl, rfl, rfl, rfl, rfl, rfl, fun _ => rfl, rfl, rfl, rfl, rfl, rfl, rfl, rfl, rfl, rfl, rfl, rfl,
    rfl⟩, fun r => ⟨r.offset_aligned, r.offset_le, r.ofOffset_offset⟩, fun off => Reg.ofOffset_eq_none_iff⟩

theorem readOffset_of_some {r : Reg} (h : Reg.ofOffset off = some r) : readOffset s off = readReg s r := by rw [readOffset, h]

theorem readOffset_of_none (h : Reg.ofOffset off = none) : readOffset s off = 0 := by rw [readOffset, h]

/-- Settles O6: reads give back the register or 0, writes store to ARG0 and ARG1 and are ignored elsewhere but for CMD, and with no
access the state stays. -/
theorem hostAccessEffects : Obligations.HostAccessEffects := by
  intro s off v rest h4 hle
  refine ⟨fun h => ⟨fun r hr => ?_, fun hn => ?_⟩, fun h => ⟨?_, ?_, fun hcmd h0 h1 => ?_⟩, step_of_idle⟩
  · rw [step_read h4 hle h, readOffset_of_some hr]
  · rw [step_read h4 hle h, readOffset_of_none hn]
  · rintro rfl; exact step_write h4 hle h
  · rintro rfl; exact step_write h4 hle h
  · have hne (r : Reg) (hr : off ≠ r.offset) : Reg.ofOffset off ≠ some r :=
      fun he => hr (Reg.offset_of_ofOffset h4 hle he).symm
    rw [step_write h4 hle h, writeOffset_ignored (hne .cmd hcmd) (hne .arg0 h0) (hne .arg1 h1)]
    rfl

/-! ## The words the registers read as (R36-R41) -/

theorem statusWord_extractLsb' (s : State) (i n : Nat) :
    (statusWord s).extractLsb' i n =
      (0#18 ++ s.cursor.pstate.code ++ BitVec.ofBool s.grid.gvalid ++ BitVec.ofBool s.status.synz
        ++ BitVec.ofBool s.status.fsel ++ BitVec.ofBool s.status.fchk
        ++ s.status.firstErr.code ++ s.status.lastErr.code).extractLsb' i n := rfl

theorem gridcfgWord_extractLsb' (g : Grid) (i n : Nat) :
    (gridcfgWord g).extractLsb' i n = (0#16 ++ BitVec.ofNat 8 g.dim ++ BitVec.ofNat 8 g.ver).extractLsb' i n := rfl

theorem pcurWord_extractLsb' {c : Cursor} (h : c.pstate = .active) (i n : Nat) :
    (pcurWord c).extractLsb' i n =
      (0#14 ++ BitVec.ofBool c.pside ++ BitVec.ofBool c.pup ++ BitVec.ofNat 8 c.py ++ BitVec.ofNat 8 c.col).extractLsb' i n := by
  rw [pcurWord, if_pos h]

theorem statusWord_fields (s : State) :
    (statusWord s).extractLsb' 0 4 = s.status.lastErr.code ∧ (statusWord s).extractLsb' 4 4 = s.status.firstErr.code
    ∧ (statusWord s).getLsbD 8 = s.status.fchk ∧ (statusWord s).getLsbD 9 = s.status.fsel ∧ (statusWord s).getLsbD 10 = s.status.synz
    ∧ (statusWord s).getLsbD 11 = s.grid.gvalid ∧ (statusWord s).extractLsb' 12 2 = s.cursor.pstate.code
    ∧ (statusWord s).extractLsb' 14 18 = 0 := by
  simp (disch := decide) only [statusWord_extractLsb', statusWord_getLsbD, BitVec.extractLsb'_append_eq_of_le,
    BitVec.extractLsb'_append_eq_of_add_le, BitVec.getLsbD_append]
  simp

theorem gridcfgWord_fields (g : Grid) :
    (gridcfgWord g).extractLsb' 0 8 = BitVec.ofNat 8 g.ver ∧ (gridcfgWord g).extractLsb' 8 8 = BitVec.ofNat 8 g.dim
    ∧ (gridcfgWord g).extractLsb' 16 16 = 0 := by
  simp only [gridcfgWord_extractLsb', BitVec.extractLsb'_append_eq_ite]
  simp

theorem pcurWord_fields {c : Cursor} (h : c.pstate = .active) :
    (pcurWord c).extractLsb' 0 8 = BitVec.ofNat 8 c.col ∧ (pcurWord c).extractLsb' 8 8 = BitVec.ofNat 8 c.py
    ∧ (pcurWord c).getLsbD 16 = c.pup ∧ (pcurWord c).getLsbD 17 = c.pside ∧ (pcurWord c).extractLsb' 18 14 = 0 := by
  simp only [pcurWord_extractLsb' h, pcurWord_getLsbD h, BitVec.extractLsb'_append_eq_ite, BitVec.getLsbD_append]
  simp

/-- Settles O9: the layouts of STATUS, GRIDCFG, PCUR, RSCFG and BEST field by field; the other registers read their value whole. -/
theorem registersReadTheirFields : Obligations.RegistersReadTheirFields := by
  refine ⟨by decide, fun s => ⟨statusWord_fields s, gridcfgWord_fields s.grid, pcurWord_fields, pcurWord_of_ne, ?_, ?_, fun _ => rfl,
    fun _ => ⟨rfl, rfl, rfl⟩, rfl, rfl, rfl, rfl, rfl, rfl⟩⟩
  · exact ⟨BitVec.extractLsb'_append_eq_right, BitVec.extractLsb'_append_eq_left⟩
  · exact ⟨BitVec.extractLsb'_append_eq_right, BitVec.extractLsb'_append_eq_left⟩

/-! ## Reset (R58) -/

theorem reset_stream (a : StreamId) : State.reset.stream a = .empty := by cases a <;> rfl

theorem byteAt_replicate_zero (n j : Nat) : byteAt (Vector.replicate n (0 : Byte)) j = 0 := by
  by_cases h : j < n <;> simp [byteAt, h]

/-- The generator of K = 0 is 1: the reset value of G (R47, R193). -/
theorem reset_g : State.reset.rs.g = generator 0 := by decide

/-- Every coefficient of `generator 0` but that of x^0 is 0. -/
theorem byteAt_generator_zero {j : Nat} (h : j ≠ 0) : byteAt (generator 0) j = 0 := by
  simp [generator, h]

/-- Settles O10: the fields of `State.reset`, G being the generator of K = 0. -/
theorem resetValues : Obligations.ResetValues := by
  refine ⟨rfl, rfl, rfl, rfl, rfl, rfl, rfl, rfl, rfl, rfl, by decide, fun a => ?_, rfl, by decide, fun j h1 _ => ?_, fun j _ => ?_,
    rfl, rfl, rfl, rfl, rfl, rfl, rfl⟩
  · rw [reset_stream]
    exact ⟨rfl, rfl, rfl⟩
  · rw [reset_g]
    exact byteAt_generator_zero (Nat.ne_of_gt h1)
  · exact ⟨byteAt_replicate_zero 32 j, byteAt_replicate_zero 32 j⟩

theorem reset_streamsWf : State.reset.StreamsWf := fun a => reset_stream a ▸ Stream.empty_wf

theorem reset_rsWf : State.reset.rs.Wf := ⟨by decide, reset_g, fun j _ _ => byteAt_replicate_zero 32 j⟩

theorem reset_placementWf : State.reset.PlacementWf :=
  ⟨by decide, ⟨fun _ => rfl, nofun, nofun⟩, fun _ => rfl⟩

/-- Settles O11: the invariants of the streams, the RS unit and the placement hold at reset. -/
theorem resetIsWellFormed : Obligations.ResetIsWellFormed := ⟨reset_streamsWf, reset_rsWf, reset_placementWf⟩

/-! ## Invariants of the units along a step -/

/-- The units that the three invariants speak of are unchanged from `s` to `t`. -/
structure State.SameUnits (s t : State) : Prop where
  streams : t.streams = s.streams
  rs : t.rs = s.rs
  grid : t.grid = s.grid
  cursor : t.cursor = s.cursor

theorem issue_next_cases (h : issue w s = .next t) : (∃ i, exec i s = .next t) ∨ t = s.raise .illegal := by
  unfold issue at h
  split at h
  · exact .inl ⟨_, h⟩
  · exact .inr (complete_error_iff.mp h)

theorem writeOffset_next_cases (h : writeOffset off v s = .next t) : issue v s = .next t ∨ s.SameUnits t := by
  unfold writeOffset at h
  split at h
  · exact .inl h
  all_goals
    cases h
    exact .inr ⟨rfl, rfl, rfl, rfl⟩

/-- What a host access can do: run a command, reset QRC, or leave every unit as it is. -/
theorem perform_next_cases {a : Access} (h : perform a s = .next t) :
    (∃ i, exec i s = .next t) ∨ t = hardReset s ∨ s.SameUnits t := by
  cases a with
  | reset => cases h; exact .inr (.inl rfl)
  | read off size =>
    rw [perform] at h
    split at h <;> cases h
    exact .inr (.inr ⟨rfl, rfl, rfl, rfl⟩)
  | write off size v =>
    rw [perform] at h
    split at h
    · obtain h | h := writeOffset_next_cases h
      · obtain h | rfl := issue_next_cases h
        · exact .inl h
        · exact .inr (.inr ⟨rfl, rfl, rfl, rfl⟩)
      · exact .inr (.inr h)
    · cases h

/-- An invariant of the units holds after every step, when it holds at reset and every command keeps it. -/
theorem step_keeps {P : State → Prop} (hunits : ∀ {s t : State}, s.SameUnits t → P s → P t) (hreset : P State.reset)
    (hexec : ∀ {i : Instr} {s t : State}, P s → exec i s = .next t → P t) {s t : State} (hs : P s) (h : step s = .next t) : P t := by
  cases hp : s.host.pending with
  | nil =>
    rw [step_of_idle hp] at h
    cases h
    exact hs
  | cons a rest =>
    rw [step_of_pending hp] at h
    have hs' : P (s.takeAccess rest) := hunits (s := s) ⟨rfl, rfl, rfl, rfl⟩ hs
    obtain ⟨i, h⟩ | rfl | hsame := perform_next_cases h
    · exact hexec hs' h
    · exact hunits (s := State.reset) ⟨rfl, rfl, rfl, rfl⟩ hreset
    · exact hunits hsame hs'

end Sys2Proof.Machine
end

section
/-! SUPPORT. The three invariants of the units, command by command, and their obligations: the streams (R45), the RS unit (R47, R48) and
the module grid with its placement cursor (R49, R52); then the errors of the placement transfers. -/

namespace Sys2Proof.Machine

variable {s t : State}

/-! ## The streams (R45) -/

theorem State.StreamsWf.setStream (hs : s.StreamsWf) {st : Stream} (hst : st.Wf) (a : StreamId) : (s.setStream a st).StreamsWf := by
  intro b
  rw [State.setStream_stream]
  split
  · exact hst
  · exact hs b

theorem State.StreamsWf.of_streams_eq (hs : s.StreamsWf) (h : t.streams = s.streams) : t.StreamsWf := by
  intro a
  rw [State.stream, h]
  exact hs a

/-- A new capacity of whole bytes that holds the bits, within STREAM_MAX_BITS (R154). -/
theorem Stream.setCap_wf {st : Stream} (h : st.Wf) {n : Nat} (hn : st.count ≤ n) (hmax : ceil8 n ≤ Config.streamMaxBits) :
    Stream.Wf { st with cap := ceil8 n } :=
  ⟨h.1, hn.trans (le_ceil8 n), hmax, ceil8_mod n⟩

/-- A cursor within the stream (R156). -/
theorem Stream.setPos_wf {st : Stream} (h : st.Wf) {n : Nat} (hn : n ≤ st.count) : Stream.Wf { st with pos := n } :=
  ⟨hn, h.2⟩

theorem Stream.put_wf_of_length {st : Stream} (h : st.Wf) {bs : List Bool} {n : Nat} (hl : bs.length = n)
    (hn : st.overflows n = false) : (st.put bs).Wf :=
  Stream.put_wf h (hl.symm ▸ hn)

/-- Every command keeps the streams well-formed. -/
theorem exec_keeps_streamsWf {i : Instr} (hs : s.StreamsWf) (h : exec i s = .next t) : t.StreamsWf := by
  cases i with
  | reset =>
    obtain rfl := execReset_iff.mp h
    exact reset_streamsWf
  | screate a =>
    obtain rfl := execScreate_iff.mp h
    exact hs.setStream Stream.empty_wf a
  | sresize a =>
    obtain ⟨-, rfl⟩ | ⟨hcount, ⟨-, rfl⟩ | ⟨hmax, rfl⟩⟩ := execSresize_iff.mp h
    exacts [hs, hs, hs.setStream (Stream.setCap_wf (hs a) hcount hmax) a]
  | sdup a b =>
    obtain rfl := execSdup_iff.mp h
    exact hs.setStream (hs b) a
  | sseek a =>
    obtain ⟨-, rfl⟩ | ⟨hcount, rfl⟩ := execSseek_iff.mp h
    exacts [hs, hs.setStream (Stream.setPos_wf (hs a) hcount) a]
  | sread a n =>
    obtain ⟨-, rfl⟩ | ⟨-, ⟨-, rfl⟩ | ⟨hleft, rfl⟩⟩ := execSread_iff.mp h
    exacts [hs, hs, hs.setStream (Stream.advance_wf (hs a) hleft) a]
  | swrite a n =>
    obtain ⟨-, rfl⟩ | ⟨-, ⟨-, rfl⟩ | ⟨hroom, rfl⟩⟩ := execSwrite_iff.mp h
    exacts [hs, hs, hs.setStream (Stream.put_wf_of_length (hs a) (wordBits_length _ _) hroom) a]
  | scopy a b =>
    obtain ⟨-, rfl⟩ | ⟨-, ⟨-, rfl⟩ | ⟨hleft, ⟨-, rfl⟩ | ⟨-, ⟨-, rfl⟩ | ⟨hroom, rfl⟩⟩⟩⟩ := execScopy_iff.mp h
    exacts [hs, hs, hs, hs,
      (hs.setStream (Stream.advance_wf (hs b) hleft) b).setStream (Stream.put_wf_of_length (hs a) (Stream.next_length hleft) hroom) a]
  | sconcat a b =>
    obtain ⟨-, rfl⟩ | ⟨-, ⟨-, rfl⟩ | ⟨-, ⟨-, rfl⟩ | ⟨hroom, rfl⟩⟩⟩ := execSconcat_iff.mp h
    exacts [hs, hs, hs, hs.setStream (Stream.put_wf_of_length (hs a) rfl hroom) a]
  | rsfeed a =>
    obtain ⟨-, rfl⟩ | ⟨hleft, rfl⟩ := execRsfeed_iff.mp h
    exacts [hs, hs.setStream (Stream.advance_wf (hs a) hleft) a]
  | rsemit a =>
    obtain ⟨-, rfl⟩ | ⟨hroom, ⟨-, rfl⟩ | ⟨-, rfl⟩⟩ := execRsemit_iff.mp h
    exacts [hs, hs, hs.setStream (Stream.put_wf_of_length (hs a) (by rw [flatMap_byteBits_length, ecBytes_length]) hroom) a]
  | rssyn a =>
    obtain ⟨-, rfl⟩ | ⟨hleft, rfl⟩ := execRssyn_iff.mp h
    exacts [hs, hs.setStream (Stream.advance_wf (hs a) hleft) a]
  | pstore a =>
    obtain ⟨-, rfl⟩ | ⟨-, -, rfl⟩ | ⟨-, -, ⟨-, rfl⟩ | ⟨hleft, ⟨-, rfl⟩ | ⟨-, rfl⟩⟩⟩ := execPstore_iff.mp h
    exacts [hs, hs, hs, hs, hs.setStream (Stream.advance_wf (hs a) hleft) a]
  | pload a =>
    obtain ⟨-, rfl⟩ | ⟨-, -, rfl⟩ | ⟨-, -, ⟨-, rfl⟩ | ⟨-, ⟨-, rfl⟩ | ⟨-, ⟨-, rfl⟩ | ⟨hroom, rfl⟩⟩⟩⟩ := execPload_iff.mp h
    exacts [hs, hs, hs, hs, hs, hs.setStream (Stream.put_wf_of_length (hs a) (pickBits_length _ _ _ _ _) hroom) a]
  | _ => exact hs.of_streams_eq ((exec_frame h nofun).streams rfl)

/-- Settles O24: the streams are well-formed at reset and every command keeps them so. -/
theorem stepKeepsStreamsWellFormed : Obligations.StepKeepsStreamsWellFormed := fun _ _ =>
  step_keeps (fun hsame hs => hs.of_streams_eq hsame.streams) reset_streamsWf exec_keeps_streamsWf

/-! ## The RS unit (R47, R48) -/

theorem lfsrClear_wf {rs : Rs} (hk : rs.k ≤ Config.rsMaxK) (hg : rs.g = generator rs.k) : (lfsrClear rs).Wf :=
  ⟨hk, hg, fun j _ _ => lfsrClear_r rs j⟩

/-- Every command keeps the RS unit well-formed. -/
theorem exec_keeps_rsWf {i : Instr} (hs : s.rs.Wf) (h : exec i s = .next t) : t.rs.Wf := by
  cases i with
  | reset =>
    obtain rfl := execReset_iff.mp h
    exact reset_rsWf
  | rsgen n =>
    obtain ⟨-, rfl⟩ | ⟨hk, rfl⟩ := execRsgen_iff.mp h
    exacts [hs, lfsrClear_wf hk rfl]
  | rsclr =>
    obtain rfl := execRsclr_iff.mp h
    obtain ⟨hk, hg, -⟩ := hs
    exact lfsrClear_wf hk hg
  | rsfeedi ib =>
    obtain rfl := execRsfeedi_iff.mp h
    exact lfsrClock_wf hs ib
  | rsfeed a =>
    obtain ⟨-, rfl⟩ | ⟨-, rfl⟩ := execRsfeed_iff.mp h
    exacts [hs, lfsrFeed_wf hs _]
  | rssyn a =>
    obtain ⟨-, rfl⟩ | ⟨-, rfl⟩ := execRssyn_iff.mp h
    exacts [hs, hs]
  | _ => exact (exec_frame h nofun).rs rfl ▸ hs

/-- Settles O36: the RS unit is well-formed at reset and every command keeps it so. -/
theorem stepKeepsRsUnitWellFormed : Obligations.StepKeepsRsUnitWellFormed := fun _ _ =>
  step_keeps (P := fun s => s.rs.Wf) (fun hsame hs => hsame.rs ▸ hs) reset_rsWf exec_keeps_rsWf

end Sys2Proof.Machine
end

section
/-! SUPPORT. The module grid and the placement cursor: PBEGIN's cursor, the transfers and the module writes keep them well-formed (R49,
R52, R275); the errors of the placement transfers (R278-R281). -/

namespace Sys2Proof.Machine

variable {s t : State}

/-! ## The cursor (R51, R52) -/

/-- A traversal in progress or over: the cursor is ACTIVE on an assignable position, or DONE. -/
abbrev Cursor.Traversing (d : Nat) (asg : BitGrid) (c : Cursor) : Prop := (∃ n, c.ActiveAt d asg n) ∨ c.pstate = .done

/-- A traversal whose modules passed over and modules left are together all of them is well-formed. -/
theorem Cursor.wf_of_traversing {d : Nat} (hd : IsSide d) {asg : BitGrid} {c : Cursor} (h : c.Traversing d asg)
    (hsum : c.pbits + c.remaining d asg = freeCount d asg) : c.Wf d asg := by
  obtain ⟨n, hn⟩ | hdone := h
  · have ⟨_, _, hact, _⟩ := hn
    exact ⟨fun h => absurd (hact.symm.trans h) nofun, fun _ => ⟨hn.onPath hd, hn.onAssignable, hsum⟩,
      fun h => absurd (hact.symm.trans h) nofun⟩
  · rw [Cursor.remaining_of_done asg hdone] at hsum
    exact ⟨fun h => absurd (hdone.symm.trans h) nofun, fun h => absurd (hdone.symm.trans h) nofun, fun _ => hsum⟩

/-- A well-formed cursor that is not IDLE is traversing, with PBITS and `remaining()` together all the modules. -/
theorem Cursor.Wf.traversing {d : Nat} (hd : IsSide d) {asg : BitGrid} {c : Cursor} (h : c.Wf d asg) (hi : c.pstate ≠ .idle) :
    c.Traversing d asg ∧ c.pbits + c.remaining d asg = freeCount d asg := by
  obtain ⟨-, hactive, hdone⟩ := h
  cases hs : c.pstate with
  | idle => exact absurd hs hi
  | active =>
    obtain ⟨hpath, hon, hsum⟩ := hactive hs
    exact ⟨.inl (Cursor.ActiveAt.of_onPath hd hpath hon hs), hsum⟩
  | done => exact ⟨.inr hs, by rw [Cursor.remaining_of_done asg hs]; exact hdone hs⟩

/-- A transfer of at most `remaining()` modules keeps the cursor well-formed. -/
theorem Cursor.Wf.steps {d : Nat} (hd : IsSide d) {asg : BitGrid} {c : Cursor} (h : c.Wf d asg) (hi : c.pstate ≠ .idle) {k : Nat}
    (hk : k ≤ c.remaining d asg) : (c.steps d asg k).Wf d asg := by
  obtain ⟨htrav, hsum⟩ := h.traversing hd hi
  obtain ⟨hbits, hleft, htrav'⟩ := Cursor.steps_spec hd htrav hk
  exact Cursor.wf_of_traversing hd htrav' (by omega)

/-- PBEGIN's cursor is well-formed (R277). -/
theorem beginCursor_wf {d : Nat} (hd : IsSide d) (asg : BitGrid) : (beginCursor d asg).Wf d asg := by
  obtain ⟨hbits, hleft, hend⟩ := beginCursor_spec hd asg
  refine Cursor.wf_of_traversing hd ?_ (by omega)
  obtain ⟨m, -, hm, -⟩ | ⟨hdone, -⟩ := hend
  · exact .inl ⟨m, hm⟩
  · exact .inr hdone

/-- An IDLE cursor that has counted nothing is well-formed on any grid. -/
theorem Cursor.idle_wf (d : Nat) (asg : BitGrid) (c : Cursor) : Cursor.Wf d asg { c with pstate := .idle, pbits := 0 } :=
  ⟨fun _ => rfl, nofun, nofun⟩

/-! ## The grid with its cursor -/

theorem Grid.Wf.isSide {g : Grid} (h : g.Wf) (hv : g.gvalid = true) : IsSide g.dim := by
  obtain ⟨-, hver, hdim, -, -⟩ := h
  rw [hdim, if_pos hv]
  exact isSide_dimOf (Nat.one_le_iff_ne_zero.mpr (hver.mp hv))

theorem Grid.Wf.mod_square {g : Grid} (h : g.Wf) : BitGrid.Square g.dim g.mod := by
  obtain ⟨-, -, -, hmod, -⟩ := h
  exact hmod

theorem Grid.Wf.asg_square {g : Grid} (h : g.Wf) : BitGrid.Square g.dim g.asg := by
  obtain ⟨-, -, -, -, hasg⟩ := h
  exact hasg

theorem Grid.setMod_wf {g : Grid} (h : g.Wf) {mod : BitGrid} (hm : BitGrid.Square g.dim mod) : Grid.Wf { g with mod := mod } := by
  obtain ⟨hmax, hver, hdim, -, hasg⟩ := h
  exact ⟨hmax, hver, hdim, hm, hasg⟩

theorem Grid.setAsg_wf {g : Grid} (h : g.Wf) {asg : BitGrid} (ha : BitGrid.Square g.dim asg) : Grid.Wf { g with asg := asg } := by
  obtain ⟨hmax, hver, hdim, hmod, -⟩ := h
  exact ⟨hmax, hver, hdim, hmod, ha⟩

theorem State.PlacementWf.gridWf (hs : s.PlacementWf) : s.grid.Wf := hs.1

theorem State.PlacementWf.cursorWf (hs : s.PlacementWf) : s.cursor.Wf s.grid.dim s.grid.asg := hs.2.1

/-- On a defined grid a new well-formed cursor keeps the placement well-formed. -/
theorem State.placementWf_of_gvalid (hv : t.grid.gvalid = true) (hg : t.grid.Wf) (hc : t.cursor.Wf t.grid.dim t.grid.asg) :
    t.PlacementWf :=
  ⟨hg, hc, fun h => absurd (hv.symm.trans h) (by decide)⟩

theorem State.PlacementWf.of_eq (hs : s.PlacementWf) (hg : t.grid = s.grid) (hc : t.cursor = s.cursor) : t.PlacementWf := by
  rw [State.PlacementWf, hg, hc]
  exact hs

/-- New module colours keep the placement well-formed. -/
theorem State.PlacementWf.of_mod (hs : s.PlacementWf) {mod : BitGrid} (hm : BitGrid.Square s.grid.dim mod)
    (hg : t.grid = { s.grid with mod := mod }) (hc : t.cursor = s.cursor) : t.PlacementWf := by
  obtain ⟨hgrid, hcursor, hidle⟩ := hs
  rw [State.PlacementWf, hg, hc]
  exact ⟨Grid.setMod_wf hgrid hm, hcursor, hidle⟩

section
variable (hs : s.PlacementWf) (hv : s.grid.gvalid = true) (hi : s.cursor.pstate ≠ .idle)
include hs hv hi

/-- Modules read at the cursor: it moves on (R279, R281). -/
theorem State.PlacementWf.pick {n : Nat} (hn : n ≤ s.modulesLeft) :
    (s.setCursor (pickBits s.grid.dim s.grid.asg s.grid.mod n s.cursor).2).PlacementWf := by
  refine State.placementWf_of_gvalid hv hs.gridWf ?_
  rw [State.setCursor_cursor, pickBits_cursor]
  exact hs.cursorWf.steps (hs.gridWf.isSide hv) hi hn

/-- Modules written at the cursor: it moves on and the grid stays square (R278, R280). -/
theorem State.PlacementWf.place {bs : List Bool} {n : Nat} (hl : bs.length = n) (hn : n ≤ s.modulesLeft) :
    (s.setPlaced (placeBits s.grid.dim s.grid.asg bs s.grid.mod s.cursor).1
      (placeBits s.grid.dim s.grid.asg bs s.grid.mod s.cursor).2).PlacementWf := by
  subst hl
  have hd := hs.gridWf.isSide hv
  obtain ⟨hsquare, -, -⟩ := placeBits_frame hd (mod := s.grid.mod) (hs.cursorWf.traversing hd hi).1 hn
  refine State.placementWf_of_gvalid hv (Grid.setMod_wf hs.gridWf (hsquare hs.gridWf.mod_square)) ?_
  rw [State.setPlaced_cursor, placeBits_cursor]
  exact hs.cursorWf.steps hd hi hn

end

/-- Every command keeps the grid and the placement cursor well-formed. -/
theorem exec_keeps_placementWf {i : Instr} (hs : s.PlacementWf) (h : exec i s = .next t) : t.PlacementWf := by
  have hg := hs.gridWf
  cases i with
  | reset =>
    obtain rfl := execReset_iff.mp h
    exact reset_placementWf
  | ginit ib =>
    obtain ⟨-, rfl⟩ | ⟨⟨h1, h40⟩, rfl⟩ := execGinit_iff.mp h
    exacts [hs, State.placementWf_of_gvalid rfl (blankGrid_wf _ h1 h40) (beginCursor_wf (isSide_dimOf h1) _)]
  | modw row col val =>
    obtain ⟨-, rfl⟩ | ⟨-, ⟨-, rfl⟩ | ⟨-, -, rfl⟩ | ⟨-, -, -, rfl⟩⟩ := execModw_iff.mp h
    exacts [hs, hs, hs, hs.of_mod (BitGrid.square_set hg.mod_square _ _ _) rfl ((exec_frame h nofun).cursor rfl)]
  | amw row col val =>
    obtain ⟨-, rfl⟩ | ⟨-, ⟨-, rfl⟩ | ⟨-, -, rfl⟩ | ⟨hv, -, -, rfl⟩⟩ := execAmw_iff.mp h
    exacts [hs, hs, hs, State.placementWf_of_gvalid hv (Grid.setAsg_wf hg (BitGrid.square_set hg.asg_square _ _ _)) (Cursor.idle_wf _ _ _)]
  | modw32 row col =>
    obtain ⟨-, rfl⟩ | ⟨-, -, rfl⟩ | ⟨-, hrow, -, rfl⟩ := execModw32_iff.mp h
    exacts [hs, hs, hs.of_mod (writeRow32_square hg.mod_square hrow _ _) rfl ((exec_frame h nofun).cursor rfl)]
  | pbegin =>
    obtain ⟨-, rfl⟩ | ⟨hv, rfl⟩ := execPbegin_iff.mp h
    exacts [hs, State.placementWf_of_gvalid hv hg (beginCursor_wf (hg.isSide hv) _)]
  | pwrite n =>
    obtain ⟨-, rfl⟩ | ⟨-, ⟨-, rfl⟩ | ⟨-, -, rfl⟩ | ⟨hv, hi, ⟨-, rfl⟩ | ⟨hleft, rfl⟩⟩⟩ := execPwrite_iff.mp h
    exacts [hs, hs, hs, hs, hs.place hv hi (wordBits_length _ _) hleft]
  | pread n =>
    obtain ⟨-, rfl⟩ | ⟨-, ⟨-, rfl⟩ | ⟨-, -, rfl⟩ | ⟨hv, hi, ⟨-, rfl⟩ | ⟨hleft, rfl⟩⟩⟩ := execPread_iff.mp h
    exacts [hs, hs, hs, hs, hs.pick hv hi hleft]
  | pstore a =>
    obtain ⟨-, rfl⟩ | ⟨-, -, rfl⟩ | ⟨hv, hi, ⟨-, rfl⟩ | ⟨hbits, ⟨-, rfl⟩ | ⟨hleft, rfl⟩⟩⟩ := execPstore_iff.mp h
    exacts [hs, hs, hs, hs, hs.place hv hi (Stream.next_length hbits) hleft]
  | pload a =>
    obtain ⟨-, rfl⟩ | ⟨-, -, rfl⟩ | ⟨hv, hi, ⟨-, rfl⟩ | ⟨hleft, ⟨-, rfl⟩ | ⟨-, ⟨-, rfl⟩ | ⟨-, rfl⟩⟩⟩⟩ := execPload_iff.mp h
    exacts [hs, hs, hs, hs, hs, hs.pick hv hi hleft]
  | mapply ib =>
    obtain ⟨-, rfl⟩ | ⟨-, ⟨-, rfl⟩ | ⟨-, rfl⟩⟩ := execMapply_iff.mp h
    exacts [hs, hs, hs.of_mod (masked_square _ _ _ _) rfl ((exec_frame h nofun).cursor rfl)]
  | mselect =>
    obtain ⟨-, rfl⟩ | ⟨-, rfl⟩ := execMselect_iff.mp h
    exacts [hs, hs.of_mod (masked_square _ _ _ _) rfl ((exec_frame h nofun).cursor rfl)]
  | _ => exact hs.of_eq ((exec_frame h nofun).grid rfl) ((exec_frame h nofun).cursor rfl)

/-- Settles O54: the placement is well-formed at reset and every command keeps it so. -/
theorem stepKeepsPlacementWellFormed : Obligations.StepKeepsPlacementWellFormed := fun _ _ =>
  step_keeps (fun hsame hs => hs.of_eq hsame.grid hsame.cursor) reset_placementWf exec_keeps_placementWf

/-! ## The errors of the placement transfers (R278-R281) -/

/-- On a defined grid a transfer raises RANGE for an IDLE cursor, or comes to its further checks (R52). -/
theorem idle_or_checks (hv : s.grid.gvalid = true) {checks : Prop} (h : s.cursor.pstate ≠ .idle → checks) :
    (s.grid.gvalid = true ∧ s.cursor.pstate = .idle ∧ s.withError .range = s.raise .range)
      ∨ (s.grid.gvalid = true ∧ s.cursor.pstate ≠ .idle ∧ checks) := by
  by_cases hi : s.cursor.pstate = .idle
  · exact .inl ⟨hv, hi, rfl⟩
  · exact .inr ⟨hv, hi, h hi⟩

/-- Settles O51: on a defined grid, after the check for IDLE, each transfer's checks in the order of its own lemma. -/
theorem placementTransferErrors : Obligations.PlacementTransferErrors := by
  intro s hv left m
  refine ⟨fun n h1 h8 herr => ⟨?_, ?_⟩, fun a herr => ?_, fun a herr => ?_, fun a hi hleft hm hmax => ?_⟩
  · exact execPwrite_iff.mpr (.inr ⟨⟨h1, h8⟩, .inr (idle_or_checks hv fun hi => .inl ⟨herr.resolve_left hi, rfl⟩)⟩)
  · exact execPread_iff.mpr (.inr ⟨⟨h1, h8⟩, .inr (idle_or_checks hv fun hi => .inl ⟨herr.resolve_left hi, rfl⟩)⟩)
  · refine execPstore_iff.mpr (.inr (idle_or_checks hv fun hi => ?_))
    by_cases hbits : (s.stream a).remaining < m
    · exact .inl ⟨hbits, rfl⟩
    · exact .inr ⟨Nat.not_lt.mp hbits, .inl ⟨(herr.resolve_left hi).resolve_left hbits, rfl⟩⟩
  · exact execPload_iff.mpr (.inr (idle_or_checks hv fun hi => .inl ⟨herr.resolve_left hi, rfl⟩))
  · have hover : (s.stream a).overflows m = true := Stream.overflows_eq_true.mpr (hmax.trans_le (le_ceil8 _))
    exact execPload_iff.mpr (.inr (.inr ⟨hv, hi, .inr ⟨hleft, .inr ⟨hm.ne', .inl ⟨hover, rfl⟩⟩⟩⟩))

end Sys2Proof.Machine
end

section
/-! SUPPORT. The host's accesses with and without a meaning (20_memory.md R81), and the commands that read and write single modules and row
words inside the grid (20_memory.md R84, 44_grid_layout.md R269-R273). -/

namespace Sys2Proof.Machine

variable {s : State}

/-! ## The host's accesses (R81) -/

/-- No command stops the machine (R346): ten succeed in every state, and the others end as `complete` does. -/
theorem exec_is_next (i : Instr) (s : State) : ∃ t, exec i s = .next t := by
  cases i with
  | nop | clrerr | reset | screate | sdup | stell | sremain | gfmul | rsclr | rsfeedi => exact ⟨_, rfl⟩
  | _ => exact complete_is_next s _

theorem issue_is_next (w : Word) (s : State) : ∃ t, issue w s = .next t := by
  cases hw : decode w with
  | ok i => rw [issue_of_ok hw]; exact exec_is_next i s
  | error e => exact ⟨_, issue_of_error hw⟩

theorem writeOffset_is_next (off : Nat) (v : Word) (s : State) : ∃ t, writeOffset off v s = .next t := by
  unfold writeOffset
  split
  · exact issue_is_next v s
  · exact ⟨_, rfl⟩
  · exact ⟨_, rfl⟩
  · exact ⟨_, rfl⟩

/-- An access without a meaning is refused by its offset and size, a read and a write alike. -/
theorem step_unsupported {off size : Nat} {v : Word} {rest : List Access} (hbad : ¬(size = 4 ∧ off % 4 = 0 ∧ off ≤ 0x0FC))
    (h : s.host.pending = .read off size :: rest ∨ s.host.pending = .write off size v :: rest) :
    step s = .refused (.unsupportedAccess off size) := by
  obtain hread | hwrite := h
  · rw [step_of_pending hread, perform, if_neg (mt supportedAccess_iff.mp hbad)]
  · rw [step_of_pending hwrite, perform, if_neg (mt supportedAccess_iff.mp hbad)]

/-- Settles O7: a supported read gives back its register, a supported write ends as its command does, and the rest is refused. -/
theorem unsupportedAccessIsRefused : Obligations.UnsupportedAccessIsRefused := by
  intro s off size v rest h
  refine ⟨?_, fun hbad => step_unsupported hbad h⟩
  rintro ⟨rfl, h4, hle⟩
  obtain hread | hwrite := h
  · exact ⟨_, step_read h4 hle hread⟩
  · rw [step_write h4 hle hwrite]
    exact writeOffset_is_next off v _

/-! ## Access to modules inside the grid (R269-R273) -/

section
variable {row col val : Byte} (hv : s.grid.gvalid = true) (hrow : row.toNat < s.grid.dim) (hcol : col.toNat < s.grid.dim)
include hv hrow hcol

/-- MODW inside the grid (R269). -/
theorem exec_modw_of_inside (hval : val.toNat < 2) :
    exec (.modw row col val) s = .next (s.setGrid
      { s.grid with mod := BitGrid.set s.grid.mod row.toNat col.toNat (val.getLsbD 0) }).succeed :=
  execModw_iff.mpr (.inr ⟨hval, .inr (.inr ⟨hv, hrow, hcol, rfl⟩)⟩)

/-- AMW inside the grid (R271). -/
theorem exec_amw_of_inside (hval : val.toNat < 2) :
    exec (.amw row col val) s = .next ((s.setGrid
      { s.grid with asg := BitGrid.set s.grid.asg row.toNat col.toNat (val.getLsbD 0) }).setCursor
      { s.cursor with pstate := .idle, pbits := 0 }).succeed :=
  execAmw_iff.mpr (.inr ⟨hval, .inr (.inr ⟨hv, hrow, hcol, rfl⟩)⟩)

/-- MODR inside the grid (R270). -/
theorem exec_modr_of_inside :
    exec (.modr row col) s = .next (s.setResult (0#30 ++ BitVec.ofBool (s.asgAt row.toNat col.toNat)
      ++ BitVec.ofBool (s.modAt row.toNat col.toNat))).succeed :=
  execModr_iff.mpr (.inr (.inr ⟨hv, hrow, hcol, rfl⟩))

/-- MODW32 inside the grid (R272). -/
theorem exec_modw32_of_inside :
    exec (.modw32 row col) s = .next (s.setGrid
      { s.grid with mod := writeRow32 s.grid.dim s.grid.mod row.toNat col.toNat s.arg0 }).succeed :=
  execModw32_iff.mpr (.inr (.inr ⟨hv, hrow, hcol, rfl⟩))

/-- MODR32 inside the grid (R273). -/
theorem exec_modr32_of_inside :
    exec (.modr32 row col) s = .next (s.setResult (readRow32 s.grid.dim s.grid.mod row.toNat col.toNat)).succeed :=
  execModr32_iff.mpr (.inr (.inr ⟨hv, hrow, hcol, rfl⟩))

end

/-- MODR's two bits as a number (R270). -/
theorem modrWord_eq_ofNat (asg mod : Bool) :
    0#30 ++ BitVec.ofBool asg ++ BitVec.ofBool mod = BitVec.ofNat 32 (2 * asg.toNat + mod.toNat) := by
  cases asg <;> cases mod <;> rfl

/-- The modules of the row inside the window are MODW32's (R272, R84). -/
theorem writeRow32_get_inside {d : Nat} {g : BitGrid} (h : BitGrid.Square d g) {row col j : Nat} (hr : row < d) (v : Word)
    (hj : j < 32) (hc : col + j < d) : BitGrid.get (writeRow32 d g row col v) row (col + j) = v.getLsbD (31 - j) := by
  rw [writeRow32_get h hr, if_pos (by omega), Nat.add_sub_cancel_left]

/-- Outside the row and the window MODW32 changes no module (R272). -/
theorem writeRow32_get_outside {d : Nat} {g : BitGrid} (h : BitGrid.Square d g) {row col r c : Nat} (hr : row < d) (v : Word)
    (hout : r ≠ row ∨ c < col ∨ col + 32 ≤ c) : BitGrid.get (writeRow32 d g row col v) r c = BitGrid.get g r c := by
  rw [writeRow32_get h hr, if_neg (by omega)]

/-- Settles O46: each command's next state inside the grid, and what its update of a bit grid does to one module. -/
theorem moduleAccessEffects : Obligations.ModuleAccessEffects := by
  intro row col val s hg hv hrow hcol
  have hmod := hg.mod_square
  refine ⟨fun hval => ⟨⟨_, exec_modw_of_inside hv hrow hcol hval, ⟨rfl, rfl⟩, ?_, ?_, rfl, rfl⟩,
      ⟨_, exec_amw_of_inside hv hrow hcol hval, ⟨rfl, rfl⟩, ?_, ?_, rfl, rfl⟩⟩,
    ⟨_, exec_modr_of_inside hv hrow hcol, ⟨rfl, rfl⟩, modrWord_eq_ofNat _ _⟩,
    ⟨_, exec_modw32_of_inside hv hrow hcol, ⟨rfl, rfl⟩, ?_, ?_, rfl, rfl⟩,
    ⟨_, exec_modr32_of_inside hv hrow hcol, ⟨rfl, rfl⟩, ?_⟩⟩
  · exact BitGrid.get_set_same hmod hrow hcol _
  · exact fun r c hne => BitGrid.get_set_ne _ _ hne
  · exact BitGrid.get_set_same hg.asg_square hrow hcol _
  · exact fun r c hne => BitGrid.get_set_ne _ _ hne
  · exact fun j hj hc => writeRow32_get_inside hmod hrow _ hj hc
  · exact fun r c hout => writeRow32_get_outside hmod hrow _ hout
  · exact fun j hj => readRow32_getLsbD _ _ _ _ hj

end Sys2Proof.Machine
end

section
/-! SUPPORT. The decoder against the encoder (30_encoding.md R100-R111): a command's word decodes to its fields (`decodeFields_encode`),
and a word that is no command's is refused by its opcode or by its must-be-0 bits (`decode_cases`). The encoding obligations follow from
these two. -/

namespace Sys2Proof

open Laws.EncodeOpcode (of_wordN of_wordR of_wordI of_wordM)

/-! ## Decoding a command's word -/

@[simp] theorem opcField_encode (i : Instr) : opcField (encode i) = i.opcode := by
  cases i with
  | nop | clrerr | reset | polymod | rsclr | fmtdec | fmtdec2 | verdec | dimchk | pbegin | mselect => exact of_wordN rfl
  | screate | sresize | sdup | sseek | stell | sremain | sread | swrite | scopy | sconcat | rsgen | rsfeed | rsemit | rssyn | rsrdg
  | rsrdr | rsrds | pwrite | pread | pstore | pload | mscore => exact of_wordR _ _ _ rfl
  | gfmul | rsfeedi | fmtenc | verenc | ginit | mapply => exact of_wordI _ _ rfl
  | modw | modr | amw | modw32 | modr32 => exact of_wordM _ _ _ rfl

section
variable (c : BitVec 8) (a b : StreamId) (n : BitVec 6) (ia ib row col val : Byte)

theorem formN_wordN (i : Instr) : formN (wordN c) i = .ok i := by simp [formN, checkZero]

theorem formRa_wordR (mk : StreamId → Instr) : formRa (wordR c a.toBits 0 0) mk = .ok (mk a) := by simp [formRa, checkZero]

theorem formRab_wordR (mk : StreamId → StreamId → Instr) : formRab (wordR c a.toBits b.toBits 0) mk = .ok (mk a b) := by
  simp [formRab, checkZero]

theorem formRan_wordR (mk : StreamId → BitVec 6 → Instr) : formRan (wordR c a.toBits 0 n) mk = .ok (mk a n) := by
  simp [formRan, checkZero]

theorem formRn_wordR (mk : BitVec 6 → Instr) : formRn (wordR c 0 0 n) mk = .ok (mk n) := by simp [formRn, checkZero]

theorem formIb_wordI (mk : Byte → Instr) : formIb (wordI c 0 ib) mk = .ok (mk ib) := by simp [formIb, checkZero]

theorem formIab_wordI (mk : Byte → Byte → Instr) : formIab (wordI c ia ib) mk = .ok (mk ia ib) := by simp [formIab, checkZero]

theorem formM_wordM (mk : Byte → Byte → Instr) : formM (wordM c row col 0) mk = .ok (mk row col) := by simp [formM, checkZero]

theorem formMv_wordM (mk : Byte → Byte → Byte → Instr) : formMv (wordM c row col val) mk = .ok (mk row col val) := by
  simp [formMv]

end

/-- No bit of a command's word is dropped, whether its fields are legal or not (R107, R111). -/
theorem decodeFields_encode (i : Instr) : decodeFields (encode i) = .ok i := by
  rw [decodeFields, opcField_encode]
  cases i with
  | nop | clrerr | reset | polymod | rsclr | fmtdec | fmtdec2 | verdec | dimchk | pbegin | mselect => exact formN_wordN _ _
  | screate | sresize | sseek | stell | sremain | rsfeed | rsemit | rssyn | pstore | pload => exact formRa_wordR _ _ _
  | sdup | scopy | sconcat => exact formRab_wordR _ _ _ _
  | sread | swrite => exact formRan_wordR _ _ _ _
  | rsgen | rsrdg | rsrdr | rsrds | pwrite | pread | mscore => exact formRn_wordR _ _ _
  | rsfeedi | fmtenc | verenc | ginit | mapply => exact formIb_wordI _ _ _
  | gfmul => exact formIab_wordI _ _ _ _
  | modr | modw32 | modr32 => exact formM_wordM _ _ _ _
  | modw | amw => exact formMv_wordM _ _ _ _ _

theorem decode_encode (i : Instr) : decode (encode i) = if i.wf then .ok i else .error .illegalValue := by
  rw [decode, decodeFields_encode]

/-- Settles O1: the fields come back, and legal ones pass the check of R109's condition (3). -/
theorem decodeEncodeRoundTrip : Obligations.DecodeEncodeRoundTrip := by
  intro i hwf
  rw [decode_encode, if_pos hwf]

/-! ## Words that are no command's -/

/-- What the check of a form leaves of a word `w` whose opcode selects that form: `w` is a command's word, or the check refuses it (R109,
condition 2). -/
def FormOutcome (w : Word) (r : Except Illegal Instr) : Prop :=
  (∃ i, encode i = w) ∨ (∃ i : Instr, i.opcode = opcField w) ∧ r = .error .reservedField

section
variable {w : Word}

theorem checkZero_outcome {zero : Bool} {i : Instr} (hop : opcField (encode i) = opcField w) (hw : zero = true → encode i = w) :
    FormOutcome w (checkZero zero i) := by
  cases zero with
  | true => exact .inl ⟨i, hw rfl⟩
  | false => exact .inr ⟨⟨i, (opcField_encode i).symm.trans hop⟩, rfl⟩

theorem formN_outcome {i : Instr} (he : encode i = wordN (opcField w)) : FormOutcome w (formN w i) :=
  checkZero_outcome (by rw [he, opcField_wordN]) fun h => by
    rw [he, wordN_fields (by simpa using h)]

theorem formRa_outcome {mk : StreamId → Instr} (he : ∀ a, encode (mk a) = wordR (opcField w) a.toBits 0 0) :
    FormOutcome w (formRa w mk) :=
  checkZero_outcome (by rw [he, opcField_wordR]) fun h => by
    obtain ⟨⟨hsb, hn⟩, hlow⟩ : (sbField w = 0 ∧ nField w = 0) ∧ lowField w = 0 := by simpa using h
    rw [he, StreamId.toBits_ofBits, ← hsb, ← hn, wordR_fields hlow]

theorem formRab_outcome {mk : StreamId → StreamId → Instr}
    (he : ∀ a b, encode (mk a b) = wordR (opcField w) a.toBits b.toBits 0) : FormOutcome w (formRab w mk) :=
  checkZero_outcome (by rw [he, opcField_wordR]) fun h => by
    obtain ⟨hn, hlow⟩ : nField w = 0 ∧ lowField w = 0 := by simpa using h
    rw [he, StreamId.toBits_ofBits, StreamId.toBits_ofBits, ← hn, wordR_fields hlow]

theorem formRan_outcome {mk : StreamId → BitVec 6 → Instr} (he : ∀ a n, encode (mk a n) = wordR (opcField w) a.toBits 0 n) :
    FormOutcome w (formRan w mk) :=
  checkZero_outcome (by rw [he, opcField_wordR]) fun h => by
    obtain ⟨hsb, hlow⟩ : sbField w = 0 ∧ lowField w = 0 := by simpa using h
    rw [he, StreamId.toBits_ofBits, ← hsb, wordR_fields hlow]

theorem formRn_outcome {mk : BitVec 6 → Instr} (he : ∀ n, encode (mk n) = wordR (opcField w) 0 0 n) :
    FormOutcome w (formRn w mk) :=
  checkZero_outcome (by rw [he, opcField_wordR]) fun h => by
    obtain ⟨⟨hsa, hsb⟩, hlow⟩ : (saField w = 0 ∧ sbField w = 0) ∧ lowField w = 0 := by simpa using h
    have hw := wordR_fields hlow
    rwa [hsa, hsb, ← he] at hw

theorem formIb_outcome {mk : Byte → Instr} (he : ∀ ib, encode (mk ib) = wordI (opcField w) 0 ib) : FormOutcome w (formIb w mk) :=
  checkZero_outcome (by rw [he, opcField_wordI]) fun h => by
    obtain ⟨hrow, hcol⟩ : rowField w = 0 ∧ colField w = 0 := by simpa using h
    rw [he, ← hcol, wordI_fields hrow]

theorem formIab_outcome {mk : Byte → Byte → Instr} (he : ∀ ia ib, encode (mk ia ib) = wordI (opcField w) ia ib) :
    FormOutcome w (formIab w mk) :=
  checkZero_outcome (by rw [he, opcField_wordI]) fun h => by
    rw [he, wordI_fields (by simpa using h)]

theorem formM_outcome {mk : Byte → Byte → Instr} (he : ∀ row col, encode (mk row col) = wordM (opcField w) row col 0) :
    FormOutcome w (formM w mk) :=
  checkZero_outcome (by rw [he, opcField_wordM]) fun h => by
    have hval : valField w = 0 := by simpa using h
    rw [he, ← hval, wordM_fields]

/-- Format M with VAL has no bit that must be 0. -/
theorem formMv_outcome {mk : Byte → Byte → Byte → Instr}
    (he : ∀ row col val, encode (mk row col val) = wordM (opcField w) row col val) : FormOutcome w (formMv w mk) :=
  .inl ⟨_, (he _ _ _).trans (wordM_fields w)⟩

end

/-! ## The opcodes (R107, R110) -/

/-- The seven ranges of opcodes that R110 leaves unassigned. -/
def ReservedOpcode (opc : BitVec 8) : Prop :=
  let o := opc.toNat
  (0x03 ≤ o ∧ o ≤ 0x0F) ∨ (0x1A ≤ o ∧ o ≤ 0x1F) ∨ (0x2B ≤ o ∧ o ≤ 0x2F) ∨ (0x36 ≤ o ∧ o ≤ 0x3F)
    ∨ (0x46 ≤ o ∧ o ≤ 0x47) ∨ (0x4D ≤ o ∧ o ≤ 0x4F) ∨ (0x53 ≤ o ∧ o ≤ 0xFF)

theorem opcode_not_reserved (i : Instr) : ¬ ReservedOpcode i.opcode := by
  cases i <;> simp [ReservedOpcode, Instr.opcode]

theorem ofNat_eq_opcField {w : Word} {k : Nat} (h : (opcField w).toNat = k) : BitVec.ofNat 8 k = opcField w := by
  rw [← h, BitVec.ofNat_toNat, BitVec.setWidth_eq]

/-- Every word is a command's, or it has a command's opcode and is refused for its must-be-0 bits, or its opcode is reserved: the first two
conditions of R109, in their order. -/
theorem decodeFields_cases (w : Word) :
    FormOutcome w (decodeFields w)
      ∨ ReservedOpcode (opcField w) ∧ decodeFields w = .error (.unassignedOpcode (opcField w)) := by
  unfold decodeFields
  split
  -- the last row of `decodeFields`, which takes every opcode that no row before it has
  case h_45 =>
    refine .inr ⟨?_, rfl⟩
    simp only [imp_false, ReservedOpcode] at *
    omega
  all_goals
    have hop := ofNat_eq_opcField ‹_›
    left
  any_goals with_reducible apply formN_outcome
  any_goals with_reducible apply formRa_outcome
  any_goals with_reducible apply formRab_outcome
  any_goals with_reducible apply formRan_outcome
  any_goals with_reducible apply formRn_outcome
  any_goals with_reducible apply formIb_outcome
  any_goals with_reducible apply formIab_outcome
  any_goals with_reducible apply formM_outcome
  any_goals with_reducible apply formMv_outcome
  all_goals simp only [← hop]; intros; rfl

/-- With `decode_encode`, all that `decode` can answer. -/
theorem decode_cases (w : Word) :
    (∃ i, encode i = w)
      ∨ (∃ i : Instr, i.opcode = opcField w) ∧ decode w = .error .reservedField
      ∨ ReservedOpcode (opcField w) ∧ decode w = .error (.unassignedOpcode (opcField w)) := by
  obtain (hw | ⟨hop, h⟩) | ⟨hop, h⟩ := decodeFields_cases w
  · exact .inl hw
  · exact .inr (.inl ⟨hop, by rw [decode, h]⟩)
  · exact .inr (.inr ⟨hop, by rw [decode, h]⟩)

/-! ## What each answer of the decoder says of the word (R109) -/

section
variable {w : Word}

theorem decode_eq_ok_iff {i : Instr} : decode w = .ok i ↔ i.wf = true ∧ encode i = w := by
  constructor
  · intro h
    obtain ⟨j, rfl⟩ | ⟨-, h'⟩ | ⟨-, h'⟩ := decode_cases w
    · rw [decode_encode] at h
      split at h <;> cases h
      exact ⟨‹_›, rfl⟩
    all_goals simp [h'] at h
  · rintro ⟨hwf, rfl⟩
    exact decodeEncodeRoundTrip i hwf

theorem decode_eq_illegalValue_iff : decode w = .error .illegalValue ↔ ∃ i : Instr, encode i = w ∧ i.wf = false := by
  constructor
  · intro h
    obtain ⟨i, rfl⟩ | ⟨-, h'⟩ | ⟨-, h'⟩ := decode_cases w
    · exact ⟨i, rfl, by simpa [decode_encode] using h⟩
    all_goals simp [h'] at h
  · rintro ⟨i, rfl, hwf⟩
    simp [decode_encode, hwf]

/-- A command's word is refused, if at all, by R109's condition (3). -/
theorem decode_encode_ne_error {e : Illegal} (he : e ≠ .illegalValue) (i : Instr) : decode (encode i) ≠ .error e := by
  rw [decode_encode]
  split <;> simp [he.symm]

theorem decode_eq_reservedField_iff :
    decode w = .error .reservedField ↔ (∃ i : Instr, i.opcode = opcField w) ∧ ∀ i : Instr, encode i ≠ w := by
  constructor
  · intro h
    have hne (i : Instr) (hw : encode i = w) : False := decode_encode_ne_error (by decide) i (hw ▸ h)
    obtain ⟨i, hw⟩ | ⟨hop, -⟩ | ⟨-, h'⟩ := decode_cases w
    · exact (hne i hw).elim
    · exact ⟨hop, hne⟩
    · simp [h'] at h
  · rintro ⟨⟨i, hop⟩, hne⟩
    obtain ⟨j, hw⟩ | ⟨-, h⟩ | ⟨hres, -⟩ := decode_cases w
    · exact absurd hw (hne j)
    · exact h
    · exact absurd (hop ▸ hres) (opcode_not_reserved i)

theorem decode_eq_unassignedOpcode_iff :
    decode w = .error (.unassignedOpcode (opcField w)) ↔ ReservedOpcode (opcField w) := by
  have hop {i : Instr} (h : i.opcode = opcField w) : ¬ ReservedOpcode (opcField w) := h ▸ opcode_not_reserved i
  obtain ⟨i, rfl⟩ | ⟨⟨i, hi⟩, h⟩ | ⟨hres, h⟩ := decode_cases w
  · exact iff_of_false (decode_encode_ne_error (by simp) i) (hop (opcField_encode i).symm)
  · exact iff_of_false (by simp [h]) (hop hi)
  · exact iff_of_true h hres

end

/-! ## The obligations on the decoder's answers -/

/-- Settles O2: every answer of the decoder, by the condition of R109 that fails first. -/
theorem decodeAcceptsExactlyLegalWords : Obligations.DecodeAcceptsExactlyLegalWords :=
  fun _ => ⟨fun _ => decode_eq_ok_iff, decode_eq_reservedField_iff, decode_eq_illegalValue_iff⟩

/-- Settles O4: the reserved opcodes are those no row of `decodeFields` has, and NOP's word is 0. -/
theorem unassignedOpcodesAreIllegal : Obligations.UnassignedOpcodesAreIllegal := by
  refine ⟨fun w => decode_eq_unassignedOpcode_iff.symm, fun w => ?_⟩
  calc decode w = .ok .nop
    _ ↔ Instr.nop.wf = true ∧ encode .nop = w := decode_eq_ok_iff
    _ ↔ encode .nop = w := and_iff_right rfl
    _ ↔ w = 0 := eq_comm

/-- Settles O3: each word is that of its command, written out in its format. -/
theorem decodeSampleWords : Obligations.DecodeSampleWords :=
  ⟨decodeEncodeRoundTrip .nop rfl, decodeEncodeRoundTrip (.sread .s3 4) rfl, decodeEncodeRoundTrip (.scopy .s0 .s1) rfl,
    decodeEncodeRoundTrip (.gfmul 0x53 0xCA) rfl, decodeEncodeRoundTrip (.fmtenc 0x1D) rfl,
    decodeEncodeRoundTrip (.modw 20 8 1) rfl, decodeEncodeRoundTrip (.pwrite 8) rfl, decodeEncodeRoundTrip (.mapply 7) rfl⟩

end Sys2Proof
end

section
/-! SUPPORT. The control commands and the platform's reset (40_control.md R140-R142, 70_reset_and_hazards.md R380): the next state of each,
in every state. -/

namespace Sys2Proof.Machine

variable {s : State}

/-! ## NOP and CLRERR (R140, R141) -/

theorem exec_nop : exec .nop s = .next s.succeed := execNop_iff.mpr rfl

theorem exec_clrerr : exec .clrerr s = .next (s.setStatus { s.status with firstErr := .ok, lastErr := .ok }).succeed :=
  execClrerr_iff.mpr rfl

/-! ## RESET and the platform's reset (R142, R380) -/

/-- After a reset LASTERR is already 0, so that RESET's success adds nothing to it (R58, R341). -/
theorem hardReset_succeed : (hardReset s).succeed = hardReset s := rfl

theorem exec_reset : exec .reset s = .next (hardReset s) := execReset_iff.mpr hardReset_succeed.symm

/-- The platform's reset is the host's access: it leaves the queue, and the host gets nothing back (R380, log 11). -/
theorem step_reset {rest : List Access} (h : s.host.pending = .reset :: rest) : step s = .next (hardReset (s.takeAccess rest)) := by
  rw [step_of_pending h, perform]

/-- Settles O17: the next state of each of the three commands and of the platform's reset. -/
theorem controlCommandEffects : Obligations.ControlCommandEffects :=
  fun _ => ⟨exec_nop, exec_clrerr, exec_reset, fun _ => step_reset⟩

end Sys2Proof.Machine
end

section
/-! SUPPORT. The bit-stream commands (41_bitstream.md R150-R163): the next state of each, case by case, what it does to the bits, and what
the ten commands leave unchanged. -/

namespace Sys2Proof.Machine

/-! ## Writes and reads at the cursor (R150, R151) -/

section
variable {st : Stream} {bs : List Bool} {n : Nat}

/-- STREAM_MAX_BITS is a whole number of bytes, so that rounding up a size does not matter for its bound (R10, R150). -/
theorem ceil8_le_streamMaxBits_iff {x : Nat} : ceil8 x ≤ Config.streamMaxBits ↔ x ≤ 32768 :=
  ⟨(le_ceil8 x).trans, fun h => ceil8_le h rfl⟩

theorem Stream.overflows_eq_false_iff_le : st.overflows n = false ↔ st.pos + n ≤ 32768 :=
  Stream.overflows_eq_false.trans ceil8_le_streamMaxBits_iff

theorem Stream.overflows_eq_true_iff_lt : st.overflows n = true ↔ 32768 < st.pos + n := by
  rw [← Bool.not_eq_false, Stream.overflows_eq_false_iff_le, Nat.not_le]

theorem Stream.bitAt_congr {st' : Stream} (h : st'.bits = st.bits) (i : Nat) : st'.bitAt i = st.bitAt i := by
  rw [Stream.bitAt, Stream.bitAt, h]

/-- The stream after a write of `m` bits, `f` giving the bits (R150). -/
theorem Stream.put_spec (h : st.pos ≤ st.count) {m : Nat} (hl : bs.length = m) {f : Nat → Bool}
    (hf : ∀ i, i < m → bs.getD i false = f i) :
    (st.put bs).pos = st.pos + m ∧ (st.put bs).count = st.pos + m
      ∧ (st.put bs).cap = (if st.cap < st.pos + m then ceil8 (st.pos + m) else st.cap)
      ∧ (∀ i, i < st.pos → (st.put bs).bitAt i = st.bitAt i) ∧ ∀ i, i < m → (st.put bs).bitAt (st.pos + i) = f i := by
  subst hl
  exact ⟨rfl, Stream.put_count h bs, rfl, fun i hi => Stream.put_bitAt_lt h bs hi,
    fun i hi => (Stream.put_bitAt_ge h bs i).trans (hf i hi)⟩

/-- Back at the old cursor, the bits of a write are the next ones (R163). -/
theorem Stream.next_put (h : st.pos ≤ st.count) (bs : List Bool) :
    Stream.next { st.put bs with pos := st.pos } bs.length = bs := by
  have hl : (st.bits.take st.pos).length = st.pos := List.length_take_of_le h
  rw [Stream.next, Stream.put_bits, List.drop_left' hl, List.take_length]

/-- The next `m + n` bits are the next `m` and then `n` more (R151). -/
theorem Stream.next_add (st : Stream) (m n : Nat) : st.next (m + n) = st.next m ++ (st.advance m).next n := by
  simp only [Stream.next, Stream.advance, List.take_add, List.drop_drop]

theorem Stream.advance_advance (st : Stream) (m n : Nat) : (st.advance m).advance n = st.advance (m + n) := by
  simp only [Stream.advance, Nat.add_assoc]

/-- The first bit of a sequence is the most significant bit of its word, and the word is zero-extended (R151). -/
theorem bitsToWord_getLsbD (h : bs.length ≤ 32) (j : Nat) :
    (bitsToWord bs).getLsbD j = (decide (j < bs.length) && bs.getD (bs.length - 1 - j) false) := by
  rw [bitsToWord, BitVec.getLsbD_ofNat, bitsToNat_testBit]
  by_cases hj : j < bs.length
  · simp [hj, hj.trans_le h]
  · simp [hj]

/-- Bit `n-1-i` of the word read is the stream's bit `i` past the cursor (R151). -/
theorem bitsToWord_next_getLsbD (hn : n ≤ 32) (hleft : n ≤ st.remaining) {i : Nat} (hi : i < n) :
    (bitsToWord (st.next n)).getLsbD (n - 1 - i) = st.bitAt (st.pos + i) := by
  have hl := Stream.next_length hleft
  have hback : n - 1 - (n - 1 - i) = i := by omega
  have hlt : n - 1 - i < n := by omega
  rw [bitsToWord_getLsbD (hl.trans_le hn), hl, hback, Stream.next_getD hi, decide_eq_true hlt, Bool.true_and]

theorem bitsToWord_next_getLsbD_of_ge (hn : n ≤ 32) (hleft : n ≤ st.remaining) {j : Nat} (hj : n ≤ j) :
    (bitsToWord (st.next n)).getLsbD j = false := by
  have hl := Stream.next_length hleft
  rw [bitsToWord_getLsbD (hl.trans_le hn), hl, decide_eq_false (Nat.not_lt.mpr hj), Bool.false_and]

end

/-! ## The next state of each command -/

section
variable {a b : StreamId} {n : BitVec 6} {s : State}

theorem exec_sresize_below_count (h : s.arg0.toNat < (s.stream a).count) : exec (.sresize a) s = .next (s.raise .range) :=
  execSresize_iff.mpr (.inl ⟨h, rfl⟩)

theorem exec_sresize_past_max (h : (s.stream a).count ≤ s.arg0.toNat) (hmax : 32768 < s.arg0.toNat) :
    exec (.sresize a) s = .next (s.raise .alloc) :=
  execSresize_iff.mpr (.inr ⟨h, .inl ⟨hmax.trans_le (le_ceil8 _), rfl⟩⟩)

theorem exec_sresize (h : (s.stream a).count ≤ s.arg0.toNat) (hmax : s.arg0.toNat ≤ 32768) :
    exec (.sresize a) s = .next (s.setStream a { s.stream a with cap := ceil8 s.arg0.toNat }).succeed :=
  execSresize_iff.mpr (.inr ⟨h, .inr ⟨ceil8_le_streamMaxBits_iff.mpr hmax, rfl⟩⟩)

theorem exec_sseek_past_count (h : (s.stream a).count < s.arg0.toNat) : exec (.sseek a) s = .next (s.raise .range) :=
  execSseek_iff.mpr (.inl ⟨h, rfl⟩)

theorem exec_sseek (h : s.arg0.toNat ≤ (s.stream a).count) :
    exec (.sseek a) s = .next (s.setStream a { s.stream a with pos := s.arg0.toNat }).succeed :=
  execSseek_iff.mpr (.inr ⟨h, rfl⟩)

theorem exec_sread_too_few (hn : n.toNat ≤ 32) (h : (s.stream a).remaining < n.toNat) :
    exec (.sread a n) s = .next (s.raise .range) :=
  execSread_iff.mpr (.inr ⟨hn, .inl ⟨h, rfl⟩⟩)

theorem exec_sread (hn : n.toNat ≤ 32) (h : n.toNat ≤ (s.stream a).remaining) :
    exec (.sread a n) s = .next ((s.setStream a ((s.stream a).advance n.toNat)).setResult
      (bitsToWord ((s.stream a).next n.toNat))).succeed :=
  execSread_iff.mpr (.inr ⟨hn, .inr ⟨h, rfl⟩⟩)

theorem exec_swrite_past_max (hn : n.toNat ≤ 32) (h : 32768 < (s.stream a).pos + n.toNat) :
    exec (.swrite a n) s = .next (s.raise .alloc) :=
  execSwrite_iff.mpr (.inr ⟨hn, .inl ⟨Stream.overflows_eq_true_iff_lt.mpr h, rfl⟩⟩)

theorem exec_swrite (hn : n.toNat ≤ 32) (h : (s.stream a).pos + n.toNat ≤ 32768) :
    exec (.swrite a n) s = .next (s.setStream a ((s.stream a).put (wordBits n.toNat s.arg0))).succeed :=
  execSwrite_iff.mpr (.inr ⟨hn, .inr ⟨Stream.overflows_eq_false_iff_le.mpr h, rfl⟩⟩)

section
variable (hab : a ≠ b)
include hab

theorem exec_scopy_too_few (h : (s.stream b).remaining < s.arg0.toNat) : exec (.scopy a b) s = .next (s.raise .range) :=
  execScopy_iff.mpr (.inr ⟨hab, .inl ⟨h, rfl⟩⟩)

theorem exec_scopy_zero (h : s.arg0.toNat = 0) : exec (.scopy a b) s = .next s.succeed :=
  execScopy_iff.mpr (.inr ⟨hab, .inr ⟨h.trans_le (Nat.zero_le _), .inl ⟨h, rfl⟩⟩⟩)

section
variable (h0 : 0 < s.arg0.toNat) (hleft : s.arg0.toNat ≤ (s.stream b).remaining)
include h0 hleft

theorem exec_scopy_past_max (h : 32768 < (s.stream a).pos + s.arg0.toNat) : exec (.scopy a b) s = .next (s.raise .alloc) :=
  execScopy_iff.mpr (.inr ⟨hab, .inr ⟨hleft, .inr ⟨h0.ne', .inl ⟨Stream.overflows_eq_true_iff_lt.mpr h, rfl⟩⟩⟩⟩)

theorem exec_scopy (h : (s.stream a).pos + s.arg0.toNat ≤ 32768) :
    exec (.scopy a b) s = .next ((s.setStream b ((s.stream b).advance s.arg0.toNat)).setStream a
      ((s.stream a).put ((s.stream b).next s.arg0.toNat))).succeed :=
  execScopy_iff.mpr (.inr ⟨hab, .inr ⟨hleft, .inr ⟨h0.ne', .inr ⟨Stream.overflows_eq_false_iff_le.mpr h, rfl⟩⟩⟩⟩)

end

theorem exec_sconcat_empty (h : (s.stream b).count = 0) : exec (.sconcat a b) s = .next s.succeed :=
  execSconcat_iff.mpr (.inr ⟨hab, .inl ⟨h, rfl⟩⟩)

theorem exec_sconcat_past_max (h0 : 0 < (s.stream b).count) (h : 32768 < (s.stream a).pos + (s.stream b).count) :
    exec (.sconcat a b) s = .next (s.raise .alloc) :=
  execSconcat_iff.mpr (.inr ⟨hab, .inr ⟨h0.ne', .inl ⟨Stream.overflows_eq_true_iff_lt.mpr h, rfl⟩⟩⟩)

theorem exec_sconcat (h0 : 0 < (s.stream b).count) (h : (s.stream a).pos + (s.stream b).count ≤ 32768) :
    exec (.sconcat a b) s = .next (s.setStream a ((s.stream a).put (s.stream b).bits)).succeed :=
  execSconcat_iff.mpr (.inr ⟨hab, .inr ⟨h0.ne', .inr ⟨Stream.overflows_eq_false_iff_le.mpr h, rfl⟩⟩⟩)

end

end

/-! ## Effects and errors (R153-R162) -/

/-- Settles O18: SRESIZE and SSEEK in the order of their checks; the others have one next state. -/
theorem streamDescriptorAndCursorEffects : Obligations.StreamDescriptorAndCursorEffects := by
  intro a b s
  refine ⟨⟨_, execScreate_iff.mpr rfl, ⟨rfl, rfl⟩, ?_⟩, ⟨_, execSdup_iff.mpr rfl, ⟨rfl, rfl⟩, ?_⟩,
    ⟨_, execStell_iff.mpr rfl, ⟨rfl, rfl⟩, rfl⟩, ⟨_, execSremain_iff.mpr rfl, ⟨rfl, rfl⟩, rfl⟩,
    exec_sresize_below_count, exec_sresize_past_max, fun h hmax => ⟨_, exec_sresize h hmax, ⟨rfl, rfl⟩, ?_⟩,
    exec_sseek_past_count, fun h => ⟨_, exec_sseek h, ⟨rfl, rfl⟩, ?_⟩⟩
  all_goals rw [State.succeed_stream, State.setStream_stream_same]
  · exact ⟨rfl, rfl, rfl⟩
  · exact ⟨le_ceil8 _, ceil8_lt _, ceil8_mod _, rfl, rfl⟩
  · exact ⟨rfl, rfl, rfl⟩

/-- Settles O19: RESULT is the word of the next bits, and the stream only advances. -/
theorem sreadReturnsNextBits : Obligations.SreadReturnsNextBits := by
  intro a n s hn
  refine ⟨exec_sread_too_few hn, fun hleft => ⟨_, exec_sread hn hleft, ⟨rfl, rfl⟩, ?_, ?_, ?_⟩⟩
  · exact fun i hi => bitsToWord_next_getLsbD hn hleft hi
  · exact fun j hj => bitsToWord_next_getLsbD_of_ge hn hleft hj
  · rw [State.succeed_stream, State.setResult_stream, State.setStream_stream_same]
    exact ⟨rfl, rfl, rfl⟩

/-- Settles O20: the stream becomes `Stream.put` of the word's bits. -/
theorem swriteStoresAtCursor : Obligations.SwriteStoresAtCursor := by
  intro a n s hn hpos need
  refine ⟨exec_swrite_past_max hn, fun hmax => ⟨_, exec_swrite hn hmax, ⟨rfl, rfl⟩, ?_⟩⟩
  obtain ⟨hp, hc, hcap, hkept, hnew⟩ := Stream.put_spec hpos (wordBits_length n.toNat s.arg0) fun i hi => wordBits_getD _ hi
  rw [State.succeed_stream, State.setStream_stream_same, hcap]
  refine ⟨hp, hc, hkept, hnew, fun hroom => if_neg (Nat.not_lt.mpr hroom), fun hfull => ?_⟩
  rw [if_pos hfull]
  exact ⟨le_ceil8 _, ceil8_lt _, ceil8_mod _⟩

/-- Settles O21: the destination becomes `Stream.put` of the source's bits; the source advances for SCOPY and stays for SCONCAT. -/
theorem scopyAndSconcatMoveBits : Obligations.ScopyAndSconcatMoveBits := by
  intro a b s hab hpos
  refine ⟨⟨exec_scopy_too_few hab, fun h0 => ⟨_, exec_scopy_zero hab h0, ⟨rfl, rfl⟩, rfl⟩, exec_scopy_past_max hab,
    fun h0 hleft hmax => ⟨_, exec_scopy hab h0 hleft hmax, ⟨rfl, rfl⟩, ?_⟩⟩,
    fun h0 => ⟨_, exec_sconcat_empty hab h0, ⟨rfl, rfl⟩, rfl⟩, exec_sconcat_past_max hab,
    fun h0 hmax => ⟨_, exec_sconcat hab h0 hmax, ⟨rfl, rfl⟩, State.setStream_stream_ne _ _ hab.symm, ?_⟩⟩
  · obtain ⟨hp, hc, hcap, hkept, hnew⟩ := Stream.put_spec hpos (Stream.next_length hleft) fun i hi => Stream.next_getD hi
    rw [State.succeed_stream, State.succeed_stream, State.setStream_stream_same, State.setStream_stream_ne _ _ hab.symm,
      State.setStream_stream_same]
    exact ⟨hp, hc, hcap, hkept, hnew, rfl, rfl, rfl⟩
  · rw [State.succeed_stream, State.setStream_stream_same]
    exact Stream.put_spec hpos rfl fun i _ => rfl

/-! ## Copies in chunks, and a value written and read back (R161, R163) -/

/-- The streams are determined by their numbers. -/
theorem Streams.ext_get {x y : Streams} (h : ∀ c, x.get c = y.get c) : x = y := by
  cases x
  cases y
  rw [Streams.mk.injEq]
  exact ⟨h .s0, h .s1, h .s2, h .s3⟩

/-- What a copy of `m > 0` bits that succeeds does to the streams (R161). -/
theorem scopy_streams {a b : StreamId} {m : Nat} {s t : State} (h0 : 0 < m) (hm : m < 2 ^ 32)
    (h : exec (.scopy a b) { s with arg0 := BitVec.ofNat 32 m } = .next t) (hok : t.status.lastErr = .ok) :
    t.stream a = (s.stream a).put ((s.stream b).next m) ∧ t.stream b = (s.stream b).advance m
      ∧ ∀ c, c ≠ a → c ≠ b → t.stream c = s.stream c := by
  have harg : State.arg0Nat { s with arg0 := BitVec.ofNat 32 m } = m := Nat.mod_eq_of_lt hm
  obtain ⟨-, rfl⟩ | ⟨hab, ⟨-, rfl⟩ | ⟨-, ⟨hzero, -⟩ | ⟨-, ⟨-, rfl⟩ | ⟨-, rfl⟩⟩⟩⟩ := execScopy_iff.mp h
  · nomatch hok
  · nomatch hok
  · exact absurd (harg.symm.trans hzero) h0.ne'
  · nomatch hok
  · rw [harg]
    refine ⟨State.setStream_stream_same _ _ _, ?_, fun c hca hcb => ?_⟩
    · rw [State.succeed_stream, State.setStream_stream_ne _ _ hab.symm, State.setStream_stream_same]
      rfl
    · rw [State.succeed_stream, State.setStream_stream_ne _ _ hca, State.setStream_stream_ne _ _ hcb]
      rfl

/-- Settles O22: the second chunk is read where the first ended and written behind it (`Stream.next_add`, `Stream.put_put`). -/
theorem scopySplitsIntoChunks : Obligations.ScopySplitsIntoChunks := by
  intro a b m1 m2 s t u v _ h1 h2 hlt ht htok hu huok hv hvok
  obtain ⟨hta, htb, htc⟩ := scopy_streams (by omega) hlt ht htok
  obtain ⟨hua, hub, huc⟩ := scopy_streams h1 (by omega) hu huok
  obtain ⟨hva, hvb, hvc⟩ := scopy_streams h2 (by omega) hv hvok
  refine Streams.ext_get fun c => show v.stream c = t.stream c from ?_
  by_cases hca : c = a
  · subst hca
    rw [hva, hua, hub, hta, Stream.put_put, Stream.next_add]
  · by_cases hcb : c = b
    · subst hcb
      rw [hvb, hub, htb, Stream.advance_advance]
    · rw [hvc c hca hcb, huc c hca hcb, htc c hca hcb]

/-- Settles O23: back at the old cursor the bits of the write are the next ones (`Stream.next_put`). -/
theorem writeSeekReadReturnsValue : Obligations.WriteSeekReadReturnsValue := by
  intro a n x s hwf hn hmax
  obtain ⟨hpos, -⟩ := hwf
  have hmax' : (s.stream a).pos + n.toNat ≤ 32768 := ceil8_le_streamMaxBits_iff.mp hmax
  have hseek : (BitVec.ofNat 32 (s.stream a).pos).toNat = (s.stream a).pos := by
    rw [BitVec.toNat_ofNat]
    omega
  have hl : (wordBits n.toNat x).length = n.toNat := wordBits_length _ _
  obtain ⟨t, ht, hta⟩ : ∃ t, exec (.swrite a n) { s with arg0 := x } = .next t
      ∧ t.stream a = (s.stream a).put (wordBits n.toNat x) :=
    ⟨_, exec_swrite hn hmax', State.setStream_stream_same _ _ _⟩
  have hcount : (t.stream a).count = (s.stream a).pos + n.toNat := by rw [hta, Stream.put_count hpos, hl]
  obtain ⟨u, hu, hua⟩ : ∃ u, exec (.sseek a) { t with arg0 := BitVec.ofNat 32 (s.stream a).pos } = .next u
      ∧ u.stream a = { t.stream a with pos := (s.stream a).pos } := by
    refine ⟨_, exec_sseek ?_, (State.setStream_stream_same _ _ _).trans ?_⟩
    · exact (hseek.trans_le (Nat.le_add_right _ _)).trans_eq hcount.symm
    · rw [hseek]
      rfl
  have hleft : n.toNat ≤ (u.stream a).remaining := by
    rw [hua]
    exact Nat.le_sub_of_add_le' hcount.ge
  refine ⟨t, u, _, ht, hu, exec_sread hn hleft, rfl, ?_⟩
  calc bitsToWord ((u.stream a).next n.toNat)
      = bitsToWord (wordBits n.toNat x) := by
        have hnext := Stream.next_put hpos (wordBits n.toNat x)
        rw [hl] at hnext
        rw [hua, hta, hnext]
    _ = x &&& BitVec.ofNat 32 (2 ^ n.toNat - 1) := bitsToWord_wordBits x

/-! ## What the stream commands leave unchanged -/

/-- What command `i` with SA = `a` may make of stream `a`: the same bits; another stream for SCREATE and SDUP; a write at the cursor for the
commands that store. -/
inductive DestEnd (i : Instr) (a : StreamId) (st : Stream) : Stream → Prop
  | kept {st' : Stream} (hbits : st'.bits = st.bits) : DestEnd i a st st'
  | replaced (hi : i = .screate a ∨ ∃ c, i = .sdup a c) (st' : Stream) : DestEnd i a st st'
  | stored (hi : i.storesBits = true) (bs : List Bool) : DestEnd i a st (st.put bs)

/-- How command `i` with SA = `a` leaves the streams: `a` by `DestEnd`, and of the others only SCOPY's source advances. -/
structure StreamsEnd (i : Instr) (a : StreamId) (s t : State) : Prop where
  dest : DestEnd i a (s.stream a) (t.stream a)
  others : ∀ c, c ≠ a → t.stream c = s.stream c ∨ i.streamSource = some c ∧ ∃ n, t.stream c = (s.stream c).advance n

namespace StreamsEnd
variable {i : Instr} {a : StreamId} {s t u : State}

theorem of_streams_eq (h : t.streams = s.streams) : StreamsEnd i a s t := by
  have hc (c : StreamId) : t.stream c = s.stream c := congrArg (·.get c) h
  exact ⟨hc a ▸ .kept rfl, fun c _ => .inl (hc c)⟩

theorem setStream {st : Stream} (h : DestEnd i a (s.stream a) st) : StreamsEnd i a s (s.setStream a st) :=
  ⟨(State.setStream_stream_same s a st).symm ▸ h, fun _ hc => .inl (State.setStream_stream_ne s st hc)⟩

/-- SCOPY: the source advances before the destination is written. -/
theorem setStream_source {b : StreamId} {n : Nat} {st : Stream} (hb : i.streamSource = some b) (h : DestEnd i a (s.stream a) st) :
    StreamsEnd i a s ((s.setStream b ((s.stream b).advance n)).setStream a st) := by
  refine ⟨(State.setStream_stream_same _ a st).symm ▸ h, fun c hc => ?_⟩
  rw [State.setStream_stream_ne _ _ hc]
  by_cases hcb : c = b
  · subst hcb
    exact .inr ⟨hb, n, State.setStream_stream_same _ _ _⟩
  · exact .inl (State.setStream_stream_ne _ _ hcb)

theorem succeed (h : StreamsEnd i a s u) : StreamsEnd i a s u.succeed := ⟨h.dest, h.others⟩

theorem setResult (h : StreamsEnd i a s u) (v : Word) : StreamsEnd i a s (u.setResult v) := ⟨h.dest, h.others⟩

end StreamsEnd

section
variable {i : Instr} {a : StreamId} {s t : State}

/-- How each of the ten commands leaves the streams, read off its own lemma of Laws/Exec. -/
theorem exec_streamsEnd (hd : i.streamDest = some a) (h : exec i s = .next t) : StreamsEnd i a s t := by
  cases i with
  | screate a =>
    cases hd
    obtain rfl := execScreate_iff.mp h
    exact .succeed <| .setStream <| .replaced (.inl rfl) _
  | sresize a =>
    cases hd
    obtain ⟨-, rfl⟩ | ⟨-, ⟨-, rfl⟩ | ⟨-, rfl⟩⟩ := execSresize_iff.mp h
    exacts [.of_streams_eq rfl, .of_streams_eq rfl, .succeed <| .setStream <| .kept rfl]
  | sdup a b =>
    cases hd
    obtain rfl := execSdup_iff.mp h
    exact .succeed <| .setStream <| .replaced (.inr ⟨b, rfl⟩) _
  | sseek a =>
    cases hd
    obtain ⟨-, rfl⟩ | ⟨-, rfl⟩ := execSseek_iff.mp h
    exacts [.of_streams_eq rfl, .succeed <| .setStream <| .kept rfl]
  | stell a | sremain a => exact .of_streams_eq ((exec_frame h nofun).streams rfl)
  | sread a n =>
    cases hd
    obtain ⟨-, rfl⟩ | ⟨-, ⟨-, rfl⟩ | ⟨-, rfl⟩⟩ := execSread_iff.mp h
    exacts [.of_streams_eq rfl, .of_streams_eq rfl, .succeed <| .setResult (.setStream <| .kept (Stream.advance_bits _ _)) _]
  | swrite a n =>
    cases hd
    obtain ⟨-, rfl⟩ | ⟨-, ⟨-, rfl⟩ | ⟨-, rfl⟩⟩ := execSwrite_iff.mp h
    exacts [.of_streams_eq rfl, .of_streams_eq rfl, .succeed <| .setStream <| .stored rfl _]
  | scopy a b =>
    cases hd
    obtain ⟨-, rfl⟩ | ⟨-, ⟨-, rfl⟩ | ⟨-, ⟨-, rfl⟩ | ⟨-, ⟨-, rfl⟩ | ⟨-, rfl⟩⟩⟩⟩ := execScopy_iff.mp h
    exacts [.of_streams_eq rfl, .of_streams_eq rfl, .of_streams_eq rfl, .of_streams_eq rfl,
      .succeed <| .setStream_source rfl <| .stored rfl _]
  | sconcat a b =>
    cases hd
    obtain ⟨-, rfl⟩ | ⟨-, ⟨-, rfl⟩ | ⟨-, ⟨-, rfl⟩ | ⟨-, rfl⟩⟩⟩ := execSconcat_iff.mp h
    exacts [.of_streams_eq rfl, .of_streams_eq rfl, .of_streams_eq rfl, .succeed <| .setStream <| .stored rfl _]
  | _ => nomatch hd

/-- No write destroys the bits before the cursor (R150). -/
theorem DestEnd.bitAt_before_cursor {st st' : Stream} (h : DestEnd i a st st') (hi : i.storesBits = true) (hpos : st.pos ≤ st.count)
    {k : Nat} (hk : k < st.pos) : st'.bitAt k = st.bitAt k := by
  cases h with
  | kept hbits => exact Stream.bitAt_congr hbits k
  | replaced hr => obtain rfl | ⟨c, rfl⟩ := hr <;> nomatch hi
  | stored _ bs => exact Stream.put_bitAt_lt hpos bs hk

/-- Commands that neither store nor replace keep all bits. -/
theorem DestEnd.bits_eq {st st' : Stream} (h : DestEnd i a st st') (hi : i.storesBits = false) (hcreate : i ≠ .screate a)
    (hdup : ∀ c, i ≠ .sdup a c) : st'.bits = st.bits := by
  cases h with
  | kept hbits => exact hbits
  | replaced hr => exact absurd hr (not_or.mpr ⟨hcreate, not_exists.mpr hdup⟩)
  | stored hs => nomatch hi.symm.trans hs

/-- The stream commands write no other unit. -/
theorem streamDest_writes_no_unit (h : i.streamDest = some a) :
    i ≠ .reset ∧ i.writesFlags = false ∧ i.writesRs = false ∧ i.writesGrid = false ∧ i.movesCursor = false ∧ i ≠ .mselect := by
  cases i with
  | screate | sresize | sdup | sseek | stell | sremain | sread | swrite | scopy | sconcat =>
    exact ⟨nofun, rfl, rfl, rfl, rfl, nofun⟩
  | _ => nomatch h

/-- STELL and SREMAIN write no stream (R157, R158). -/
theorem stell_or_sremain_writesStreams (h : i = .stell a ∨ i = .sremain a) : i.writesStreams = false := by
  obtain rfl | rfl := h <;> rfl

end

/-- Settles O25: the units by `exec_frame`, the streams by `exec_streamsEnd`. -/
theorem streamCommandFrame : Obligations.StreamCommandFrame := by
  intro i a s t hd h
  obtain ⟨hreset, hflags, hrs, hgrid, hcursor, hmask⟩ := streamDest_writes_no_unit hd
  have hf := exec_frame h hreset
  obtain ⟨hdest, hothers⟩ := exec_streamsEnd hd h
  refine ⟨hf.hostSide, hf.flags hflags, hf.rs hrs, hf.grid hgrid, hf.cursor hcursor, hf.mask hmask, hf.result, fun c hc hsrc => ?_,
    fun c _ hc => ?_, fun hq => ?_, fun hi hpos k hk => hdest.bitAt_before_cursor hi hpos hk, hdest.bits_eq⟩
  · obtain hsame | ⟨hsrc', -⟩ := hothers c hc
    · exact hsame
    · exact absurd hsrc' hsrc
  · obtain hsame | ⟨-, n, hadv⟩ := hothers c hc
    · rw [hsame]
      exact ⟨rfl, rfl⟩
    · rw [hadv]
      exact ⟨rfl, rfl⟩
  · exact congrArg (·.get a) (hf.streams (stell_or_sremain_writesStreams hq))

end Sys2Proof.Machine
end

section
/-! SUPPORT. GF(256) as a field (42_gf_rs.md R190, R191, R196). Multiplication by x (`xtime`) commutes with gfmul, so that alpha(i) is x
applied i times to 1 and multiplication by alpha(i) is x applied i times. -/

namespace Sys2Proof.Machine

/-! ## Multiplication by x -/

/-- A turn of the loop commutes with multiplication by x. -/
theorem gfmulLoop_xtime (n : Nat) (a b p : Byte) : gfmulLoop n (xtime a) b (xtime p) = xtime (gfmulLoop n a b p) := by
  induction n generalizing a b p with
  | zero => rfl
  | succ n ih =>
    rw [gfmulLoop, gfmulLoop, ← ih]
    cases b.getLsbD 0
    · rfl
    · rw [if_pos rfl, if_pos rfl, xtime_xor]

theorem gfmul_xtime_left (a b : Byte) : gfmul (xtime a) b = xtime (gfmul a b) := gfmulLoop_xtime 8 a b 0

/-- Two additive functions that agree on alpha(0), …, alpha(7), the powers of x below x^8, agree on every byte. -/
theorem eq_of_additive_of_alpha {f g : Byte → Byte} (hf : ∀ a b, f (a ^^^ b) = f a ^^^ f b) (hg : ∀ a b, g (a ^^^ b) = g a ^^^ g b)
    (h : ∀ i, i < 8 → f (alpha i) = g (alpha i)) (a : Byte) : f a = g a := by
  have hpower : ∀ i < 8, alpha i = (1 <<< i : Nat) := by decide
  exact eq_of_additive hf hg (fun i hi => hpower i hi ▸ h i hi) a

/-- gfmul is commutative: both sides are additive in each factor, and they agree on the powers of x (R196). -/
theorem gfmul_comm (a b : Byte) : gfmul a b = gfmul b a := by
  have hpowers : ∀ i < 8, ∀ j < 8, gfmul (alpha i) (alpha j) = gfmul (alpha j) (alpha i) := by decide +kernel
  refine eq_of_additive_of_alpha (f := (gfmul · b)) (g := gfmul b) (gfmul_xor_left · · b) (gfmul_xor_right b) (fun i hi => ?_) a
  exact eq_of_additive_of_alpha (g := (gfmul · (alpha i))) (gfmul_xor_right _) (gfmul_xor_left · · _) (fun j hj => hpowers i hi j hj) b

theorem gfmul_xtime_right (a b : Byte) : gfmul a (xtime b) = xtime (gfmul a b) := by
  rw [gfmul_comm, gfmul_xtime_left, gfmul_comm]

theorem gfmul_one (a : Byte) : gfmul a 1 = a :=
  eq_of_additive_of_alpha (f := (gfmul · 1)) (g := id) (gfmul_xor_left · · 1) (fun _ _ => rfl) (by decide) a

/-! ## The powers of 2 (R191) -/

theorem alpha_succ (i : Nat) : alpha (i + 1) = xtime (alpha i) :=
  calc gfmul (alpha i) (xtime 1) = xtime (gfmul (alpha i) 1) := gfmul_xtime_right _ _
    _ = xtime (alpha i) := by rw [gfmul_one]

theorem alpha_eq_iterate (i : Nat) : alpha i = xtime^[i] 1 := by
  induction i with
  | zero => rfl
  | succ i ih => rw [alpha_succ, ih, Function.iterate_succ_apply']

theorem gfmul_iterate_xtime (a b : Byte) (i : Nat) : gfmul a (xtime^[i] b) = xtime^[i] (gfmul a b) := by
  induction i with
  | zero => rfl
  | succ i ih => rw [Function.iterate_succ_apply', Function.iterate_succ_apply', gfmul_xtime_right, ih]

/-- Multiplication by alpha(i) is multiplication by x, i times. -/
theorem gfmul_alpha (a : Byte) (i : Nat) : gfmul a (alpha i) = xtime^[i] a := by
  rw [alpha_eq_iterate, gfmul_iterate_xtime, gfmul_one]

theorem alpha_add (i j : Nat) : alpha (i + j) = gfmul (alpha i) (alpha j) := by
  rw [gfmul_alpha, alpha_eq_iterate, alpha_eq_iterate, Nat.add_comm, Function.iterate_add_apply]

theorem alpha_255 : alpha 255 = 1 := by decide +kernel

theorem alpha_add_255 (i : Nat) : alpha (i + 255) = alpha i := by rw [alpha_add, alpha_255, gfmul_one]

/-- gfmul is associative: both sides are additive in `c`, and for a power of x they are x applied as often to `gfmul a b` (R196). -/
theorem gfmul_assoc (a b c : Byte) : gfmul (gfmul a b) c = gfmul a (gfmul b c) := by
  refine eq_of_additive_of_alpha (g := fun c => gfmul a (gfmul b c)) (gfmul_xor_right _)
    (fun x y => by rw [gfmul_xor_right, gfmul_xor_right]) (fun i _ => ?_) c
  rw [gfmul_alpha, gfmul_alpha, gfmul_iterate_xtime]

/-- The period of alpha divides 255 but no proper divisor of 255: it is 255 (R191). -/
theorem minimalPeriod_xtime_one : Function.minimalPeriod xtime 1 = 255 := by
  have hperiod (n : Nat) : Function.minimalPeriod xtime 1 ∣ n ↔ alpha n = 1 := by
    rw [← Function.isPeriodicPt_iff_minimalPeriod_dvd, alpha_eq_iterate, Function.IsPeriodicPt, Function.IsFixedPt]
  have hmem : Function.minimalPeriod xtime 1 ∈ Nat.divisors 255 := Nat.mem_divisors.mpr ⟨(hperiod 255).mpr alpha_255, by decide⟩
  have hproper : ∀ d ∈ Nat.divisors 255, d = 255 ∨ d ∣ 15 ∨ d ∣ 51 ∨ d ∣ 85 := by decide +kernel
  have hne : alpha 15 ≠ 1 ∧ alpha 51 ≠ 1 ∧ alpha 85 ≠ 1 := by decide +kernel
  obtain ⟨h15, h51, h85⟩ := hne
  obtain h | h | h | h := hproper _ hmem
  · exact h
  · exact absurd ((hperiod 15).mp h) h15
  · exact absurd ((hperiod 51).mp h) h51
  · exact absurd ((hperiod 85).mp h) h85

theorem alpha_injOn : Set.InjOn alpha (Set.Iio 255) := by
  intro i hi j hj h
  rw [alpha_eq_iterate, alpha_eq_iterate] at h
  rw [← minimalPeriod_xtime_one] at hi hj
  exact Function.iterate_injOn_Iio_minimalPeriod hi hj h

theorem gfmul_alpha_inverse {i : Nat} (hi : i ≤ 255) : gfmul (alpha i) (alpha (255 - i)) = 1 := by
  rw [← alpha_add, Nat.add_sub_of_le hi, alpha_255]

theorem alpha_ne_zero {i : Nat} (hi : i ≤ 255) : alpha i ≠ 0 := by
  intro h
  have hinv := gfmul_alpha_inverse hi
  rw [h] at hinv
  exact absurd ((gfmul_zero_left _).symm.trans hinv) (by decide)

/-- The 255 values alpha(i), i < 255, are all the non-zero bytes: none is 0, and no two are equal (R191). -/
theorem exists_alpha_eq {b : Byte} (hb : b ≠ 0) : ∃ i, i < 255 ∧ alpha i = b := by
  have hsub : (Finset.range 255).image alpha ⊆ Finset.univ.erase 0 := by
    intro c hc
    obtain ⟨i, hi, rfl⟩ := Finset.mem_image.mp hc
    exact Finset.mem_erase.mpr ⟨alpha_ne_zero (Finset.mem_range.mp hi).le, Finset.mem_univ _⟩
  have hinj : Set.InjOn alpha (Finset.range 255) := Finset.coe_range 255 ▸ alpha_injOn
  have hcard : ((Finset.range 255).image alpha).card = 255 := (Finset.card_image_of_injOn hinj).trans (Finset.card_range 255)
  have hbytes : (Finset.univ.erase (0 : Byte)).card = 255 := by decide +kernel
  have heq := Finset.eq_of_subset_of_card_le hsub (hbytes.trans hcard.symm).le
  have hmem : b ∈ (Finset.range 255).image alpha := heq ▸ Finset.mem_erase.mpr ⟨hb, Finset.mem_univ b⟩
  obtain ⟨i, hi, h⟩ := Finset.mem_image.mp hmem
  exact ⟨i, Finset.mem_range.mp hi, h⟩

/-- Settles O26: each law as its lemma, the inverse of alpha(i) being alpha(255 - i). -/
theorem gfmulFieldLaws : Obligations.GfmulFieldLaws := by
  refine ⟨gfmul_comm, gfmul_assoc, gfmul_xor_right, fun a => ⟨gfmul_one a, gfmul_zero_right a⟩, fun a ha => ?_⟩
  obtain ⟨i, hi, rfl⟩ := exists_alpha_eq ha
  exact ⟨i, hi, rfl, gfmul_alpha_inverse hi.le⟩

/-- Settles O27: alpha is injective below its period 255 and takes every non-zero value there. -/
theorem alphaRunsThroughNonZeroElements : Obligations.AlphaRunsThroughNonZeroElements := by
  refine ⟨rfl, by decide, fun i => rfl, alpha_add_255, fun b hb => ?_⟩
  obtain ⟨i, hi, h⟩ := exists_alpha_eq hb
  exact ⟨i, hi, h, fun j hj h' => alpha_injOn hj hi (h'.trans h.symm)⟩

end Sys2Proof.Machine
end

section
/-! SUPPORT. The residue of polynomials over GF(2) (42_gf_rs.md R192): the long division ends below the degree of the modulus and is
additive, because each turn clears one bit and looks at that bit alone. -/

namespace Sys2Proof.Machine

variable {v w m : Word} {n k : Nat}

/-! ## The highest bit -/

theorem degree_lt (hv : v ≠ 0) (h : v.toNat < 2 ^ n) : degree v < n :=
  (Nat.log2_lt fun h0 => hv (BitVec.eq_of_toNat_eq h0)).mpr h

/-- The degree is the place of the highest 1 bit. -/
theorem degree_eq_of_getLsbD (h : v.toNat < 2 ^ (n + 1)) (hn : v.getLsbD n = true) : v ≠ 0 ∧ degree v = n := by
  have hge : 2 ^ n ≤ v.toNat := Nat.ge_two_pow_of_testBit hn
  have hne : v.toNat ≠ 0 := (Nat.two_pow_pos n).trans_le hge |>.ne'
  exact ⟨fun h0 => hne (h0 ▸ rfl), (Nat.log2_eq_iff hne).mpr ⟨hge, h⟩⟩

theorem getLsbD_degree (hv : v ≠ 0) : v.getLsbD (degree v) = true :=
  Nat.testBit_log2 fun h0 => hv (BitVec.eq_of_toNat_eq h0)

theorem toNat_lt_of_getLsbD_eq_false (h : v.toNat < 2 ^ (n + 1)) (hn : v.getLsbD n = false) : v.toNat < 2 ^ n := by
  refine Nat.lt_pow_two_of_testBit _ fun i hi => ?_
  obtain rfl | hlt := hi.eq_or_lt
  · exact hn
  · exact Nat.testBit_lt_two_pow (h.trans_le (Nat.pow_le_pow_right two_pos hlt))

theorem toNat_shiftLeft_lt (m : Word) (k : Nat) : (m <<< k).toNat < 2 ^ (degree m + k + 1) := by
  rw [BitVec.toNat_shiftLeft, Nat.shiftLeft_eq]
  calc m.toNat * 2 ^ k % 2 ^ 32 ≤ m.toNat * 2 ^ k := Nat.mod_le _ _
    _ < 2 ^ (degree m + 1) * 2 ^ k := Nat.mul_lt_mul_of_pos_right Nat.lt_log2_self (Nat.two_pow_pos k)
    _ = 2 ^ (degree m + k + 1) := by rw [← pow_add, Nat.add_right_comm]

/-- The top bit of the modulus stands `k` places higher after the shift by `k`, as long as it fits (R192). -/
theorem getLsbD_shiftLeft_degree (hm : m ≠ 0) (hk : degree m + k < 32) : (m <<< k).getLsbD (degree m + k) = true := by
  rw [BitVec.getLsbD_shiftLeft, decide_eq_true hk, decide_eq_false (Nat.not_lt.mpr (Nat.le_add_left k _)), Nat.add_sub_cancel,
    getLsbD_degree hm]
  rfl

/-! ## One turn of the division -/

/-- The turn of the long division that looks at bit `degree m + n` and clears it (R192). -/
def clearBit (m : Word) (n : Nat) (v : Word) : Word := if v.getLsbD (degree m + n) then v ^^^ (m <<< n) else v

theorem clearBit_xor (m : Word) (n : Nat) (v w : Word) : clearBit m n (v ^^^ w) = clearBit m n v ^^^ clearBit m n w := by
  unfold clearBit
  rw [BitVec.getLsbD_xor]
  cases v.getLsbD (degree m + n) <;> cases w.getLsbD (degree m + n)
  · rfl
  · exact BitVec.xor_assoc _ _ _
  · show v ^^^ w ^^^ m <<< n = v ^^^ m <<< n ^^^ w
    ac_rfl
  · calc v ^^^ w = v ^^^ w ^^^ (m <<< n ^^^ m <<< n) := by rw [BitVec.xor_self, BitVec.xor_zero]
      _ = v ^^^ m <<< n ^^^ (w ^^^ m <<< n) := by ac_rfl

theorem clearBit_lt (hm : m ≠ 0) (h : v.toNat < 2 ^ (degree m + n + 1)) : (clearBit m n v).toNat < 2 ^ (degree m + n) := by
  unfold clearBit
  split
  · next hbit =>
    have hn : degree m + n < 32 := BitVec.lt_of_getLsbD hbit
    refine toNat_lt_of_getLsbD_eq_false (Nat.xor_lt_two_pow h (toNat_shiftLeft_lt m n)) ?_
    rw [BitVec.getLsbD_xor, hbit, getLsbD_shiftLeft_degree hm hn]
    rfl
  · next hbit => exact toNat_lt_of_getLsbD_eq_false h (Bool.not_eq_true _ ▸ hbit)

/-! ## The division -/

/-- A `v` that does not reach the modulus is left as it is. -/
theorem polymodLoop_stops (n : Nat) (h : ¬(v ≠ 0 ∧ degree m ≤ degree v)) : polymodLoop n v m = v := by
  cases n with
  | zero => rfl
  | succ n => exact if_neg h

theorem polymodLoop_of_lt (n : Nat) (h : v.toNat < 2 ^ degree m) : polymodLoop n v m = v :=
  polymodLoop_stops n fun ⟨hv, hle⟩ => Nat.not_lt.mpr hle (degree_lt hv h)

/-- While `v` reaches the modulus, a turn clears its highest bit. -/
theorem polymodLoop_turn (hv : v ≠ 0) (hle : degree m ≤ degree v) :
    polymodLoop (n + 1) v m = polymodLoop n (clearBit m (degree v - degree m) v) m := by
  rw [polymodLoop, if_pos ⟨hv, hle⟩, clearBit, Nat.add_sub_of_le hle, if_pos (getLsbD_degree hv)]

/-- More turns than `v` has bits above the modulus change nothing. -/
theorem polymodLoop_extra_turn (hm : m ≠ 0) (h : v.toNat < 2 ^ (degree m + n)) : polymodLoop (n + 1) v m = polymodLoop n v m := by
  induction n generalizing v with
  | zero => exact polymodLoop_of_lt 1 h
  | succ n ih =>
    by_cases hturn : v ≠ 0 ∧ degree m ≤ degree v
    · obtain ⟨hv, hle⟩ := hturn
      rw [polymodLoop_turn hv hle, polymodLoop_turn hv hle]
      have htop : degree m + (degree v - degree m) = degree v := Nat.add_sub_of_le hle
      refine ih ((clearBit_lt hm (htop.symm ▸ Nat.lt_log2_self)).trans_le (Nat.pow_le_pow_right two_pos ?_))
      exact htop.trans_le (Nat.lt_succ_iff.mp (degree_lt hv h))
    · rw [polymodLoop_stops _ hturn, polymodLoop_stops _ hturn]

/-- A turn looks at one bit only: the highest one it may find set. -/
theorem polymodLoop_succ (hm : m ≠ 0) (h : v.toNat < 2 ^ (degree m + n + 1)) :
    polymodLoop (n + 1) v m = polymodLoop n (clearBit m n v) m := by
  cases hbit : v.getLsbD (degree m + n) with
  | true =>
    obtain ⟨hv, hdeg⟩ := degree_eq_of_getLsbD h hbit
    rw [polymodLoop_turn hv (hdeg ▸ Nat.le_add_right _ _), hdeg, Nat.add_sub_cancel_left]
  | false =>
    rw [polymodLoop_extra_turn hm (toNat_lt_of_getLsbD_eq_false h hbit), clearBit, hbit]
    rfl

theorem polymodLoop_lt (hm : m ≠ 0) (h : v.toNat < 2 ^ (degree m + n)) : (polymodLoop n v m).toNat < 2 ^ degree m := by
  induction n generalizing v with
  | zero => exact h
  | succ n ih => exact polymodLoop_succ hm h ▸ ih (clearBit_lt hm h)

theorem polymodLoop_xor (hm : m ≠ 0) (hv : v.toNat < 2 ^ (degree m + n)) (hw : w.toNat < 2 ^ (degree m + n)) :
    polymodLoop n (v ^^^ w) m = polymodLoop n v m ^^^ polymodLoop n w m := by
  induction n generalizing v w with
  | zero => rfl
  | succ n ih =>
    rw [polymodLoop_succ hm hv, polymodLoop_succ hm hw, polymodLoop_succ hm (Nat.xor_lt_two_pow hv hw), clearBit_xor,
      ih (clearBit_lt hm hv) (clearBit_lt hm hw)]

theorem toNat_lt_degree_add_32 (v m : Word) : v.toNat < 2 ^ (degree m + 32) :=
  v.isLt.trans_le (Nat.pow_le_pow_right two_pos (Nat.le_add_left _ _))

theorem polymod_lt (hm : m ≠ 0) (v : Word) : (polymod v m).toNat < 2 ^ degree m :=
  polymodLoop_lt hm (toNat_lt_degree_add_32 v m)

theorem polymod_of_lt (h : v.toNat < 2 ^ degree m) : polymod v m = v := polymodLoop_of_lt 32 h

/-- The residue is additive. -/
theorem polymod_xor (hm : m ≠ 0) (v w : Word) : polymod (v ^^^ w) m = polymod v m ^^^ polymod w m :=
  polymodLoop_xor hm (toNat_lt_degree_add_32 v m) (toNat_lt_degree_add_32 w m)

/-- The modulus times a power of x leaves no residue: one turn takes it away. -/
theorem polymod_shiftLeft (hm : m ≠ 0) (hk : degree m + k < 32) : polymod (m <<< k) m = 0 := by
  have hbit := getLsbD_shiftLeft_degree hm hk
  obtain ⟨hne, hdeg⟩ := degree_eq_of_getLsbD (toNat_shiftLeft_lt m k) hbit
  have hzero : clearBit m k (m <<< k) = 0 := by rw [clearBit, if_pos hbit, BitVec.xor_self]; rfl
  rw [polymod, polymodLoop_turn hne (hdeg ▸ Nat.le_add_right _ _), hdeg, Nat.add_sub_cancel_left, hzero]
  exact polymodLoop_of_lt 31 (Nat.two_pow_pos _)

/-- Settles O28: the residue is additive (`polymod_xor`), and the added multiple leaves none. -/
theorem polymodIsResidue : Obligations.PolymodIsResidue := by
  intro v m hm
  refine ⟨polymod_lt hm v, polymod_of_lt, fun k hk => ?_⟩
  rw [polymod_xor hm, polymod_shiftLeft hm hk]
  exact BitVec.xor_zero

end Sys2Proof.Machine
end

section
/-! SUPPORT. Polynomials over GF(256) as sequences of coefficients, evaluated at the powers of 2: the roots of the generator (42_gf_rs.md
R193), the LFSR as division by the generator (R194), Horner's rule (R205), and the systematic property they give (R204). -/

namespace Sys2Proof.Machine

/-! ## The coefficients of the generator (R193) -/

/-- The generator of `k` EC bytes is monic of degree `k`. -/
theorem generator_monic {k : Nat} (hk : k ≤ 32) : byteAt (generator k) k = 1 ∧ ∀ j, k < j → byteAt (generator k) j = 0 := by
  induction k with
  | zero => exact ⟨rfl, fun j hj => byteAt_generator_zero hj.ne'⟩
  | succ k ih =>
    obtain ⟨hlead, habove⟩ := ih (Nat.le_of_succ_le hk)
    rw [generator_succ]
    constructor
    · simp [genStep_byteAt _ _ (Nat.lt_succ_of_le hk), hlead, habove _ k.lt_succ_self]
    · intro j hj
      by_cases hj33 : j < 33
      · rw [genStep_byteAt _ _ hj33, if_neg (by omega), if_neg (by omega)]
        exact habove j (by omega)
      · exact byteAt_of_ge _ (Nat.not_lt.mp hj33)

theorem generator_succ_constant (i : Nat) : byteAt (generator (i + 1)) 0 = gfmul (byteAt (generator i) 0) (alpha i) := by
  rw [generator_succ, genStep_byteAt _ _ (by decide), if_pos rfl]

/-- Above degree i+1 both factors of R193 have no coefficient, so the recurrence holds for the whole table. -/
theorem generator_succ_coeff {i j : Nat} (hi : i < 32) (hj : j < 32) :
    byteAt (generator (i + 1)) (j + 1) = byteAt (generator i) j ^^^ gfmul (byteAt (generator i) (j + 1)) (alpha i) := by
  obtain ⟨-, habove⟩ := generator_monic hi.le
  rw [generator_succ, genStep_byteAt _ _ (Nat.succ_lt_succ hj), if_neg j.succ_ne_zero]
  split
  · rfl
  · next hlt => simp [habove (j + 1) (by omega), habove j (by omega)]

/-- Settles O30: the coefficients one factor at a time, and the generator monic. -/
theorem generatorIsProductOfFactors : Obligations.GeneratorIsProductOfFactors := by
  refine ⟨generator_zero, fun i hi => ⟨generator_succ_constant i, fun j h1 hj => ?_⟩, fun k hk => generator_monic hk⟩
  obtain ⟨j, rfl⟩ := Nat.exists_eq_add_of_le' h1
  exact generator_succ_coeff hi hj

/-! ## Values of polynomials at alpha(i) -/

/-- The value at alpha(i) of the polynomial with the coefficients `c 0, …, c (n-1)`. -/
def evalBelow (c : Nat → Byte) (i : Nat) : Nat → Byte
  | 0 => 0
  | n + 1 => gfmul (c n) (alpha (n * i)) ^^^ evalBelow c i n

variable {c b : Nat → Byte} {i n : Nat}

/-- A polynomial with no coefficient but 0 has the value 0. -/
theorem evalBelow_of_zero (h : ∀ j, j < n → c j = 0) : evalBelow c i n = 0 := by
  induction n with
  | zero => rfl
  | succ n ih =>
    rw [evalBelow, h n n.lt_succ_self, ih fun j hj => h j (hj.trans n.lt_succ_self)]
    simp

theorem gfmul_right_comm (a b c : Byte) : gfmul (gfmul a b) c = gfmul (gfmul a c) b := by
  rw [gfmul_assoc, gfmul_comm b, ← gfmul_assoc]

theorem evalBelow_gfmul (c : Nat → Byte) (a : Byte) (i n : Nat) :
    evalBelow (fun j => gfmul (c j) a) i n = gfmul (evalBelow c i n) a := by
  induction n with
  | zero => exact (gfmul_zero_left a).symm
  | succ n ih => rw [evalBelow, evalBelow, ih, gfmul_xor_left, gfmul_right_comm]

/-- Moving the coefficients `c` up by one place and adding `b` multiplies the value by alpha(i) and adds that of `b`. -/
theorem evalBelow_shift_xor {d : Nat → Byte} (h0 : d 0 = b 0) (hs : ∀ j, j < n → d (j + 1) = c j ^^^ b (j + 1)) :
    evalBelow d i (n + 1) = gfmul (evalBelow c i n) (alpha i) ^^^ evalBelow b i (n + 1) := by
  induction n with
  | zero => simp [evalBelow, h0]
  | succ n ih =>
    have hshift : gfmul (c n) (alpha ((n + 1) * i)) = gfmul (gfmul (c n) (alpha (n * i))) (alpha i) := by
      rw [Nat.succ_mul, alpha_add, gfmul_assoc]
    calc gfmul (d (n + 1)) (alpha ((n + 1) * i)) ^^^ evalBelow d i (n + 1)
        = gfmul (c n) (alpha ((n + 1) * i)) ^^^ gfmul (b (n + 1)) (alpha ((n + 1) * i))
            ^^^ (gfmul (evalBelow c i n) (alpha i) ^^^ evalBelow b i (n + 1)) := by
          rw [hs n n.lt_succ_self, gfmul_xor_left, ih fun j hj => hs j (hj.trans n.lt_succ_self)]
      _ = gfmul (gfmul (c n) (alpha (n * i))) (alpha i) ^^^ gfmul (evalBelow c i n) (alpha i)
            ^^^ (gfmul (b (n + 1)) (alpha ((n + 1) * i)) ^^^ evalBelow b i (n + 1)) := by
          rw [hshift]
          ac_rfl
      _ = gfmul (evalBelow c i (n + 1)) (alpha i) ^^^ evalBelow b i (n + 2) := by
          rw [← gfmul_xor_left]
          rfl

/-- The generator of more than i EC bytes has the root alpha(i) (R193). -/
theorem evalBelow_generator {k : Nat} (hk : k ≤ 32) (hi : i < k) : evalBelow (byteAt (generator k)) i (k + 1) = 0 := by
  induction k with
  | zero => nomatch hi
  | succ k ih =>
    have hk' : k < 32 := hk
    obtain ⟨-, habove⟩ := generator_monic hk'.le
    have htop : evalBelow (byteAt (generator k)) i (k + 2) = evalBelow (byteAt (generator k)) i (k + 1) := by
      rw [evalBelow, habove _ k.lt_succ_self]
      simp
    have hfactor : evalBelow (byteAt (generator (k + 1))) i (k + 2)
        = gfmul (evalBelow (byteAt (generator k)) i (k + 1)) (alpha i ^^^ alpha k) := by
      rw [evalBelow_shift_xor (c := byteAt (generator k)) (b := fun j => gfmul (byteAt (generator k) j) (alpha k))
        (generator_succ_constant k) fun j hj => generator_succ_coeff hk' (by omega), evalBelow_gfmul, htop, gfmul_xor_right]
    rw [hfactor]
    obtain rfl | hlt := (Nat.lt_succ_iff.mp hi).eq_or_lt
    · simp
    · rw [ih hk'.le hlt]
      exact gfmul_zero_left _

/-! ## Horner's rule (R205) -/

/-- Horner's rule at alpha(i), started from `acc`: the syndrome when `acc` is 0 (R205). -/
def hornerFrom (i : Nat) (acc : Byte) (cs : List Byte) : Byte := cs.foldl (fun acc c => gfmul acc (alpha i) ^^^ c) acc

theorem hornerFrom_cons (i : Nat) (acc x : Byte) (cs : List Byte) :
    hornerFrom i acc (x :: cs) = hornerFrom i (gfmul acc (alpha i) ^^^ x) cs := rfl

theorem hornerFrom_append (i : Nat) (acc : Byte) (xs ys : List Byte) :
    hornerFrom i acc (xs ++ ys) = hornerFrom i (hornerFrom i acc xs) ys := List.foldl_append

/-- On coefficients, the highest first, Horner's rule adds the polynomial's value to `acc` moved up past all of them. -/
theorem hornerFrom_coeffs (c : Nat → Byte) (i n : Nat) (acc : Byte) :
    hornerFrom i acc ((List.range n).map fun j => c (n - 1 - j)) = gfmul acc (alpha (n * i)) ^^^ evalBelow c i n := by
  induction n generalizing acc with
  | zero =>
    rw [Nat.zero_mul, alpha, gfmul_one]
    exact BitVec.xor_zero.symm
  | succ n ih =>
    have hlist : (List.range (n + 1)).map (fun j => c (n + 1 - 1 - j)) = c n :: (List.range n).map fun j => c (n - 1 - j) := by
      rw [List.range_succ_eq_map, List.map_cons, List.map_map]
      congr 1
      exact List.map_congr_left fun j _ => congrArg c (by simp; omega)
    rw [hlist, hornerFrom_cons, ih, gfmul_xor_left, gfmul_assoc, ← alpha_add, Nat.succ_mul, Nat.add_comm i, BitVec.xor_assoc]
    rfl

/-! ## The LFSR divides by the generator (R194, R204) -/

/-- At a root of the generator, x^k has the value of its lower terms. -/
theorem evalBelow_generator_lower {k : Nat} (hk : k ≤ 32) (hi : i < k) : evalBelow (byteAt (generator k)) i k = alpha (k * i) := by
  have hroot := evalBelow_generator hk hi
  rw [evalBelow, (generator_monic hk).1, gfmul_comm, gfmul_one] at hroot
  exact (BitVec.xor_eq_zero_iff.mp hroot).symm

section
variable {rs : Rs} (hk : rs.k ≤ 32) (hg : rs.g = generator rs.k) (hi : i < rs.k)
include hk hg hi

/-- At a root of G, a clock multiplies the value of R by alpha(i) and adds the data byte as the coefficient of x^K (R194). -/
theorem evalBelow_lfsrClock (d : Byte) :
    evalBelow (byteAt (lfsrClock rs d).r) i rs.k
      = gfmul (evalBelow (byteAt rs.r) i rs.k) (alpha i) ^^^ gfmul d (alpha (rs.k * i)) := by
  obtain ⟨n, hn⟩ : ∃ n, rs.k = n + 1 := Nat.exists_eq_succ_of_ne_zero (Nat.ne_zero_of_lt hi)
  have h0 : rs.k ≠ 0 := Nat.ne_zero_of_lt hi
  have hclock : evalBelow (byteAt (lfsrClock rs d).r) i (n + 1)
      = gfmul (evalBelow (byteAt rs.r) i n) (alpha i)
        ^^^ evalBelow (fun j => gfmul (byteAt rs.g j) (d ^^^ byteAt rs.r n)) i (n + 1) := by
    refine evalBelow_shift_xor ?_ fun j hj => ?_
    · rw [lfsrClock_r h0 d (by decide), if_pos rfl, gfmul_comm, hn, Nat.add_sub_cancel]
    · rw [lfsrClock_r h0 d (by omega), if_neg j.succ_ne_zero, if_pos (by omega), gfmul_comm (byteAt rs.g _), hn, Nat.add_sub_cancel,
        Nat.add_sub_cancel]
  rw [hn, hclock, evalBelow_gfmul, hg, ← hn, evalBelow_generator_lower hk hi, hn, gfmul_comm (alpha _), gfmul_xor_left,
    evalBelow, gfmul_xor_left, gfmul_assoc, ← alpha_add, Nat.succ_mul]
  ac_rfl

/-- After the bytes `ds`, R has at each root of G the value of the bytes moved up by K places. -/
theorem evalBelow_lfsrFeed {acc : Byte} (h : evalBelow (byteAt rs.r) i rs.k = gfmul acc (alpha (rs.k * i))) (ds : List Byte) :
    evalBelow (byteAt (lfsrFeed rs ds).r) i rs.k = gfmul (hornerFrom i acc ds) (alpha (rs.k * i)) := by
  induction ds generalizing rs acc with
  | nil => exact h
  | cons d ds ih =>
    have hclock : evalBelow (byteAt (lfsrClock rs d).r) i rs.k = gfmul (gfmul acc (alpha i) ^^^ d) (alpha (rs.k * i)) := by
      rw [evalBelow_lfsrClock hk hg hi, h, gfmul_right_comm, gfmul_xor_left]
    rw [← lfsrClock_k rs d] at hk hi hclock ⊢
    exact ih hk (by rw [lfsrClock_g, lfsrClock_k, hg]) hi hclock

end

/-- Settles O35: the value of the EC bytes cancels that of the data moved up by K places, of which it is the remainder. -/
theorem rsSystematicProperty : Obligations.RsSystematicProperty := by
  intro rs ds hk hg hr es i hi
  have hzero : evalBelow (byteAt rs.r) i rs.k = gfmul 0 (alpha (rs.k * i)) := by
    rw [evalBelow_of_zero fun j hj => hr j (hj.trans_le hk)]
    exact (gfmul_zero_left _).symm
  calc hornerFrom i 0 (ds ++ es)
      = gfmul (hornerFrom i 0 ds) (alpha (rs.k * i)) ^^^ evalBelow (byteAt (lfsrFeed rs ds).r) i rs.k := by
        rw [hornerFrom_append]
        exact hornerFrom_coeffs _ i rs.k _
    _ = 0 := by rw [evalBelow_lfsrFeed hk hg hi hzero, BitVec.xor_self]; rfl

end Sys2Proof.Machine
end

section
/-! SUPPORT. The GF and RS commands (42_gf_rs.md R197-R208): the next state of each, case by case, the bytes that stand at a stream's
cursor, and what the eleven commands leave unchanged. -/

namespace Sys2Proof.Machine

/-! ## The next state of each command -/

section
variable {a : StreamId} {n : BitVec 6} {s : State}

theorem exec_polymod_by_zero (h : s.arg1 = 0) : exec .polymod s = .next (s.raise .range) := execPolymod_iff.mpr (.inl ⟨h, rfl⟩)

theorem exec_polymod (h : s.arg1 ≠ 0) : exec .polymod s = .next (s.setResult (polymod s.arg0 s.arg1)).succeed :=
  execPolymod_iff.mpr (.inr ⟨h, rfl⟩)

theorem exec_rsgen_past_max (h : 32 < n.toNat) : exec (.rsgen n) s = .next (s.raise .range) := execRsgen_iff.mpr (.inl ⟨h, rfl⟩)

theorem exec_rsgen (h : n.toNat ≤ 32) :
    exec (.rsgen n) s = .next (s.setRs (lfsrClear { s.rs with k := n.toNat, g := generator n.toNat })).succeed :=
  execRsgen_iff.mpr (.inr ⟨h, rfl⟩)

theorem exec_rsrdg_past_max (h : 32 < n.toNat) : exec (.rsrdg n) s = .next (s.raise .range) := execRsrdg_iff.mpr (.inl ⟨h, rfl⟩)

theorem exec_rsrdg (h : n.toNat ≤ 32) : exec (.rsrdg n) s = .next (s.setResult (resultByte (byteAt s.rs.g n.toNat))).succeed :=
  execRsrdg_iff.mpr (.inr ⟨h, rfl⟩)

theorem exec_rsrdr_past_max (h : 32 ≤ n.toNat) : exec (.rsrdr n) s = .next (s.raise .range) := execRsrdr_iff.mpr (.inl ⟨h, rfl⟩)

theorem exec_rsrdr (h : n.toNat < 32) : exec (.rsrdr n) s = .next (s.setResult (resultByte (byteAt s.rs.r n.toNat))).succeed :=
  execRsrdr_iff.mpr (.inr ⟨h, rfl⟩)

theorem exec_rsrds_past_max (h : 32 ≤ n.toNat) : exec (.rsrds n) s = .next (s.raise .range) := execRsrds_iff.mpr (.inl ⟨h, rfl⟩)

theorem exec_rsrds (h : n.toNat < 32) : exec (.rsrds n) s = .next (s.setResult (resultByte (byteAt s.rs.syn n.toNat))).succeed :=
  execRsrds_iff.mpr (.inr ⟨h, rfl⟩)

theorem exec_rsfeed_too_few (h : (s.stream a).remaining < 8 * s.arg0.toNat) : exec (.rsfeed a) s = .next (s.raise .range) :=
  execRsfeed_iff.mpr (.inl ⟨h, rfl⟩)

theorem exec_rssyn_too_few (h : (s.stream a).remaining < 8 * s.arg0.toNat) : exec (.rssyn a) s = .next (s.raise .range) :=
  execRssyn_iff.mpr (.inl ⟨h, rfl⟩)

theorem exec_rsemit_past_max (h : 32768 < (s.stream a).pos + 8 * s.rs.k) : exec (.rsemit a) s = .next (s.raise .alloc) :=
  execRsemit_iff.mpr (.inl ⟨Stream.overflows_eq_true_iff_lt.mpr h, rfl⟩)

theorem exec_rsemit_zero (hpos : (s.stream a).pos ≤ 32768) (h : s.rs.k = 0) : exec (.rsemit a) s = .next s.succeed :=
  execRsemit_iff.mpr (.inr ⟨Stream.overflows_eq_false_iff_le.mpr (by omega), .inl ⟨h, rfl⟩⟩)

theorem exec_rsemit (h0 : 0 < s.rs.k) (h : (s.stream a).pos + 8 * s.rs.k ≤ 32768) :
    exec (.rsemit a) s = .next (s.setStream a ((s.stream a).put ((ecBytes s.rs).flatMap byteBits))).succeed :=
  execRsemit_iff.mpr (.inr ⟨Stream.overflows_eq_false_iff_le.mpr h, .inr ⟨h0.ne', rfl⟩⟩)

end

/-! ## The bytes at the cursor (R83, R202, R205) -/

/-- The bytes `ds` stand at the cursor of the stream, MSB-first, with all their bits before its end. -/
structure Stream.HasBytes (st : Stream) (ds : List Byte) : Prop where
  left : 8 * ds.length ≤ st.remaining
  bits : ∀ j, j < ds.length → ∀ b, b < 8 → st.bitAt (st.pos + 8 * j + b) = (ds.getD j 0).getLsbD (7 - b)

theorem Stream.HasBytes.next_eq {st : Stream} {ds : List Byte} (h : st.HasBytes ds) : st.next (8 * ds.length) = ds.flatMap byteBits := by
  refine eq_flatMap_byteBits (Stream.next_length h.left) fun j hj b hb => ?_
  rw [Stream.next_getD (by omega), ← Nat.add_assoc, h.bits j hj b hb]

theorem Stream.HasBytes.takeBytes_eq {st : Stream} {ds : List Byte} (h : st.HasBytes ds) :
    takeBytes ds.length (st.next (8 * ds.length)) = ds := by
  have := takeBytes_flatMap ds []
  rwa [List.append_nil, ← h.next_eq] at this

section
variable {a : StreamId} {s : State} {ds : List Byte} (hm : ds.length = s.arg0.toNat) (h : (s.stream a).HasBytes ds)
include hm h

theorem exec_rsfeed :
    exec (.rsfeed a) s = .next ((s.setStream a ((s.stream a).advance (8 * s.arg0.toNat))).setRs (lfsrFeed s.rs ds)).succeed := by
  have hleft := h.left
  have hbytes := h.takeBytes_eq
  rw [hm] at hleft hbytes
  refine execRsfeed_iff.mpr (.inr ⟨hleft, ?_⟩)
  rw [State.arg0Nat, hbytes]

theorem exec_rssyn :
    exec (.rssyn a) s = .next (((s.setStream a ((s.stream a).advance (8 * s.arg0.toNat))).setRs
      { s.rs with syn := syndromes s.rs.k ds }).setSynz (allZeroBelow s.rs.k (syndromes s.rs.k ds))).succeed := by
  have hleft := h.left
  have hbytes := h.takeBytes_eq
  rw [hm] at hleft hbytes
  refine execRssyn_iff.mpr (.inr ⟨hleft, ?_⟩)
  rw [State.arg0Nat, hbytes]

end

/-! ## Results, effects and errors -/

/-- Settles O29: each command in the order of its checks. -/
theorem gfAndReadbackResults : Obligations.GfAndReadbackResults := fun _ =>
  ⟨fun _ _ => ⟨_, execGfmul_iff.mpr rfl, ⟨rfl, rfl⟩, rfl⟩, exec_polymod_by_zero,
    fun h => ⟨_, exec_polymod h, ⟨rfl, rfl⟩, rfl⟩,
    fun _ => ⟨fun h => ⟨_, exec_rsrdg h, ⟨rfl, rfl⟩, rfl⟩, exec_rsrdg_past_max,
      fun h => ⟨⟨_, exec_rsrdr h, ⟨rfl, rfl⟩, rfl⟩, ⟨_, exec_rsrds h, ⟨rfl, rfl⟩, rfl⟩⟩,
      fun h => ⟨exec_rsrdr_past_max h, exec_rsrds_past_max h⟩⟩⟩

/-- A clock leaves the registers at and above K as they are (R194). -/
theorem lfsrClock_r_of_ge {rs : Rs} (h0 : rs.k ≠ 0) (d : Byte) {j : Nat} (hj : rs.k ≤ j) :
    byteAt (lfsrClock rs d).r j = byteAt rs.r j := by
  by_cases hj32 : j < 32
  · rw [lfsrClock_r h0 d hj32, if_neg (by omega), if_neg (Nat.not_lt.mpr hj)]
  · rw [byteAt_of_ge _ (Nat.not_lt.mp hj32), byteAt_of_ge _ (Nat.not_lt.mp hj32)]

/-- Settles O31: RSGEN and RSCLR end in a cleared LFSR, RSFEEDI in a clocked one, whose registers `lfsrClock_r` gives. -/
theorem generatorBuildAndClockEffects : Obligations.GeneratorBuildAndClockEffects := by
  intro n d s
  refine ⟨exec_rsgen_past_max, fun h => ⟨_, exec_rsgen h, ⟨rfl, rfl⟩, rfl, rfl, fun j _ => lfsrClear_r _ j, rfl⟩,
    ⟨_, execRsclr_iff.mpr rfl, ⟨rfl, rfl⟩, fun j _ => lfsrClear_r _ j, rfl, rfl, rfl⟩,
    ⟨_, execRsfeedi_iff.mpr rfl, ⟨rfl, rfl⟩, lfsrClock_k _ _, lfsrClock_g _ _, lfsrClock_syn _ _, fun h0 => ?_, fun h0 hk => ?_⟩⟩
  · exact congrArg (·.r) (lfsrClock_of_zero h0 d)
  · rw [State.succeed_rs, State.setRs_rs]
    refine ⟨?_, fun j h1 hj => ?_, fun j hj => lfsrClock_r_of_ge h0.ne' d hj⟩
    · rw [lfsrClock_r h0.ne' d (by decide), if_pos rfl]
    · rw [lfsrClock_r h0.ne' d (hj.trans_le hk), if_neg (by omega), if_pos hj]

/-- Settles O32: RSFEED feeds the bytes that stand at the cursor. -/
theorem rsfeedConsumesBytes : Obligations.RsfeedConsumesBytes := by
  intro a s m
  refine ⟨exec_rsfeed_too_few, fun ds hm hleft hbits => ⟨_, exec_rsfeed hm ⟨by rwa [hm], by rwa [hm]⟩, ⟨rfl, rfl⟩, rfl, ?_⟩⟩
  rw [State.succeed_stream, State.setRs_stream, State.setStream_stream_same]
  exact ⟨rfl, rfl, rfl⟩

/-- Settles O33: the stream becomes `Stream.put` of the bits of the EC bytes. -/
theorem rsemitWritesRegistersInOrder : Obligations.RsemitWritesRegistersInOrder := by
  intro a s hwf p
  obtain ⟨hpos, hcount, hcap, -⟩ := hwf
  refine ⟨exec_rsemit_past_max, fun h0 => ⟨_, exec_rsemit_zero (hpos.trans (hcount.trans hcap)) h0, ⟨rfl, rfl⟩, rfl⟩,
    fun h0 hmax => ⟨_, exec_rsemit h0 hmax, ⟨rfl, rfl⟩, rfl, ?_⟩⟩
  have hl : ((ecBytes s.rs).flatMap byteBits).length = 8 * s.rs.k := by rw [flatMap_byteBits_length, ecBytes_length]
  obtain ⟨hp, hc, hcp, hkept, hnew⟩ := Stream.put_spec hpos hl fun i _ => rfl
  rw [State.succeed_stream, State.setStream_stream_same]
  refine ⟨hp, hc, hcp, hkept, fun j hj b hb => ?_⟩
  rw [Nat.add_assoc, hnew _ (by omega), flatMap_byteBits_getD _ (by rwa [ecBytes_length]) hb, ecBytes_getD hj]

/-- Settles O34: RSSYN takes the syndromes of the bytes that stand at the cursor. -/
theorem rssynComputesSyndromes : Obligations.RssynComputesSyndromes := by
  intro a s m
  refine ⟨exec_rssyn_too_few, fun cs hm hleft hbits => ⟨_, exec_rssyn hm ⟨by rwa [hm], by rwa [hm]⟩, ⟨rfl, rfl⟩, ?_⟩⟩
  rw [State.succeed_stream, State.setSynz_stream, State.setRs_stream, State.setStream_stream_same]
  exact ⟨rfl, rfl, rfl, rfl, rfl, rfl, fun i hi => byteAt_syndromes _ _ hi, allZeroBelow_iff⟩

/-! ## What the GF and RS commands leave unchanged -/

/-- What command `i` may make of the RS unit: a new generator for RSGEN; other registers R for RSCLR and the feeds; other syndromes for
RSSYN. -/
inductive RsUnitEnd (i : Instr) (rs : Rs) : Rs → Prop
  | kept : RsUnitEnd i rs rs
  | rebuilt (n : BitVec 6) (hi : i = .rsgen n) {rs' : Rs} (hsyn : rs'.syn = rs.syn) : RsUnitEnd i rs rs'
  | clocked (hi : i = .rsclr ∨ (∃ d, i = .rsfeedi d) ∨ ∃ a, i = .rsfeed a) {rs' : Rs} (hk : rs'.k = rs.k) (hg : rs'.g = rs.g)
      (hsyn : rs'.syn = rs.syn) : RsUnitEnd i rs rs'
  | checked (a : StreamId) (hi : i = .rssyn a) (syn : Vector Byte 32) : RsUnitEnd i rs { rs with syn := syn }

/-- What command `i` may make of stream `c`: the cursor advances for RSFEED and RSSYN, RSEMIT writes. -/
inductive RsStreamEnd (i : Instr) (c : StreamId) (st : Stream) : Stream → Prop
  | kept : RsStreamEnd i c st st
  | read (hi : i.rsStream = some c) (n : Nat) : RsStreamEnd i c st (st.advance n)
  | written (hi : i = .rsemit c) (bs : List Bool) : RsStreamEnd i c st (st.put bs)

section
variable {i : Instr} {s t : State}

theorem exec_rsUnitEnd (hi : i.isRs = true) (h : exec i s = .next t) : RsUnitEnd i s.rs t.rs := by
  cases i with
  | rsgen n =>
    obtain ⟨-, rfl⟩ | ⟨-, rfl⟩ := execRsgen_iff.mp h
    exacts [.kept, .rebuilt n rfl rfl]
  | rsclr =>
    obtain rfl := execRsclr_iff.mp h
    exact .clocked (.inl rfl) rfl rfl rfl
  | rsfeedi d =>
    obtain rfl := execRsfeedi_iff.mp h
    exact .clocked (.inr (.inl ⟨d, rfl⟩)) (lfsrClock_k _ _) (lfsrClock_g _ _) (lfsrClock_syn _ _)
  | rsfeed a =>
    obtain ⟨-, rfl⟩ | ⟨-, rfl⟩ := execRsfeed_iff.mp h
    exacts [.kept, .clocked (.inr (.inr ⟨a, rfl⟩)) (lfsrFeed_k _ _) (lfsrFeed_g _ _) (lfsrFeed_syn _ _)]
  | rssyn a =>
    obtain ⟨-, rfl⟩ | ⟨-, rfl⟩ := execRssyn_iff.mp h
    exacts [.kept, .checked a rfl _]
  | gfmul | polymod | rsemit | rsrdg | rsrdr | rsrds => exact (exec_frame h nofun).rs rfl ▸ .kept
  | _ => nomatch hi

/-- A stream other than the replaced one is kept. -/
theorem RsStreamEnd.setStream {a : StreamId} {st : Stream} (h : RsStreamEnd i a (s.stream a) st) (c : StreamId) :
    RsStreamEnd i c (s.stream c) ((s.setStream a st).stream c) := by
  by_cases hc : c = a
  · subst hc
    exact (State.setStream_stream_same s c st).symm ▸ h
  · exact (State.setStream_stream_ne s st hc).symm ▸ .kept

theorem exec_rsStreamEnd (hi : i.isRs = true) (h : exec i s = .next t) (c : StreamId) : RsStreamEnd i c (s.stream c) (t.stream c) := by
  cases i with
  | rsfeed a =>
    obtain ⟨-, rfl⟩ | ⟨-, rfl⟩ := execRsfeed_iff.mp h
    exacts [.kept, .setStream (.read rfl _) c]
  | rsemit a =>
    obtain ⟨-, rfl⟩ | ⟨-, ⟨-, rfl⟩ | ⟨-, rfl⟩⟩ := execRsemit_iff.mp h
    exacts [.kept, .kept, .setStream (.written rfl _) c]
  | rssyn a =>
    obtain ⟨-, rfl⟩ | ⟨-, rfl⟩ := execRssyn_iff.mp h
    exacts [.kept, .setStream (.read rfl _) c]
  | gfmul | polymod | rsgen | rsclr | rsfeedi | rsrdg | rsrdr | rsrds =>
    have hsame : t.stream c = s.stream c := congrArg (·.get c) ((exec_frame h nofun).streams rfl)
    exact hsame ▸ .kept
  | _ => nomatch hi

/-- FCHK and FSEL are no RS command's to write, SYNZ is RSSYN's (R54, R205). -/
theorem exec_rs_flags (hi : i.isRs = true) (h : exec i s = .next t) :
    t.status.fchk = s.status.fchk ∧ t.status.fsel = s.status.fsel ∧ ((∀ a, i ≠ .rssyn a) → t.status.synz = s.status.synz) := by
  cases i with
  | rssyn a =>
    obtain ⟨-, rfl⟩ | ⟨-, rfl⟩ := execRssyn_iff.mp h
    exacts [⟨rfl, rfl, fun _ => rfl⟩, ⟨rfl, rfl, fun hne => absurd rfl (hne a)⟩]
  | gfmul | polymod | rsgen | rsclr | rsfeedi | rsfeed | rsemit | rsrdg | rsrdr | rsrds =>
    obtain ⟨hfchk, hfsel, hsynz⟩ := (exec_frame h nofun).flags rfl
    exact ⟨hfchk, hfsel, fun _ => hsynz⟩
  | _ => nomatch hi

theorem isRs_writes_no_grid (h : i.isRs = true) : i ≠ .reset ∧ i.writesGrid = false ∧ i.movesCursor = false ∧ i ≠ .mselect := by
  cases i with
  | gfmul | polymod | rsgen | rsclr | rsfeedi | rsfeed | rsemit | rssyn | rsrdg | rsrdr | rsrds => exact ⟨nofun, rfl, rfl, nofun⟩
  | _ => nomatch h

end

section
variable {i : Instr} {rs rs' : Rs} (h : RsUnitEnd i rs rs')
include h

theorem RsUnitEnd.generator_eq (hgen : ∀ n, i ≠ .rsgen n) : rs'.k = rs.k ∧ rs'.g = rs.g := by
  cases h with
  | kept => exact ⟨rfl, rfl⟩
  | rebuilt n hi => exact absurd hi (hgen n)
  | clocked _ hk hg => exact ⟨hk, hg⟩
  | checked => exact ⟨rfl, rfl⟩

theorem RsUnitEnd.registers_eq (hgen : ∀ n, i ≠ .rsgen n) (hclr : i ≠ .rsclr) (hfeedi : ∀ d, i ≠ .rsfeedi d)
    (hfeed : ∀ a, i ≠ .rsfeed a) : rs'.r = rs.r := by
  cases h with
  | kept => rfl
  | rebuilt n hi => exact absurd hi (hgen n)
  | clocked hi =>
    obtain hi | ⟨d, hi⟩ | ⟨a, hi⟩ := hi
    exacts [absurd hi hclr, absurd hi (hfeedi d), absurd hi (hfeed a)]
  | checked => rfl

theorem RsUnitEnd.syndromes_eq (hsynd : ∀ a, i ≠ .rssyn a) : rs'.syn = rs.syn := by
  cases h with
  | kept => rfl
  | rebuilt _ _ hsyn => exact hsyn
  | clocked _ _ _ hsyn => exact hsyn
  | checked a hi => exact absurd hi (hsynd a)

end

section
variable {i : Instr} {c : StreamId} {st st' : Stream} (h : RsStreamEnd i c st st')
include h

theorem RsStreamEnd.eq_of_other (hc : i.rsStream ≠ some c) : st' = st := by
  cases h with
  | kept => rfl
  | read hi => exact absurd hi hc
  | written hi => exact absurd (hi ▸ rfl) hc

theorem RsStreamEnd.bits_eq (hemit : ∀ a, i ≠ .rsemit a) : st'.bits = st.bits ∧ st'.cap = st.cap := by
  cases h with
  | kept => exact ⟨rfl, rfl⟩
  | read => exact ⟨rfl, rfl⟩
  | written hi => exact absurd hi (hemit c)

end

/-- Settles O37: the other units by `exec_frame`, the RS unit by `exec_rsUnitEnd`, the streams by `exec_rsStreamEnd`. -/
theorem rsCommandFrame : Obligations.RsCommandFrame := by
  intro i s t hi h
  obtain ⟨hreset, hgrid, hcursor, hmask⟩ := isRs_writes_no_grid hi
  obtain ⟨hfchk, hfsel, hsynz⟩ := exec_rs_flags hi h
  have hf := exec_frame h hreset
  have hrs := exec_rsUnitEnd hi h
  have hstream := exec_rsStreamEnd hi h
  exact ⟨hf.hostSide, hf.grid hgrid, hf.cursor hcursor, hf.mask hmask, hfchk, hfsel, hf.result, hrs.generator_eq, hrs.registers_eq,
    fun hne => ⟨hrs.syndromes_eq hne, hsynz hne⟩, fun c => (hstream c).eq_of_other, fun hne c => (hstream c).bits_eq hne⟩

end Sys2Proof.Machine
end

section
/-! SUPPORT. The codewords of the BCH unit (43_bch.md R231, R235): payload above, residue below, so that a codeword leaves no residue,
gives its payload back, and the sum of two codewords is the codeword of the sum. -/

namespace Sys2Proof.Machine

variable {g p q r : Word} {k n : Nat}

theorem getLsbD_eq_false_of_lt (h : r.toNat < 2 ^ n) {i : Nat} (hi : n ≤ i) : r.getLsbD i = false :=
  Nat.testBit_lt_two_pow (h.trans_le (Nat.pow_le_pow_right two_pos hi))

/-- A shifted word and one below the shift have no 1 bit in common. -/
theorem shiftLeft_or_eq_xor (h : r.toNat < 2 ^ n) (p : Word) : p <<< n ||| r = p <<< n ^^^ r := by
  apply BitVec.eq_of_getLsbD_eq
  intro i _
  rw [BitVec.getLsbD_or, BitVec.getLsbD_xor]
  rcases Nat.lt_or_ge i n with hi | hi
  · simp [hi]
  · simp [getLsbD_eq_false_of_lt h hi]

/-- The codeword of payload `p` under generator `g`: the payload shifted by the degree of `g`, its residue below (R231, R235). -/
def codeword (g p : Word) : Word := p <<< degree g ||| polymod (p <<< degree g) g

theorem codeword_eq_xor (hg : g ≠ 0) (p : Word) : codeword g p = p <<< degree g ^^^ polymod (p <<< degree g) g :=
  shiftLeft_or_eq_xor (polymod_lt hg _) p

/-- A codeword is a multiple of the generator. -/
theorem polymod_codeword (hg : g ≠ 0) (p : Word) : polymod (codeword g p) g = 0 := by
  rw [codeword_eq_xor hg, polymod_xor hg, polymod_of_lt (polymod_lt hg _)]
  exact BitVec.xor_self

/-- The code is linear. -/
theorem codeword_xor (hg : g ≠ 0) (p q : Word) : codeword g (p ^^^ q) = codeword g p ^^^ codeword g q := by
  rw [codeword_eq_xor hg, codeword_eq_xor hg, codeword_eq_xor hg, BitVec.shiftLeft_xor_distrib, polymod_xor hg]
  ac_rfl

theorem codeword_lt (hg : g ≠ 0) (hp : p.toNat < 2 ^ k) : (codeword g p).toNat < 2 ^ (degree g + k) := by
  refine Nat.or_lt_two_pow ?_ ((polymod_lt hg _).trans_le (Nat.pow_le_pow_right two_pos (Nat.le_add_right _ _)))
  rw [BitVec.toNat_shiftLeft, Nat.shiftLeft_eq, pow_add, Nat.mul_comm]
  exact (Nat.mod_le _ _).trans_lt (Nat.mul_lt_mul_of_pos_left hp (Nat.two_pow_pos _))

/-- The payload stands above the residue. -/
theorem codeword_extractLsb' (hg : g ≠ 0) (hk : degree g + k ≤ 32) (p : Word) :
    (codeword g p).extractLsb' (degree g) k = p.setWidth k := by
  apply BitVec.eq_of_getLsbD_eq
  intro i hi
  have hin : degree g + i < 32 := by omega
  rw [BitVec.getLsbD_extractLsb', codeword, BitVec.getLsbD_or, getLsbD_eq_false_of_lt (polymod_lt hg _) (Nat.le_add_right _ i)]
  simp [hi, hin, BitVec.getLsbD_eq_getElem (by omega : i < 32)]

/-! ## The format words (R231, R233) -/

theorem fmtGen_ne_zero : fmtGen ≠ 0 := by decide

theorem degree_fmtGen : degree fmtGen = 10 := by decide

/-- A format word unmasked is the codeword of its payload. -/
theorem fmtUnmask_fmtword (payload : BitVec 5) : fmtUnmask (fmtword payload) = codeword fmtGen (payload.setWidth 32) := by
  rw [fmtUnmask, fmtword, BitVec.xor_assoc, BitVec.xor_self, BitVec.xor_zero, codeword, degree_fmtGen]

theorem fmtword_lt (payload : BitVec 5) : (fmtword payload).toNat < 2 ^ 15 := by
  have hp : (payload.setWidth 32).toNat < 2 ^ 5 := by
    rw [BitVec.toNat_setWidth_of_le (by decide)]
    exact payload.isLt
  have hlt := codeword_lt fmtGen_ne_zero hp
  rw [degree_fmtGen, codeword, degree_fmtGen] at hlt
  exact Nat.xor_lt_two_pow hlt (by decide)

theorem fmtClean_fmtUnmask_fmtword (payload : BitVec 5) : fmtClean (fmtUnmask (fmtword payload)) = true := by
  rw [fmtUnmask_fmtword, fmtClean, polymod_codeword fmtGen_ne_zero]
  rfl

theorem fmtPayload_fmtUnmask_fmtword (payload : BitVec 5) : fmtPayload (fmtUnmask (fmtword payload)) = payload := by
  have h := codeword_extractLsb' fmtGen_ne_zero (k := 5) (by rw [degree_fmtGen]; decide) (payload.setWidth 32)
  rw [degree_fmtGen] at h
  rw [fmtUnmask_fmtword, fmtPayload, h]
  simp

/-- The five low bits of a payload below 32 are the payload. -/
theorem setWidth_setWidth_of_lt_32 {ib : Byte} (h : ib.toNat < 32) : (ib.setWidth 5).setWidth 32 = ib.setWidth 32 := by
  apply BitVec.eq_of_toNat_eq
  simp [Nat.mod_eq_of_lt h]

/-! ## The version words (R235) -/

theorem verGen_ne_zero : verGen ≠ 0 := by decide

theorem degree_verGen : degree verGen = 12 := by decide

theorem verword_eq_codeword (v : Nat) : verword v = codeword verGen (BitVec.ofNat 32 v) := by
  rw [codeword, degree_verGen, verword]

theorem verword_xor (u v : Nat) : verword (u ^^^ v) = verword u ^^^ verword v := by
  simp only [verword_eq_codeword, BitVec.ofNat_xor, codeword_xor verGen_ne_zero]

theorem verword_lt {v : Nat} (h : v < 64) : (verword v).toNat < 2 ^ 18 := by
  have hlt := codeword_lt (k := 6) verGen_ne_zero (p := BitVec.ofNat 32 v) ((Nat.mod_le _ _).trans_lt h)
  rwa [degree_verGen, ← verword_eq_codeword] at hlt

end Sys2Proof.Machine
end

section
/-! SUPPORT. VERDEC's distance and its scan (43_bch.md R237): the distance obeys the triangle inequality, two version words are at least 7
apart, and the scan ends on the first version of least distance. -/

namespace Sys2Proof.Machine

variable {x a b : Word} {u v : Nat}

/-! ## The number of 1 bits (R10) -/

theorem popcount_zero : popcount 0 = 0 := by decide

theorem popcount_le_18 (h : a.toNat < 2 ^ 18) : popcount a ≤ 18 := by
  have hbits : ∀ i ∈ List.range 32, a.getLsbD i = true → decide (i < 18) = true := fun i _ hi => by
    by_contra hge
    exact absurd hi (by rw [getLsbD_eq_false_of_lt h (by simpa using hge)]; decide)
  calc popcount a ≤ (List.range 32).countP (decide <| · < 18) := List.countP_mono_left hbits
    _ = 18 := by decide

theorem popcount_xor_le (a b : Word) : popcount (a ^^^ b) ≤ popcount a + popcount b := by
  simp only [popcount, BitVec.getLsbD_xor]
  induction List.range 32 with
  | nil => rfl
  | cons i is ih =>
    simp only [List.countP_cons]
    cases a.getLsbD i <;> cases b.getLsbD i <;> simp <;> omega

/-! ## The distance (R237) -/

theorem verDistance_lt_19 (hv : v < 64) (hx : x.toNat < 2 ^ 18) : verDistance x v < 19 :=
  Nat.lt_succ_of_le (popcount_le_18 (Nat.xor_lt_two_pow (verword_lt hv) hx))

theorem verDistance_verword (v : Nat) : verDistance (verword v) v = 0 := by
  rw [verDistance, BitVec.xor_self]
  exact popcount_zero

/-- The code's minimum weight: by linearity these 63 words stand for all pairs of version words. -/
theorem seven_le_popcount_verword : ∀ u < 64, u ≠ 0 → 7 ≤ popcount (verword u) := by decide +kernel

/-- Two version words within distance 3 of the same word are one: their sum is a version word of weight at most 6. -/
theorem eq_of_verDistance_le_three (hu : u < 64) (hv : v < 64) (hdu : verDistance x u ≤ 3) (hdv : verDistance x v ≤ 3) : u = v := by
  by_contra hne
  have hweight : 7 ≤ popcount (verword (u ^^^ v)) :=
    seven_le_popcount_verword _ (Nat.xor_lt_two_pow (n := 6) hu hv) (mt Nat.xor_eq_zero_iff.mp hne)
  have hle : popcount (verword (u ^^^ v)) ≤ verDistance x u + verDistance x v := by
    calc popcount (verword (u ^^^ v)) = popcount ((verword u ^^^ x) ^^^ (verword v ^^^ x)) := by
          rw [verword_xor, BitVec.xor_comm (verword v) x, ← BitVec.xor_assoc, BitVec.xor_assoc _ x x, BitVec.xor_self, BitVec.xor_zero]
      _ ≤ verDistance x u + verDistance x v := popcount_xor_le _ _
  omega

/-! ## The scan (R237) -/

/-- `w` is among the candidates `vs`, none is nearer to `x`, and none below `w` is as near. -/
def IsNearest (x : Word) (vs : List Nat) (w : Nat) : Prop :=
  w ∈ vs ∧ ∀ u ∈ vs, verDistance x w ≤ verDistance x u ∧ (u < w → verDistance x w < verDistance x u)

section
variable {vs : List Nat} {best w : Nat}

theorem isNearest_head (hinc : (v :: vs).Pairwise (· < ·)) (hle : ∀ u ∈ vs, verDistance x v ≤ verDistance x u) :
    IsNearest x (v :: vs) v := by
  refine ⟨List.mem_cons_self, List.forall_mem_cons.mpr
    ⟨⟨le_rfl, fun h => absurd h (lt_irrefl _)⟩, fun u hu => ⟨hle u hu, fun h => ?_⟩⟩⟩
  exact absurd h (List.rel_of_pairwise_cons hinc hu).asymm

/-- A candidate farther off than some other one changes nothing. -/
theorem IsNearest.cons_of_farther (h : IsNearest x vs w) (hv : v ∈ vs) (hlt : verDistance x v < verDistance x best) :
    IsNearest x (best :: vs) w := by
  obtain ⟨hmem, hmin⟩ := h
  have hw : verDistance x w < verDistance x best := (hmin v hv).1.trans_lt hlt
  exact ⟨List.mem_cons_of_mem _ hmem, List.forall_mem_cons.mpr ⟨⟨hw.le, fun _ => hw⟩, hmin⟩⟩

/-- A later candidate that is not nearer than the best so far changes nothing. -/
theorem IsNearest.insert_of_not_nearer (h : IsNearest x (best :: vs) w) (hlt : best < v) (hle : verDistance x best ≤ verDistance x v) :
    IsNearest x (best :: v :: vs) w := by
  obtain ⟨hmem, hmin⟩ := h
  obtain ⟨⟨hbest, hbestLt⟩, hrest⟩ := List.forall_mem_cons.mp hmin
  refine ⟨?_, List.forall_mem_cons.mpr ⟨⟨hbest, hbestLt⟩, List.forall_mem_cons.mpr ⟨⟨hbest.trans hle, fun h => ?_⟩, hrest⟩⟩⟩
  · exact ((List.sublist_cons_self v vs).cons_cons best).subset hmem
  · exact (hbestLt (hlt.trans h)).trans_le hle

/-- The scan of increasing candidates ends on the nearest one, from a best so far that is no exact match. -/
theorem verScan_isNearest (hinc : (best :: vs).Pairwise (· < ·)) (hbest : verDistance x best ≠ 0) :
    ∃ w, verScan x vs (best, verDistance x best) = (w, verDistance x w) ∧ IsNearest x (best :: vs) w := by
  induction vs generalizing best with
  | nil => exact ⟨best, rfl, isNearest_head hinc nofun⟩
  | cons v vs ih =>
    obtain ⟨hlt, hinc'⟩ := List.pairwise_cons.mp hinc
    rw [verScan]
    split
    · next hexact =>
      refine ⟨v, by rw [hexact], ?_⟩
      exact (isNearest_head hinc' fun u _ => hexact ▸ Nat.zero_le _).cons_of_farther List.mem_cons_self
        (hexact ▸ Nat.pos_of_ne_zero hbest)
    · next hinexact =>
      split
      · next hnearer =>
        obtain ⟨w, hscan, hw⟩ := ih hinc' hinexact
        exact ⟨w, hscan, hw.cons_of_farther List.mem_cons_self hnearer⟩
      · next hfarther =>
        obtain ⟨w, hscan, hw⟩ := ih (hinc.sublist ((List.sublist_cons_self v vs).cons_cons best)) hbest
        exact ⟨w, hscan, hw.insert_of_not_nearer (hlt v List.mem_cons_self) (Nat.not_lt.mp hfarther)⟩

end

theorem verCandidates_eq_cons : verCandidates = 7 :: List.range' 8 33 := rfl

theorem mem_verCandidates_iff : v ∈ verCandidates ↔ 7 ≤ v ∧ v ≤ 40 := by
  rw [verCandidates, List.mem_range'_1]
  omega

theorem verCandidates_increasing : verCandidates.Pairwise (· < ·) := List.pairwise_lt_range' ..

/-- VERDEC's scan finds the nearest version: the first candidate is nearer than the distance 19 it starts from (R237). -/
theorem nearestVersion_isNearest (hx : x.toNat < 2 ^ 18) :
    ∃ w, nearestVersion x = (w, verDistance x w) ∧ IsNearest x verCandidates w := by
  have hinc := verCandidates_increasing
  rw [nearestVersion, verCandidates_eq_cons, verScan, if_pos (verDistance_lt_19 (by decide) hx)]
  rw [verCandidates_eq_cons] at hinc
  split
  · next hexact =>
    exact ⟨7, by rw [hexact], isNearest_head hinc fun u _ => hexact ▸ Nat.zero_le _⟩
  · next hinexact => exact verScan_isNearest hinc hinexact

/-- A version within distance 3 is the nearest one: up to 3 bit errors are corrected (R237). -/
theorem IsNearest.eq_of_le_three {w : Nat} (h : IsNearest x verCandidates w) (h7 : 7 ≤ v) (h40 : v ≤ 40) (hv : verDistance x v ≤ 3) :
    v = w := by
  obtain ⟨hmem, hmin⟩ := h
  have hw40 := (mem_verCandidates_iff.mp hmem).2
  have hle := (hmin v (mem_verCandidates_iff.mpr ⟨h7, h40⟩)).1
  exact eq_of_verDistance_le_three (by omega) (by omega) hv (hle.trans hv)

/-- RESULT's distance and version do not overlap (R237). -/
theorem distance_version_word (d : Nat) (hv : v < 256) :
    BitVec.ofNat 32 d <<< 8 ||| BitVec.ofNat 32 v = BitVec.ofNat 32 (d * 256 + v) := by
  have hshift : BitVec.ofNat 32 d <<< 8 = BitVec.ofNat 32 (d <<< 8) := BitVec.eq_of_toNat_eq (by simp [Nat.shiftLeft_eq])
  rw [hshift, ← BitVec.ofNat_or, ← Nat.shiftLeft_add_eq_or_of_lt (i := 8) hv, Nat.shiftLeft_eq]

end Sys2Proof.Machine
end

section
/-! SUPPORT. The BCH commands (43_bch.md R232-R239): the next state of each, case by case, and what the six commands leave unchanged. -/

namespace Sys2Proof.Machine

section
variable {ib : Byte} {s : State}

theorem exec_fmtenc (h : ib.toNat < 32) : exec (.fmtenc ib) s = .next (s.setResult (fmtword (ib.setWidth 5))).succeed :=
  execFmtenc_iff.mpr (.inr ⟨h, rfl⟩)

theorem exec_verenc_of_not_version (h : ib.toNat < 7 ∨ 40 < ib.toNat) : exec (.verenc ib) s = .next (s.raise .range) :=
  execVerenc_iff.mpr (.inl ⟨h, rfl⟩)

theorem exec_verenc (h7 : 7 ≤ ib.toNat) (h40 : ib.toNat ≤ 40) : exec (.verenc ib) s = .next (s.setResult (verword ib.toNat)).succeed :=
  execVerenc_iff.mpr (.inr ⟨⟨h7, h40⟩, rfl⟩)

/-- DIMCHK of a side of version `v` (R238). -/
theorem exec_dimchk {v : Nat} (h1 : 1 ≤ v) (h40 : v ≤ 40) (hside : s.arg0.toNat = 4 * v + 17) (hsquare : s.arg1 = s.arg0) :
    exec .dimchk s = .next (s.setResult (resultNat v)).succeed := by
  have hside' : s.arg0Nat = 4 * v + 17 := hside
  have hv : (s.arg0Nat - 17) / 4 = v := by omega
  exact execDimchk_iff.mpr (.inr ⟨congrArg BitVec.toNat hsquare.symm, by omega, by omega, by omega, by rw [hv]⟩)

/-- DIMCHK of a size that is no version's (R238). -/
theorem exec_dimchk_of_not_side (h : ¬ ∃ v, 1 ≤ v ∧ v ≤ 40 ∧ s.arg0.toNat = 4 * v + 17 ∧ s.arg1 = s.arg0) :
    exec .dimchk s = .next (s.raise .invalidSize) := by
  refine execDimchk_iff.mpr (.inl ⟨?_, rfl⟩)
  by_contra hside
  simp only [not_or, State.arg0Nat, State.arg1Nat, not_not] at hside
  obtain ⟨heq, hmin, hmax, hmod⟩ := hside
  exact h ⟨(s.arg0.toNat - 17) / 4, by omega, by omega, by omega, BitVec.eq_of_toNat_eq heq.symm⟩

theorem exec_fmtdec_too_wide (h : ¬ s.arg0.toNat < 2 ^ 15) : exec .fmtdec s = .next (s.raise .range) :=
  execFmtdec_iff.mpr (.inl ⟨decide_eq_false h, rfl⟩)

theorem exec_fmtdec (h : s.arg0.toNat < 2 ^ 15) :
    exec .fmtdec s = .next ((s.setResult ((fmtPayload (fmtUnmask s.arg0)).setWidth 32)).setFchk (fmtClean (fmtUnmask s.arg0))).succeed :=
  execFmtdec_iff.mpr (.inr ⟨decide_eq_true h, rfl⟩)

theorem exec_fmtdec2_too_wide (h : ¬ s.arg0.toNat < 2 ^ 15 ∨ ¬ s.arg1.toNat < 2 ^ 15) : exec .fmtdec2 s = .next (s.raise .range) :=
  execFmtdec2_iff.mpr (.inl ⟨Bool.and_eq_false_iff.mpr (h.imp decide_eq_false decide_eq_false), rfl⟩)

section
variable (h0 : s.arg0.toNat < 2 ^ 15) (h1 : s.arg1.toNat < 2 ^ 15)
include h0 h1

theorem both_isFmtWord : (isFmtWord s.arg0 && isFmtWord s.arg1) = true :=
  Bool.and_eq_true_iff.mpr ⟨decide_eq_true h0, decide_eq_true h1⟩

theorem exec_fmtdec2_first (hc : fmtClean (fmtUnmask s.arg0) = true) :
    exec .fmtdec2 s = .next (((s.setResult ((fmtPayload (fmtUnmask s.arg0)).setWidth 32)).setFsel false).setFchk true).succeed :=
  execFmtdec2_iff.mpr (.inr ⟨both_isFmtWord h0 h1, .inl ⟨hc, rfl⟩⟩)

theorem exec_fmtdec2_second (hc0 : fmtClean (fmtUnmask s.arg0) = false) (hc1 : fmtClean (fmtUnmask s.arg1) = true) :
    exec .fmtdec2 s = .next (((s.setResult ((fmtPayload (fmtUnmask s.arg1)).setWidth 32)).setFsel true).setFchk true).succeed :=
  execFmtdec2_iff.mpr (.inr ⟨both_isFmtWord h0 h1, .inr ⟨hc0, .inl ⟨hc1, rfl⟩⟩⟩)

theorem exec_fmtdec2_neither (hc0 : fmtClean (fmtUnmask s.arg0) = false) (hc1 : fmtClean (fmtUnmask s.arg1) = false) :
    exec .fmtdec2 s = .next (s.raise .malformed) :=
  execFmtdec2_iff.mpr (.inr ⟨both_isFmtWord h0 h1, .inr ⟨hc0, .inr ⟨hc1, rfl⟩⟩⟩)

end

theorem exec_verdec_too_wide (h : 2 ^ 18 ≤ s.arg0.toNat) : exec .verdec s = .next (s.raise .range) :=
  execVerdec_iff.mpr (.inl ⟨decide_eq_false (Nat.not_lt.mpr h), rfl⟩)

/-- VERDEC gives the nearest version and its distance (R237). -/
theorem exec_verdec (h : s.arg0.toNat < 2 ^ 18) :
    ∃ v, IsNearest s.arg0 verCandidates v
      ∧ exec .verdec s = .next (s.setResult (BitVec.ofNat 32 (verDistance s.arg0 v * 256 + v))).succeed := by
  obtain ⟨v, hscan, hv⟩ := nearestVersion_isNearest h
  have hle := (mem_verCandidates_iff.mp hv.1).2
  refine ⟨v, hv, execVerdec_iff.mpr (.inr ⟨decide_eq_true h, ?_⟩)⟩
  rw [hscan, distance_version_word _ (by omega)]

end

theorem fmtClean_iff {w : Word} : fmtClean w = true ↔ polymod w 0x537 = 0 := beq_iff_eq

theorem fmtClean_eq_false {w : Word} (h : ¬ polymod w 0x537 = 0) : fmtClean w = false :=
  Bool.eq_false_iff.mpr (mt fmtClean_iff.mp h)

/-- Settles O38: the words are `fmtword` and `verword` written out, and DIMCHK's two cases are complementary. -/
theorem bchEncodeAndSizeResults : Obligations.BchEncodeAndSizeResults := by
  intro ib s
  refine ⟨fun h => ⟨_, exec_fmtenc h, ⟨rfl, rfl⟩, ?_⟩, exec_verenc_of_not_version,
    fun h7 h40 => ⟨_, exec_verenc h7 h40, ⟨rfl, rfl⟩, ?_⟩, fun v h1 h40 hside hsquare => ?_, exec_dimchk_of_not_side⟩
  · show fmtword (ib.setWidth 5) = _
    rw [fmtword, setWidth_setWidth_of_lt_32 h, fmtGen, fmtMask]
  · show verword ib.toNat = _
    rw [verword, BitVec.ofNat_toNat, verGen]
  · exact ⟨_, exec_dimchk h1 h40 hside hsquare, ⟨rfl, rfl⟩, rfl⟩

/-- Settles O39: FMTDEC and FMTDEC2, case by case in the order of their checks. -/
theorem formatDecodeResults : Obligations.FormatDecodeResults := by
  intro s
  refine ⟨exec_fmtdec_too_wide, ?_, exec_fmtdec2_too_wide, ?_, ?_, ?_⟩
  · exact fun h => ⟨_, exec_fmtdec h, ⟨rfl, rfl⟩, rfl, fmtClean_iff, rfl⟩
  · exact fun h0 h1 hc => ⟨_, exec_fmtdec2_first h0 h1 (fmtClean_iff.mpr hc), ⟨rfl, rfl⟩, rfl, rfl, rfl⟩
  · exact fun h0 h1 hc0 hc1 =>
      ⟨_, exec_fmtdec2_second h0 h1 (fmtClean_eq_false hc0) (fmtClean_iff.mpr hc1), ⟨rfl, rfl⟩, rfl, rfl, rfl⟩
  · exact fun h0 h1 hc0 hc1 => exec_fmtdec2_neither h0 h1 (fmtClean_eq_false hc0) (fmtClean_eq_false hc1)

/-- Settles O41: the scan's invariant `IsNearest`, and the least distance 7 between version words. -/
theorem verdecFindsNearestVersion : Obligations.VerdecFindsNearestVersion := by
  intro s
  refine ⟨exec_verdec_too_wide, fun h => ?_⟩
  obtain ⟨v, hv, hexec⟩ := exec_verdec h
  have ⟨hmem, hmin⟩ := hv
  obtain ⟨h7, h40⟩ := mem_verCandidates_iff.mp hmem
  refine ⟨_, v, hexec, ⟨rfl, rfl⟩, h7, h40, rfl, fun u hu7 hu40 => ?_, fun u hu7 hlt => ?_, fun u => hv.eq_of_le_three⟩
  · exact (hmin u (mem_verCandidates_iff.mpr ⟨hu7, hu40⟩)).1
  · exact (hmin u (mem_verCandidates_iff.mpr ⟨hu7, hlt.le.trans h40⟩)).2 hlt

/-- VERDEC of a version word gives its version with distance 0 (R239). -/
theorem exec_verdec_verword {s : State} {v : Nat} (h7 : 7 ≤ v) (h40 : v ≤ 40) (harg : s.arg0 = verword v) :
    exec .verdec s = .next (s.setResult (BitVec.ofNat 32 v)).succeed := by
  have hself : verDistance s.arg0 v = 0 := harg ▸ verDistance_verword v
  obtain ⟨w, hw, hexec⟩ := exec_verdec (s := s) (harg ▸ verword_lt (by omega))
  obtain rfl := hw.eq_of_le_three h7 h40 (hself.trans_le (Nat.zero_le 3))
  rw [hexec, hself, Nat.zero_mul, Nat.zero_add]

/-- Settles O40: a format word unmasked is a codeword of its payload, and a version word is at distance 0 from its own version. -/
theorem bchRoundTrips : Obligations.BchRoundTrips := by
  intro ib s t
  refine ⟨fun h ht => ?_, fun h7 h40 ht => ?_⟩
  · obtain rfl := Host.Outcome.next.inj (ht.symm.trans (exec_fmtenc h))
    have hlt := fmtword_lt (ib.setWidth 5)
    have hclean := fmtClean_fmtUnmask_fmtword (ib.setWidth 5)
    have hpayload : (fmtPayload (fmtUnmask (fmtword (ib.setWidth 5)))).setWidth 32 = ib.setWidth 32 := by
      rw [fmtPayload_fmtUnmask_fmtword, setWidth_setWidth_of_lt_32 h]
    exact ⟨⟨_, exec_fmtdec hlt, hpayload, hclean⟩, _, exec_fmtdec2_first hlt hlt hclean, hpayload, rfl, rfl⟩
  · obtain rfl := Host.Outcome.next.inj (ht.symm.trans (exec_verenc h7 h40))
    exact ⟨_, exec_verdec_verword h7 h40 rfl, BitVec.ofNat_toNat 32 ib⟩

/-- FCHK is FMTDEC's and FMTDEC2's to write, FSEL is FMTDEC2's, SYNZ is no BCH command's (R54). -/
theorem exec_bch_flags {i : Instr} {s t : State} (hi : i.isBch = true) (h : exec i s = .next t) :
    t.status.synz = s.status.synz ∧ (i ≠ .fmtdec → i ≠ .fmtdec2 → t.status.fchk = s.status.fchk)
      ∧ (i ≠ .fmtdec2 → t.status.fsel = s.status.fsel) := by
  cases i with
  | fmtdec =>
    obtain ⟨-, rfl⟩ | ⟨-, rfl⟩ := execFmtdec_iff.mp h
    exacts [⟨rfl, fun _ _ => rfl, fun _ => rfl⟩, ⟨rfl, fun hne => absurd rfl hne, fun _ => rfl⟩]
  | fmtdec2 =>
    refine ⟨?_, fun _ hne => absurd rfl hne, fun hne => absurd rfl hne⟩
    obtain ⟨-, rfl⟩ | ⟨-, ⟨-, rfl⟩ | ⟨-, ⟨-, rfl⟩ | ⟨-, rfl⟩⟩⟩ := execFmtdec2_iff.mp h <;> rfl
  | fmtenc | verenc | verdec | dimchk =>
    obtain ⟨hfchk, hfsel, hsynz⟩ := (exec_frame h nofun).flags rfl
    exact ⟨hsynz, fun _ _ => hfchk, fun _ => hfsel⟩
  | _ => nomatch hi

theorem isBch_writes_no_unit {i : Instr} (h : i.isBch = true) : i ≠ .reset ∧ i.writesStreams = false ∧ i.writesRs = false
    ∧ i.writesGrid = false ∧ i.movesCursor = false ∧ i ≠ .mselect := by
  cases i with
  | fmtenc | fmtdec | fmtdec2 | verenc | verdec | dimchk => exact ⟨nofun, rfl, rfl, rfl, rfl, nofun⟩
  | _ => nomatch h

/-- Settles O42: the units by `exec_frame`, the flags by `exec_bch_flags`. -/
theorem bchCommandFrame : Obligations.BchCommandFrame := by
  intro i s t hi h
  obtain ⟨hreset, hstreams, hrs, hgrid, hcursor, hmask⟩ := isBch_writes_no_unit hi
  have hf := exec_frame h hreset
  exact ⟨hf.hostSide, hf.streams hstreams, hf.rs hrs, hf.grid hgrid, hf.cursor hcursor, hf.mask hmask, exec_bch_flags hi h⟩

end Sys2Proof.Machine
end

section
/-! SUPPORT. The first checks of the grid and mask commands (44_grid_layout.md R267), and what the commands of 44_grid_layout.md leave
unchanged (R268-R281). -/

namespace Sys2Proof.Machine

variable {i : Instr} {s t : State}

/-! ## The first checks (R267) -/

/-- A legal command that needs a grid asks for it before anything else. -/
theorem exec_eq_ifGrid (hwf : i.wf = true) (hi : i.needsGrid = true) (s : State) : ∃ k, exec i s = complete s (ifGrid s k) := by
  cases i with
  | modr | modw32 | modr32 | pbegin | pstore | pload | mselect => exact ⟨_, rfl⟩
  | modw | amw | pwrite | pread | mapply | mscore => exact ⟨_, congrArg (complete s) (ifLegal_of hwf _)⟩
  | _ => nomatch hi

/-- A legal format-M command asks for a grid and for its coordinates before anything else. -/
theorem exec_eq_ifModule (hwf : i.wf = true) {row col : Byte} (hi : i.coords = some (row, col)) (s : State) :
    ∃ k, exec i s = complete s (ifModule s row col k) := by
  cases i with
  | modr | modw32 | modr32 =>
    cases hi
    exact ⟨_, rfl⟩
  | modw | amw =>
    cases hi
    exact ⟨_, congrArg (complete s) (ifLegal_of hwf _)⟩
  | _ => nomatch hi

/-- Settles O16: the two shared checks stand first. -/
theorem gridChecksComeFirst : Obligations.GridChecksComeFirst := by
  intro i s hwf hi
  refine ⟨fun hv => ?_, fun row col hrc hout => ?_⟩
  · obtain ⟨k, hk⟩ := exec_eq_ifGrid hwf hi s
    exact hk.trans (complete_ifGrid_iff.mpr (.inl ⟨hv, rfl⟩))
  · obtain ⟨k, hk⟩ := exec_eq_ifModule hwf hrc s
    refine hk.trans (complete_ifModule_iff.mpr ?_)
    cases hv : s.grid.gvalid with
    | false => exact .inl ⟨rfl, rfl⟩
    | true => exact .inr (.inl ⟨rfl, hout, rfl⟩)

/-! ## What the grid and placement commands leave unchanged -/

/-- What command `i` may make of the grid: any grid for GINIT, other module colours for the commands that write modules, other
assignable bits for AMW. -/
inductive GridEnd (i : Instr) (g : Grid) : Grid → Prop
  | kept : GridEnd i g g
  | rebuilt (hi : i.isGinit = true) (g' : Grid) : GridEnd i g g'
  | coloured (hi : i.writesModules = true) (mod : BitGrid) : GridEnd i g { g with mod := mod }
  | reassigned (hi : i.isAmw = true) (asg : BitGrid) : GridEnd i g { g with asg := asg }

theorem exec_gridEnd (hi : i.isGrid = true) (h : exec i s = .next t) : GridEnd i s.grid t.grid := by
  cases i with
  | ginit ib => exact .rebuilt rfl _
  | modw row col val =>
    obtain ⟨-, rfl⟩ | ⟨-, ⟨-, rfl⟩ | ⟨-, -, rfl⟩ | ⟨-, -, -, rfl⟩⟩ := execModw_iff.mp h
    exacts [.kept, .kept, .kept, .coloured rfl _]
  | amw row col val =>
    obtain ⟨-, rfl⟩ | ⟨-, ⟨-, rfl⟩ | ⟨-, -, rfl⟩ | ⟨-, -, -, rfl⟩⟩ := execAmw_iff.mp h
    exacts [.kept, .kept, .kept, .reassigned rfl _]
  | modw32 row col =>
    obtain ⟨-, rfl⟩ | ⟨-, -, rfl⟩ | ⟨-, -, -, rfl⟩ := execModw32_iff.mp h
    exacts [.kept, .kept, .coloured rfl _]
  | pwrite n =>
    obtain ⟨-, rfl⟩ | ⟨-, ⟨-, rfl⟩ | ⟨-, -, rfl⟩ | ⟨-, -, ⟨-, rfl⟩ | ⟨-, rfl⟩⟩⟩ := execPwrite_iff.mp h
    exacts [.kept, .kept, .kept, .kept, .coloured rfl _]
  | pstore a =>
    obtain ⟨-, rfl⟩ | ⟨-, -, rfl⟩ | ⟨-, -, ⟨-, rfl⟩ | ⟨-, ⟨-, rfl⟩ | ⟨-, rfl⟩⟩⟩ := execPstore_iff.mp h
    exacts [.kept, .kept, .kept, .kept, .coloured rfl _]
  | modr | modr32 | pbegin | pread | pload => exact (exec_frame h nofun).grid rfl ▸ .kept
  | _ => nomatch hi

section
variable {g g' : Grid} (h : GridEnd i g g')
include h

theorem GridEnd.shape_eq (hi : i.isGinit = false) : g'.ver = g.ver ∧ g'.dim = g.dim ∧ g'.gvalid = g.gvalid := by
  cases h with
  | rebuilt hi' => exact nomatch hi.symm.trans hi'
  | kept | coloured | reassigned => exact ⟨rfl, rfl, rfl⟩

theorem GridEnd.asg_eq (hi : i.isGinit = false) (ha : i.isAmw = false) : g'.asg = g.asg := by
  cases h with
  | kept | coloured => rfl
  | rebuilt hi' => exact nomatch hi.symm.trans hi'
  | reassigned ha' => exact nomatch ha.symm.trans ha'

end

/-- GINIT writes modules too. -/
theorem writesModules_of_isGinit (h : i.isGinit = true) : i.writesModules = true := by
  cases i with
  | ginit => rfl
  | _ => nomatch h

theorem GridEnd.mod_eq {g g' : Grid} (h : GridEnd i g g') (hi : i.writesModules = false) : g'.mod = g.mod := by
  cases h with
  | kept | reassigned => rfl
  | rebuilt hi' => exact nomatch hi.symm.trans (writesModules_of_isGinit hi')
  | coloured hi' => exact nomatch hi.symm.trans hi'

/-- Bits placed at the cursor change no module that is not assignable (R275, R278, R280). -/
theorem State.PlacementWf.place_modAt (hs : s.PlacementWf) (hv : s.grid.gvalid = true) (hi : s.cursor.pstate ≠ .idle) {bs : List Bool}
    {n : Nat} (hl : bs.length = n) (hn : n ≤ s.modulesLeft) {r c : Nat} (hr : s.asgAt r c = false) :
    BitGrid.get (placeBits s.grid.dim s.grid.asg bs s.grid.mod s.cursor).1 r c = s.modAt r c := by
  subst hl
  have hd := hs.gridWf.isSide hv
  obtain ⟨-, hkept, -⟩ := placeBits_frame hd (mod := s.grid.mod) (hs.cursorWf.traversing hd hi).1 hn
  exact hkept r c hr

/-- PWRITE and PSTORE keep the reserved modules. -/
theorem exec_places_modAt (hi : i.placesModules = true) (hs : s.PlacementWf) (h : exec i s = .next t) {r c : Nat}
    (hr : s.asgAt r c = false) : t.modAt r c = s.modAt r c := by
  cases i with
  | pwrite n =>
    obtain ⟨-, rfl⟩ | ⟨-, ⟨-, rfl⟩ | ⟨-, -, rfl⟩ | ⟨hv, hidle, ⟨-, rfl⟩ | ⟨hleft, rfl⟩⟩⟩ := execPwrite_iff.mp h
    exacts [rfl, rfl, rfl, rfl, hs.place_modAt hv hidle (wordBits_length _ _) hleft hr]
  | pstore a =>
    obtain ⟨-, rfl⟩ | ⟨-, -, rfl⟩ | ⟨hv, hidle, ⟨-, rfl⟩ | ⟨hbits, ⟨-, rfl⟩ | ⟨hleft, rfl⟩⟩⟩ := execPstore_iff.mp h
    exacts [rfl, rfl, rfl, rfl, hs.place_modAt hv hidle (Stream.next_length hbits) hleft hr]
  | _ => nomatch hi

/-- A grid command keeps every stream but that of PSTORE and PLOAD. -/
theorem exec_grid_streams (hi : i.isGrid = true) (h : exec i s = .next t) {c : StreamId} (hc : i.gridStream ≠ some c) :
    t.stream c = s.stream c := by
  cases i with
  | pstore a =>
    have hne : c ≠ a := fun he => hc (he ▸ rfl)
    obtain ⟨-, rfl⟩ | ⟨-, -, rfl⟩ | ⟨-, -, ⟨-, rfl⟩ | ⟨-, ⟨-, rfl⟩ | ⟨-, rfl⟩⟩⟩ := execPstore_iff.mp h
    exacts [rfl, rfl, rfl, rfl, State.setStream_stream_ne s _ hne]
  | pload a =>
    have hne : c ≠ a := fun he => hc (he ▸ rfl)
    obtain ⟨-, rfl⟩ | ⟨-, -, rfl⟩ | ⟨-, -, ⟨-, rfl⟩ | ⟨-, ⟨-, rfl⟩ | ⟨-, ⟨-, rfl⟩ | ⟨-, rfl⟩⟩⟩⟩ := execPload_iff.mp h
    exacts [rfl, rfl, rfl, rfl, rfl, State.setStream_stream_ne s _ hne]
  | ginit | modw | modr | amw | modw32 | modr32 | pbegin | pwrite | pread =>
    exact congrArg (·.get c) ((exec_frame h nofun).streams rfl)
  | _ => nomatch hi

/-- PSTORE moves its stream's cursor only (R280). -/
theorem exec_pstore_stream {a : StreamId} (h : exec (.pstore a) s = .next t) :
    (t.stream a).bits = (s.stream a).bits ∧ (t.stream a).cap = (s.stream a).cap := by
  obtain ⟨-, rfl⟩ | ⟨-, -, rfl⟩ | ⟨-, -, ⟨-, rfl⟩ | ⟨-, ⟨-, rfl⟩ | ⟨-, rfl⟩⟩⟩ := execPstore_iff.mp h
  iterate 4 exact ⟨rfl, rfl⟩
  rw [State.succeed_stream, State.setPlaced_stream, State.setStream_stream_same]
  exact ⟨rfl, rfl⟩

theorem isGrid_writes_no_other_unit (h : i.isGrid = true) :
    i ≠ .reset ∧ i.writesFlags = false ∧ i.writesRs = false ∧ i ≠ .mselect := by
  cases i with
  | ginit | modw | modr | amw | modw32 | modr32 | pbegin | pwrite | pread | pstore | pload => exact ⟨nofun, rfl, rfl, nofun⟩
  | _ => nomatch h

/-- Settles O55: the other units by `exec_frame`, the grid by `exec_gridEnd`, the streams by `exec_grid_streams`. -/
theorem gridCommandFrame : Obligations.GridCommandFrame := by
  intro i s t hi h
  obtain ⟨hreset, hflags, hrs, hmask⟩ := isGrid_writes_no_other_unit hi
  have hf := exec_frame h hreset
  have hgrid := exec_gridEnd hi h
  refine ⟨hf.hostSide, hf.flags hflags, hf.rs hrs, hf.mask hmask, hf.result, hgrid.shape_eq, hgrid.asg_eq, hgrid.mod_eq, hf.cursor,
    fun hp hs r c => exec_places_modAt hp hs h, fun c => exec_grid_streams hi h, ?_⟩
  rintro a rfl
  exact exec_pstore_stream h

end Sys2Proof.Machine
end

section
/-! SUPPORT. The placement traversal (44_grid_layout.md R274-R277): the raw order from its start, seek() along the raw walk, and PBEGIN. -/

namespace Sys2Proof.Machine

/-! ## The raw order from its start (R274) -/

section
variable {d : Nat} (hd : IsSide d)
include hd

/-- The raw walk from the start, by numbers. -/
theorem rawWalk_startCursor (n : Nat) :
    rawWalk d n (startCursor d) = if n < rawLen d then some (rawAt d (startCursor d) n) else none := by
  have hpos : 0 < rawLen d := Nat.mul_pos (by have := hd.2; omega) (by have := hd.2; omega)
  have h := rawWalk_rawAt hd (startCursor d) n 0 hpos
  rwa [← startCursor_eq hd, Nat.zero_add] at h

theorem rawWalk_startCursor_of_lt {n : Nat} (hn : n < rawLen d) :
    rawWalk d n (startCursor d) = some (rawAt d (startCursor d) n) := by
  rw [rawWalk_startCursor hd, if_pos hn]

theorem rawWalk_startCursor_of_ge {n : Nat} (hn : rawLen d ≤ n) : rawWalk d n (startCursor d) = none := by
  rw [rawWalk_startCursor hd, if_neg (Nat.not_lt.mpr hn)]

/-- What the raw walk reaches from the start is a position of the raw order. -/
theorem rawWalk_startCursor_eq_some {n : Nat} {x : Cursor} (h : rawWalk d n (startCursor d) = some x) :
    n < rawLen d ∧ x = rawAt d (startCursor d) n := by
  rw [rawWalk_startCursor hd, Option.ite_none_right_eq_some] at h
  obtain ⟨hn, hx⟩ := h
  exact ⟨hn, (Option.some.inj hx).symm⟩

/-- The right column of a strip, with column 6 skipped: PX = D-1-2k from 8 up, one less below. -/
theorem rawPos_px (c : Cursor) (k q : Nat) :
    (rawPos d c k q).px = if 8 ≤ d - 1 - 2 * k then d - 1 - 2 * k else d - 2 - 2 * k := by
  have h1 := hd.1
  have he : (rawPos d c k q).px = if d - 1 - 2 * k < 7 then d - 2 - 2 * k else d - 1 - 2 * k := rfl
  split at he <;> split <;> omega

/-- Every module outside column 6 is passed over at one number of raw moves. -/
theorem exists_unique_rawWalk {r c : Nat} (hr : r < d) (hc : c < d) (h6 : c ≠ 6) :
    ∃ n x, rawWalk d n (startCursor d) = some x ∧ x.py = r ∧ x.col = c
      ∧ ∀ n' x', rawWalk d n' (startCursor d) = some x' → x'.py = r → x'.col = c → n' = n := by
  obtain ⟨hlt, hrow, hcol⟩ := rawAt_rawIndex hd (startCursor d) hr hc h6
  refine ⟨_, _, rawWalk_startCursor_of_lt hd hlt, hrow, hcol, fun n' x' hx' hr' hc' => ?_⟩
  obtain ⟨hn', rfl⟩ := rawWalk_startCursor_eq_some hd hx'
  exact rawAt_inj hd _ _ hn' hlt (hr'.trans hrow.symm) (hc'.trans hcol.symm)

end

/-- Settles O47: the raw walk numbers its positions, and `rawIndex` gives each module its number. -/
theorem rawOrderVisitsEachModuleOnce : Obligations.RawOrderVisitsEachModuleOnce := by
  intro v h1 _ d
  have hd : IsSide d := isSide_dimOf h1
  refine ⟨fun n hn => ⟨_, rawWalk_startCursor_of_lt hd hn, rawPos_px hd _ _ _, rfl, rfl, rfl⟩, fun n => rawWalk_startCursor_of_ge hd,
    fun r c => exists_unique_rawWalk hd, fun n x hx => ?_⟩
  obtain ⟨hn, rfl⟩ := rawWalk_startCursor_eq_some hd hx
  exact ⟨rawAt_py_lt hd _ n, rawAt_col_bounds hd _ hn⟩

/-! ## seek() along the raw walk (R275) -/

section
variable {d : Nat} (hd : IsSide d) {asg : BitGrid} {c : Cursor} {n m : Nat}
include hd

/-- The raw walk from one position of the raw order to a later one. -/
theorem rawWalk_rawAt_sub (hnm : n ≤ m) (hm : m < rawLen d) : rawWalk d (m - n) (rawAt d c n) = some (rawAt d c m) := by
  rw [rawWalk_rawAt hd c _ n (hnm.trans_lt hm), Nat.add_sub_cancel' hnm, if_pos hm]

/-- What holds of the position numbers ahead holds of the positions of the raw walk. -/
theorem onAssignable_of_rawWalk_rawAt (hn : n < rawLen d) {k : Nat} {y : Cursor} (hy : rawWalk d k (rawAt d c n) = some y) :
    n + k < rawLen d ∧ y.onAssignable asg = asgNum d asg (n + k) := by
  rw [rawWalk_rawAt hd c _ n hn, Option.ite_none_right_eq_some] at hy
  obtain ⟨hlt, hy⟩ := hy
  cases hy
  exact ⟨hlt, rfl⟩

end

/-- Settles O48: `seek_rawAt`, with the position numbers turned into raw moves. -/
theorem seekFindsFirstAssignableModule : Obligations.SeekFindsFirstAssignableModule := by
  intro v asg c h1 _ hpath d c'
  have hd : IsSide d := isSide_dimOf h1
  obtain ⟨n, hn, hc⟩ := hpath.exists_rawAt hd
  have hwalk {k : Nat} {y : Cursor} (hy : rawWalk d k c = some y) :=
    onAssignable_of_rawWalk_rawAt hd (asg := asg) hn (hc ▸ hy)
  obtain ⟨-, -, hend⟩ := seek_rawAt hd asg c hn
  rw [← hc] at hend
  obtain ⟨m, hnm, hbefore, ⟨hm, -, hactive, hasg⟩, hseek⟩ | ⟨hdone, hnone⟩ := hend
  · refine .inl ⟨hactive, m - n, rawAt d c m, ?_, hasg, hseek, fun k y hk hy => ?_⟩
    · conv_lhs => rw [hc]
      exact rawWalk_rawAt_sub hd hnm hm
    · rw [(hwalk hy).2]
      exact hbefore _ (Nat.le_add_right n k) (by omega)
  · refine .inr ⟨hdone, fun k y hy => ?_⟩
    obtain ⟨hlt, hon⟩ := hwalk hy
    rw [hon]
    exact hnone _ (Nat.le_add_right n k) hlt

/-! ## PBEGIN (R277) -/

/-- A module remains while the cursor is ACTIVE: the one under it. -/
theorem Cursor.ActiveAt.remaining_ne_zero {d : Nat} (hd : IsSide d) {asg : BitGrid} {c : Cursor} {n : Nat} (h : c.ActiveAt d asg n) :
    c.remaining d asg ≠ 0 := by
  obtain ⟨-, hleft, -⟩ := h.step hd
  omega

/-- PBEGIN is DONE at once exactly when there is no assignable module outside column 6 (R276). -/
theorem beginCursor_done_iff {d : Nat} (hd : IsSide d) (asg : BitGrid) :
    ((beginCursor d asg).pstate = .active ∨ (beginCursor d asg).pstate = .done)
      ∧ ((beginCursor d asg).pstate = .done ↔ freeCount d asg = 0) := by
  obtain ⟨-, hleft, ⟨m, -, hm, -⟩ | ⟨hdone, -⟩⟩ := beginCursor_spec hd asg
  · have ⟨_, _, hactive, _⟩ := hm
    have hne := hm.remaining_ne_zero hd
    rw [hleft] at hne
    exact ⟨.inl hactive, fun h => (nomatch hactive.symm.trans h), fun h => absurd h hne⟩
  · exact ⟨.inr hdone, fun _ => hleft.symm.trans (Cursor.remaining_of_done asg hdone), fun _ => hdone⟩

/-- An ACTIVE cursor of PBEGIN is on the first assignable module of the raw walk. -/
theorem beginCursor_first {d : Nat} (hd : IsSide d) {asg : BitGrid} (h : (beginCursor d asg).pstate = .active) :
    ∃ n x, rawWalk d n (startCursor d) = some x ∧ beginCursor d asg = { x with pstate := .active }
      ∧ BitGrid.get asg x.py x.col = true
      ∧ ∀ k y, k < n → rawWalk d k (startCursor d) = some y → BitGrid.get asg y.py y.col = false := by
  obtain ⟨-, -, ⟨m, hbefore, ⟨hm, -, -, hasg⟩, hbegin⟩ | ⟨hdone, -⟩⟩ := beginCursor_spec hd asg
  · refine ⟨m, _, rawWalk_startCursor_of_lt hd hm, hbegin, hasg, fun k y hk hy => ?_⟩
    obtain ⟨-, rfl⟩ := rawWalk_startCursor_eq_some hd hy
    exact hbefore k hk
  · exact nomatch h.symm.trans hdone

/-- Settles O49: the next state has PBEGIN's cursor. -/
theorem pbeginStartsTraversal : Obligations.PbeginStartsTraversal := by
  intro s hg hv
  have hd := hg.isSide hv
  obtain ⟨hbits, hleft, -⟩ := beginCursor_spec hd s.grid.asg
  obtain ⟨hstate, hdone⟩ := beginCursor_done_iff hd s.grid.asg
  exact ⟨_, exec_pbegin_of_gvalid hv, ⟨rfl, rfl⟩, rfl, hbits, hstate, hdone, hleft, beginCursor_first hd⟩

end Sys2Proof.Machine
end

section
/-! SUPPORT. The placement transfers (44_grid_layout.md R278-R281): when each completes and with which next state, what they count, one bit
at a time, and what is placed read back. -/

namespace Sys2Proof.Machine

variable {s t : State} {n : BitVec 6} {a : StreamId}

/-! ## The next state of each transfer -/

section
variable (hv : s.grid.gvalid = true) (hi : s.cursor.pstate ≠ .idle)
include hv hi

section
variable (h1 : 1 ≤ n.toNat) (h8 : n.toNat ≤ 8) (hleft : n.toNat ≤ s.modulesLeft)
include h1 h8 hleft

theorem exec_pwrite :
    exec (.pwrite n) s = .next (s.setPlaced
      (placeBits s.grid.dim s.grid.asg (s.arg0Bits n.toNat) s.grid.mod s.cursor).1
      (placeBits s.grid.dim s.grid.asg (s.arg0Bits n.toNat) s.grid.mod s.cursor).2).succeed :=
  execPwrite_iff.mpr (.inr ⟨⟨h1, h8⟩, .inr (.inr ⟨hv, hi, .inr ⟨hleft, rfl⟩⟩)⟩)

theorem exec_pread :
    exec (.pread n) s = .next ((s.setCursor (pickBits s.grid.dim s.grid.asg s.grid.mod n.toNat s.cursor).2).setResult
      (bitsToWord (pickBits s.grid.dim s.grid.asg s.grid.mod n.toNat s.cursor).1)).succeed :=
  execPread_iff.mpr (.inr ⟨⟨h1, h8⟩, .inr (.inr ⟨hv, hi, .inr ⟨hleft, rfl⟩⟩)⟩)

end

section
variable (hleft : s.arg0.toNat ≤ s.modulesLeft)
include hleft

theorem exec_pstore (hbits : s.arg0.toNat ≤ (s.stream a).remaining) :
    exec (.pstore a) s = .next ((s.setStream a ((s.stream a).advance s.arg0.toNat)).setPlaced
      (placeBits s.grid.dim s.grid.asg ((s.stream a).next s.arg0.toNat) s.grid.mod s.cursor).1
      (placeBits s.grid.dim s.grid.asg ((s.stream a).next s.arg0.toNat) s.grid.mod s.cursor).2).succeed :=
  execPstore_iff.mpr (.inr (.inr ⟨hv, hi, .inr ⟨hbits, .inr ⟨hleft, rfl⟩⟩⟩))

theorem exec_pload_zero (h0 : s.arg0.toNat = 0) : exec (.pload a) s = .next s.succeed :=
  execPload_iff.mpr (.inr (.inr ⟨hv, hi, .inr ⟨hleft, .inl ⟨h0, rfl⟩⟩⟩))

theorem exec_pload (h0 : 0 < s.arg0.toNat) (hroom : (s.stream a).pos + s.arg0.toNat ≤ 32768) :
    exec (.pload a) s = .next ((s.setStream a ((s.stream a).put
        (pickBits s.grid.dim s.grid.asg s.grid.mod s.arg0.toNat s.cursor).1)).setCursor
      (pickBits s.grid.dim s.grid.asg s.grid.mod s.arg0.toNat s.cursor).2).succeed :=
  execPload_iff.mpr
    (.inr (.inr ⟨hv, hi, .inr ⟨hleft, .inr ⟨h0.ne', .inr ⟨Stream.overflows_eq_false_iff_le.mpr hroom, rfl⟩⟩⟩⟩))

end

end

/-! ## What a transfer that succeeded met -/

theorem exec_pwrite_checks (h : exec (.pwrite n) s = .next t) (hok : t.status.lastErr = .ok) :
    s.grid.gvalid = true ∧ s.cursor.pstate ≠ .idle ∧ 1 ≤ n.toNat ∧ n.toNat ≤ 8 ∧ n.toNat ≤ s.modulesLeft := by
  obtain ⟨-, rfl⟩ | ⟨⟨h1, h8⟩, ⟨-, rfl⟩ | ⟨-, -, rfl⟩ | ⟨hv, hi, ⟨-, rfl⟩ | ⟨hleft, rfl⟩⟩⟩ := execPwrite_iff.mp h
  iterate 4 nomatch hok
  exact ⟨hv, hi, h1, h8, hleft⟩

theorem exec_pread_checks (h : exec (.pread n) s = .next t) (hok : t.status.lastErr = .ok) :
    s.grid.gvalid = true ∧ s.cursor.pstate ≠ .idle ∧ 1 ≤ n.toNat ∧ n.toNat ≤ 8 ∧ n.toNat ≤ s.modulesLeft := by
  obtain ⟨-, rfl⟩ | ⟨⟨h1, h8⟩, ⟨-, rfl⟩ | ⟨-, -, rfl⟩ | ⟨hv, hi, ⟨-, rfl⟩ | ⟨hleft, rfl⟩⟩⟩ := execPread_iff.mp h
  iterate 4 nomatch hok
  exact ⟨hv, hi, h1, h8, hleft⟩

theorem exec_pstore_checks (h : exec (.pstore a) s = .next t) (hok : t.status.lastErr = .ok) :
    s.grid.gvalid = true ∧ s.cursor.pstate ≠ .idle ∧ s.arg0.toNat ≤ s.modulesLeft ∧ s.arg0.toNat ≤ (s.stream a).remaining := by
  obtain ⟨-, rfl⟩ | ⟨-, -, rfl⟩ | ⟨hv, hi, ⟨-, rfl⟩ | ⟨hbits, ⟨-, rfl⟩ | ⟨hleft, rfl⟩⟩⟩ := execPstore_iff.mp h
  iterate 4 nomatch hok
  exact ⟨hv, hi, hleft, hbits⟩

theorem exec_pload_checks (h : exec (.pload a) s = .next t) (hok : t.status.lastErr = .ok) (h0 : 0 < s.arg0.toNat) :
    s.grid.gvalid = true ∧ s.cursor.pstate ≠ .idle ∧ s.arg0.toNat ≤ s.modulesLeft ∧ (s.stream a).pos + s.arg0.toNat ≤ 32768 := by
  obtain ⟨-, rfl⟩ | ⟨-, -, rfl⟩ | ⟨hv, hi, ⟨-, rfl⟩ | ⟨hleft, ⟨hzero, -⟩ | ⟨-, ⟨-, rfl⟩ | ⟨hroom, rfl⟩⟩⟩⟩ := execPload_iff.mp h
  iterate 3 nomatch hok
  · exact absurd hzero h0.ne'
  · nomatch hok
  · exact ⟨hv, hi, hleft, Stream.overflows_eq_false_iff_le.mp hroom⟩

/-! ## What the transfers count (R275) -/

/-- The counts after a transfer of `k` modules, from those of the cursor. -/
theorem State.PlacementWf.counts_of_steps (hs : s.PlacementWf) (hv : s.grid.gvalid = true) (hi : s.cursor.pstate ≠ .idle) {k : Nat}
    (hk : k ≤ s.modulesLeft) {c : Cursor} (hc : c = s.cursor.steps s.grid.dim s.grid.asg k) :
    c.pbits = s.cursor.pbits + k ∧ c.remaining s.grid.dim s.grid.asg + k = s.cursor.remaining s.grid.dim s.grid.asg := by
  subst hc
  have hd := hs.gridWf.isSide hv
  obtain ⟨hbits, hleft, -⟩ := Cursor.steps_spec hd (hs.cursorWf.traversing hd hi).1 hk
  exact ⟨hbits, hleft⟩

theorem bitsToWord_toNat_lt (bs : List Bool) : (bitsToWord bs).toNat < 2 ^ bs.length := by
  rw [bitsToWord, BitVec.toNat_ofNat]
  exact (Nat.mod_le _ _).trans_lt (bitsToNat_lt bs)

/-- Settles O50: each transfer's next state, its cursor as many steps on as modules are moved. -/
theorem placementTransfersComplete : Obligations.PlacementTransfersComplete := by
  intro s hs hv hi left m moved
  have placed {bs : List Bool} {k : Nat} (hl : bs.length = k) (hk : k ≤ left) :=
    hs.counts_of_steps hv hi hk (hl ▸ placeBits_cursor s.grid.dim s.grid.asg bs s.grid.mod s.cursor)
  have picked {k : Nat} (hk : k ≤ left) :=
    hs.counts_of_steps hv hi hk (pickBits_cursor s.grid.dim s.grid.asg s.grid.mod k s.cursor)
  refine ⟨fun n h1 h8 hleft => ⟨⟨_, exec_pwrite hv hi h1 h8 hleft, ⟨⟨rfl, rfl⟩, placed (wordBits_length _ _) hleft⟩, rfl⟩,
      ⟨_, exec_pread hv hi h1 h8 hleft, ⟨⟨rfl, rfl⟩, picked hleft⟩, rfl, ?_⟩⟩,
    fun a hbits hleft => ⟨_, exec_pstore hv hi hleft hbits, ⟨⟨rfl, rfl⟩, placed (Stream.next_length hbits) hleft⟩, rfl, ?_⟩,
    fun a hpos hleft hroom => ?_⟩
  · have h := bitsToWord_toNat_lt (pickBits s.grid.dim s.grid.asg s.grid.mod n.toNat s.cursor).1
    rwa [pickBits_length] at h
  · rw [State.succeed_stream, State.setPlaced_stream, State.setStream_stream_same]
    exact ⟨rfl, rfl⟩
  · obtain h0 | h0 := Nat.eq_zero_or_pos m
    · exact ⟨_, exec_pload_zero hv hi hleft h0, ⟨⟨rfl, rfl⟩, h0.symm ▸ rfl, h0.symm ▸ rfl⟩, rfl, fun _ => rfl,
        fun h => absurd h0 h.ne'⟩
    · refine ⟨_, exec_pload hv hi hleft h0 hroom, ⟨⟨rfl, rfl⟩, picked hleft⟩, rfl, fun h => absurd h h0.ne', fun _ => ?_⟩
      obtain ⟨hp, hc, hcap, hkept, -⟩ := Stream.put_spec hpos (pickBits_length s.grid.dim s.grid.asg s.grid.mod m s.cursor)
        fun i _ => rfl
      rw [State.succeed_stream, State.setCursor_stream, State.setStream_stream_same]
      exact ⟨hp, hc, hcap, hkept⟩

/-! ## What is placed is read back -/

/-- Settles O53: PLOAD picks up the bits PSTORE placed (`pickBits_placeBits`) and writes them behind the cursor of its stream. -/
theorem placementReadsBackWhatWasPlaced : Obligations.PlacementReadsBackWhatWasPlaced := by
  intro a b s t u hs hstreams hstore hok h0 hload hok' i hi
  have hpos := (exec_keeps_streamsWf hstreams hstore b).1
  obtain ⟨hv, hidle, hleft, hbits⟩ := exec_pstore_checks hstore hok
  obtain rfl := Host.Outcome.next.inj (hstore.symm.trans (exec_pstore hv hidle hleft hbits))
  obtain ⟨hv', hidle', hleft', hroom⟩ := exec_pload_checks hload hok' h0
  obtain rfl := Host.Outcome.next.inj (hload.symm.trans (exec_pload hv' hidle' hleft' h0 hroom))
  have hd := hs.gridWf.isSide hv
  have hlen := Stream.next_length hbits
  have hpick := pickBits_placeBits hd hs.gridWf.mod_square (hs.cursorWf.traversing hd hidle).1 (hlen.trans_le hleft)
  rw [hlen] at hpick
  rw [State.succeed_stream, State.setCursor_stream, State.setStream_stream_same]
  refine (Stream.put_bitAt_ge hpos _ i).trans ?_
  rw [← Stream.next_getD hi]
  exact congrArg (·.getD i false) hpick

end Sys2Proof.Machine
end

section
/-! SUPPORT. A placement transfer bit by bit (44_grid_layout.md R275, R278-R281): the first bit is moved at the cursor's module, the cursor
goes on, and the rest is a transfer of one bit less. -/

namespace Sys2Proof.Machine

/-! ## The first bit of a sequence -/

theorem wordBits_succ (n : Nat) (v : Word) : wordBits (n + 1) v = (v >>> n).getLsbD 0 :: wordBits n v := by
  have htail : (List.range n).map ((fun i => v.getLsbD (n + 1 - 1 - i)) ∘ Nat.succ) = wordBits n v :=
    List.map_congr_left fun i _ => congrArg v.getLsbD (by omega)
  rw [wordBits, List.range_succ_eq_map, List.map_cons, List.map_map, htail, BitVec.getLsbD_ushiftRight]
  rfl

theorem Stream.next_succ {st : Stream} {n : Nat} (h : n + 1 ≤ st.remaining) :
    st.next (n + 1) = st.bitAt st.pos :: (st.advance 1).next n := by
  have hlt : st.pos < st.bits.length := by
    simp only [Stream.remaining, Stream.count] at h
    omega
  rw [Stream.next, Stream.next, List.drop_eq_getElem_cons hlt, List.take_succ_cons, Stream.bitAt, List.getD_eq_getElem _ _ hlt]
  rfl

/-- The first of a sequence of bits is the highest bit of its word (R151). -/
theorem bitsToWord_cons (b : Bool) {bs : List Bool} (h : bs.length < 32) :
    bitsToWord (b :: bs) = (bitsToWord [b] <<< bs.length) ||| bitsToWord bs := by
  apply BitVec.eq_of_getLsbD_eq
  intro j hj
  have hcons : (b :: bs).length ≤ 32 := h
  have hone : [b].length ≤ 32 := Nat.le_of_ble_eq_true rfl
  rw [BitVec.getLsbD_or, BitVec.getLsbD_shiftLeft, bitsToWord_getLsbD hcons, bitsToWord_getLsbD hone, bitsToWord_getLsbD h.le]
  obtain hlt | rfl | hgt := Nat.lt_trichotomy j bs.length
  · have hidx : bs.length - j = bs.length - 1 - j + 1 := by omega
    simp [hlt, hlt.trans (Nat.lt_succ_self _), hidx]
  · simp [hj]
  · have h1 : ¬ j - bs.length < [b].length := Nat.not_lt.mpr (Nat.sub_pos_of_lt hgt)
    have h2 : ¬ j < (b :: bs).length := Nat.not_lt.mpr hgt
    have h3 : ¬ j < bs.length := hgt.not_gt
    simp only [h1, h2, h3, decide_false, Bool.false_and, Bool.and_false, Bool.or_false]

/-! ## One bit at the cursor -/

theorem ne_idle_of_active {c : Cursor} (h : c.pstate = .active) : c.pstate ≠ .idle := fun h' => nomatch h.symm.trans h'

section
variable {s : State} (hs : s.PlacementWf) (hact : s.cursor.pstate = .active)
include hs hact

theorem State.PlacementWf.gvalid_of_active : s.grid.gvalid = true := by
  obtain ⟨-, -, hidle⟩ := hs
  by_contra hv
  exact nomatch hact.symm.trans (hidle (Bool.not_eq_true _ ▸ hv))

theorem State.PlacementWf.activeAt : ∃ n, s.cursor.ActiveAt s.grid.dim s.grid.asg n := by
  obtain ⟨-, hactive, -⟩ := hs.cursorWf
  obtain ⟨hpath, hon, -⟩ := hactive hact
  exact Cursor.ActiveAt.of_onPath (hs.gridWf.isSide (hs.gvalid_of_active hact)) hpath hon hact

/-- After one module the traversal goes on or is over, with one module less (R275). -/
theorem State.PlacementWf.step_of_active :
    (s.cursor.step s.grid.dim s.grid.asg).pstate ≠ .idle
      ∧ (s.cursor.step s.grid.dim s.grid.asg).remaining s.grid.dim s.grid.asg + 1 = s.modulesLeft := by
  obtain ⟨n, hn⟩ := hs.activeAt hact
  obtain ⟨-, hleft, ⟨m, -, -, ⟨-, -, hactive, -⟩, -⟩ | ⟨hdone, -⟩⟩ := hn.step (hs.gridWf.isSide (hs.gvalid_of_active hact))
  · exact ⟨fun h => (nomatch hactive.symm.trans h), hleft⟩
  · exact ⟨fun h => (nomatch hdone.symm.trans h), hleft⟩

/-- A transfer that fits before a module is moved fits after it with one bit less. -/
theorem State.PlacementWf.le_remaining_step {m k : Nat} (hm : m = k + 1) (hle : m ≤ s.modulesLeft) :
    k ≤ (s.cursor.step s.grid.dim s.grid.asg).remaining s.grid.dim s.grid.asg := by
  obtain ⟨-, hleft⟩ := hs.step_of_active hact
  omega

theorem State.PlacementWf.one_le_modulesLeft : 1 ≤ s.modulesLeft := by
  obtain ⟨-, hleft⟩ := hs.step_of_active hact
  omega

/-- PWRITE 1 colours the module under the cursor (R278). -/
theorem exec_pwrite_one :
    exec (.pwrite 1) s = .next (s.setPlaced (BitGrid.set s.grid.mod s.cursor.py s.cursor.col (s.arg0.getLsbD 0))
      (s.cursor.step s.grid.dim s.grid.asg)).succeed :=
  exec_pwrite (hs.gvalid_of_active hact) (ne_idle_of_active hact) (by decide) (by decide) (hs.one_le_modulesLeft hact)

/-- PREAD 1 reads the module under the cursor (R279). -/
theorem exec_pread_one :
    exec (.pread 1) s = .next ((s.setCursor (s.cursor.step s.grid.dim s.grid.asg)).setResult
      (bitsToWord [s.modAt s.cursor.py s.cursor.col])).succeed :=
  exec_pread (hs.gvalid_of_active hact) (ne_idle_of_active hact) (by decide) (by decide) (hs.one_le_modulesLeft hact)

end

/-- From an ACTIVE cursor `step()` goes to the next assignable module of the raw walk, or is DONE (R275). -/
theorem Cursor.ActiveAt.step_next {d : Nat} (hd : IsSide d) {asg : BitGrid} {c : Cursor} {n : Nat} (h : c.ActiveAt d asg n) :
    (c.step d asg).pstate = .done ∨ (c.step d asg).pstate = .active
      ∧ ∃ k x, 0 < k ∧ rawWalk d k c = some x ∧ BitGrid.get asg x.py x.col = true
        ∧ (c.step d asg).py = x.py ∧ (c.step d asg).px = x.px ∧ (c.step d asg).pup = x.pup ∧ (c.step d asg).pside = x.pside
        ∧ ∀ j y, 0 < j → j < k → rawWalk d j c = some y → BitGrid.get asg y.py y.col = false := by
  have ⟨hn, hc, _, _⟩ := h
  obtain ⟨-, -, ⟨m, hnm, hbetween, ⟨hm, -, hactive, hasg⟩, hstep⟩ | ⟨hdone, -⟩⟩ := h.step hd
  · refine .inr ⟨hactive, m - n, rawAt d c m, by omega, ?_, hasg, ?_⟩
    · conv_lhs => rw [hc]
      exact rawWalk_rawAt_sub hd hnm.le hm
    · rw [hstep]
      refine ⟨rfl, rfl, rfl, rfl, fun j y hj hjm hy => ?_⟩
      obtain ⟨-, hon⟩ := onAssignable_of_rawWalk_rawAt hd (asg := asg) hn (hc ▸ hy)
      exact hon.trans (hbetween _ (by omega) (by omega))
  · exact .inl hdone

theorem bitsToWord_singleton (b : Bool) : bitsToWord [b] = BitVec.ofNat 32 b.toNat := by cases b <;> rfl

theorem wordBits_one_bitsToWord (b : Bool) : wordBits 1 (bitsToWord [b]) = [b] := by cases b <;> rfl

theorem getLsbD_zero_ofNat_toNat (b : Bool) : (BitVec.ofNat 32 b.toNat).getLsbD 0 = b := by cases b <;> rfl

/-! ## One bit and the rest -/

theorem Streams.set_set (ss : Streams) (a : StreamId) (x y : Stream) : (ss.set a x).set a y = ss.set a y := by cases a <;> rfl

section
variable {s t u : State} {n : BitVec 6} {a : StreamId} (hs : s.PlacementWf) (hact : s.cursor.pstate = .active)
include hs hact

/-- PWRITE bit by bit (R278). -/
theorem exec_pwrite_split (hn : 2 ≤ n.toNat) (ht : exec (.pwrite n) s = .next t) (hok : t.status.lastErr = .ok)
    (hu : exec (.pwrite 1) { s with arg0 := s.arg0 >>> (n.toNat - 1) } = .next u) :
    ∃ v, exec (.pwrite (n - 1)) { u with arg0 := s.arg0 } = .next v ∧ v.status.lastErr = .ok ∧ v.grid = t.grid
      ∧ v.cursor = t.cursor := by
  obtain ⟨hv, hi, h1, h8, hleft⟩ := exec_pwrite_checks ht hok
  obtain ⟨hi', -⟩ := hs.step_of_active hact
  obtain rfl := Host.Outcome.next.inj (ht.symm.trans (exec_pwrite hv hi h1 h8 hleft))
  obtain rfl := Host.Outcome.next.inj (hu.symm.trans (exec_pwrite_one (s := s.setArg0 _) hs hact))
  have hsub : n.toNat = (n - 1).toNat + 1 := by bv_omega
  have hrest : placeBits s.grid.dim s.grid.asg (wordBits n.toNat s.arg0) s.grid.mod s.cursor
      = placeBits s.grid.dim s.grid.asg (wordBits (n - 1).toNat s.arg0)
        (BitGrid.set s.grid.mod s.cursor.py s.cursor.col ((s.arg0 >>> (n.toNat - 1)).getLsbD 0))
        (s.cursor.step s.grid.dim s.grid.asg) := by
    rw [hsub, wordBits_succ, Nat.add_sub_cancel]
    rfl
  refine ⟨_, exec_pwrite hv hi' (by omega) (by omega) (hs.le_remaining_step hact hsub hleft), rfl, ?_, ?_⟩
  · exact congrArg (fun p => { s.grid with mod := p.1 }) hrest.symm
  · exact congrArg Prod.snd hrest.symm

/-- PREAD bit by bit (R279). -/
theorem exec_pread_split (hn : 2 ≤ n.toNat) (ht : exec (.pread n) s = .next t) (hok : t.status.lastErr = .ok)
    (hu : exec (.pread 1) s = .next u) :
    ∃ v, exec (.pread (n - 1)) u = .next v ∧ v.status.lastErr = .ok ∧ v.cursor = t.cursor
      ∧ t.result = (u.result <<< (n.toNat - 1)) ||| v.result := by
  obtain ⟨hv, hi, h1, h8, hleft⟩ := exec_pread_checks ht hok
  obtain ⟨hi', -⟩ := hs.step_of_active hact
  obtain rfl := Host.Outcome.next.inj (ht.symm.trans (exec_pread hv hi h1 h8 hleft))
  obtain rfl := Host.Outcome.next.inj (hu.symm.trans (exec_pread_one hs hact))
  have hsub : n.toNat = (n - 1).toNat + 1 := by bv_omega
  have hlen := pickBits_length s.grid.dim s.grid.asg s.grid.mod (n - 1).toNat (s.cursor.step s.grid.dim s.grid.asg)
  refine ⟨_, exec_pread hv hi' (by omega) (by omega) (hs.le_remaining_step hact hsub hleft), rfl, ?_, ?_⟩
  · rw [hsub]
    rfl
  · have hword := bitsToWord_cons (s.modAt s.cursor.py s.cursor.col) (hlen.trans_lt (by omega))
    rw [hlen] at hword
    rw [hsub]
    exact hword

/-- PSTORE of one bit less from a state after the first bit ends as PSTORE does (R280). -/
theorem exec_pstore_rest {s' : State} (h0 : 0 < s.arg0.toNat) (ht : exec (.pstore a) s = .next t) (hok : t.status.lastErr = .ok)
    (hgrid : s'.grid = { s.grid with
      mod := BitGrid.set s.grid.mod s.cursor.py s.cursor.col ((s.stream a).bitAt (s.stream a).pos) })
    (hcursor : s'.cursor = s.cursor.step s.grid.dim s.grid.asg) (hstreams : s'.streams = s.streams.set a ((s.stream a).advance 1))
    (harg : s'.arg0 = s.arg0 - 1) :
    ∃ v, exec (.pstore a) s' = .next v ∧ v.status.lastErr = .ok ∧ v.grid = t.grid ∧ v.cursor = t.cursor
      ∧ v.streams = t.streams := by
  obtain ⟨hv, hi, hleft, hbits⟩ := exec_pstore_checks ht hok
  obtain ⟨hi', -⟩ := hs.step_of_active hact
  obtain rfl := Host.Outcome.next.inj (ht.symm.trans (exec_pstore hv hi hleft hbits))
  have hsub : s.arg0.toNat = s'.arg0.toNat + 1 := by rw [harg]; bv_omega
  have hst : s'.stream a = (s.stream a).advance 1 := by rw [State.stream, hstreams, Streams.get_set_same]
  have hv' : s'.grid.gvalid = true := by rw [hgrid]; exact hv
  have hlater : s'.arg0.toNat ≤ s'.modulesLeft := by
    rw [State.modulesLeft, hgrid, hcursor]
    exact hs.le_remaining_step hact hsub hleft
  have hbits' : s'.arg0.toNat ≤ (s'.stream a).remaining := by
    rw [hst, Stream.remaining, Stream.advance_count, Stream.advance_pos]
    rw [Stream.remaining] at hbits
    omega
  have hplace : placeBits s'.grid.dim s'.grid.asg ((s'.stream a).next s'.arg0.toNat) s'.grid.mod s'.cursor
      = placeBits s.grid.dim s.grid.asg ((s.stream a).next s.arg0.toNat) s.grid.mod s.cursor := by
    rw [hsub, Stream.next_succ (hsub ▸ hbits), hst, hgrid, hcursor]
    rfl
  refine ⟨_, exec_pstore hv' (hcursor ▸ hi') hlater hbits', rfl, ?_, ?_, ?_⟩
  · rw [State.succeed_grid, State.setPlaced_grid, hplace, State.setStream_grid, hgrid]
    rfl
  · exact congrArg Prod.snd hplace
  · calc s'.streams.set a ((s'.stream a).advance s'.arg0.toNat)
        = s.streams.set a (((s.stream a).advance 1).advance s'.arg0.toNat) := by rw [hst, hstreams, Streams.set_set]
      _ = s.streams.set a ((s.stream a).advance s.arg0.toNat) := by rw [Stream.advance_advance, hsub, Nat.add_comm]

/-- PLOAD of one bit less from a state after the first bit ends as PLOAD does (R281). -/
theorem exec_pload_rest {s' : State} (h0 : 0 < s.arg0.toNat) (ht : exec (.pload a) s = .next t) (hok : t.status.lastErr = .ok)
    (hgrid : s'.grid = s.grid) (hcursor : s'.cursor = s.cursor.step s.grid.dim s.grid.asg)
    (hstreams : s'.streams = s.streams.set a ((s.stream a).put [s.modAt s.cursor.py s.cursor.col])) (harg : s'.arg0 = s.arg0 - 1) :
    ∃ v, exec (.pload a) s' = .next v ∧ v.status.lastErr = .ok ∧ v.cursor = t.cursor ∧ v.streams = t.streams := by
  obtain ⟨hv, hi, hleft, hroom⟩ := exec_pload_checks ht hok h0
  obtain ⟨hi', -⟩ := hs.step_of_active hact
  obtain rfl := Host.Outcome.next.inj (ht.symm.trans (exec_pload hv hi hleft h0 hroom))
  have hsub : s.arg0.toNat = s'.arg0.toNat + 1 := by rw [harg]; bv_omega
  have hst : s'.stream a = (s.stream a).put [s.modAt s.cursor.py s.cursor.col] := by
    rw [State.stream, hstreams, Streams.get_set_same]
  have hlater : s'.arg0.toNat ≤ s'.modulesLeft := by
    rw [State.modulesLeft, hgrid, hcursor]
    exact hs.le_remaining_step hact hsub hleft
  have hroom' : (s'.stream a).pos + s'.arg0.toNat ≤ 32768 := by
    rw [hst, Stream.put_pos, List.length_singleton]
    omega
  have hpick : pickBits s.grid.dim s.grid.asg s.grid.mod s.arg0.toNat s.cursor
      = (s.modAt s.cursor.py s.cursor.col :: (pickBits s'.grid.dim s'.grid.asg s'.grid.mod s'.arg0.toNat s'.cursor).1,
        (pickBits s'.grid.dim s'.grid.asg s'.grid.mod s'.arg0.toNat s'.cursor).2) := by
    rw [hsub, hgrid, hcursor]
    rfl
  rw [State.succeed_cursor, State.setCursor_cursor, State.succeed_streams, State.setCursor_streams, State.setStream_streams, hpick]
  obtain hzero | hpos := Nat.eq_zero_or_pos s'.arg0.toNat
  · refine ⟨_, exec_pload_zero (hgrid ▸ hv) (hcursor ▸ hi') hlater hzero, rfl, ?_, ?_⟩
    · rw [hzero]
      rfl
    · rw [hzero]
      exact hstreams
  · refine ⟨_, exec_pload (hgrid ▸ hv) (hcursor ▸ hi') hlater hpos hroom', rfl, rfl, ?_⟩
    rw [State.succeed_streams, State.setCursor_streams, State.setStream_streams, hst, hstreams, Streams.set_set, Stream.put_put]
    rfl

end

/-- Settles O52: PWRITE 1 and PREAD 1 at the cursor, and each transfer split after its first bit. -/
theorem placementMovesBitByBit : Obligations.PlacementMovesBitByBit := by
  intro n s hs hact _
  have hd := hs.gridWf.isSide (hs.gvalid_of_active hact)
  obtain ⟨m, hm⟩ := hs.activeAt hact
  refine ⟨⟨_, exec_pwrite_one hs hact, ⟨rfl, rfl⟩, ?_, ?_, _, exec_pread_one hs hact, ⟨rfl, rfl⟩, rfl, bitsToWord_singleton _,
    hm.step_next hd⟩, fun t u => exec_pwrite_split hs hact, fun t u => exec_pread_split hs hact, fun a t u h0 ht hok hu => ?_,
    fun a t u w _ h0 ht hok hu hw => ?_⟩
  · exact BitGrid.get_set_same hs.gridWf.mod_square (hm.py_lt hd) (hm.col_lt hd) _
  · exact fun r c hne => BitGrid.get_set_ne _ _ hne
  · obtain rfl := Host.Outcome.next.inj (hu.symm.trans (exec_pwrite_one (s := s.setArg0 _) hs hact))
    refine exec_pstore_rest hs hact h0 ht hok ?_ rfl rfl rfl
    exact congrArg (fun b => { s.grid with mod := BitGrid.set s.grid.mod s.cursor.py s.cursor.col b }) (getLsbD_zero_ofNat_toNat _)
  · obtain rfl := Host.Outcome.next.inj (hu.symm.trans (exec_pread_one hs hact))
    obtain ⟨-, -, -, hroom⟩ := exec_pload_checks ht hok h0
    have hroom' : (s.stream a).pos + 1 ≤ 32768 := by omega
    obtain rfl := Host.Outcome.next.inj (hw.symm.trans (exec_swrite (by decide) hroom'))
    refine exec_pload_rest hs hact h0 ht hok rfl rfl ?_ rfl
    exact congrArg (fun bs => s.streams.set a ((s.stream a).put bs)) (wordBits_one_bitsToWord _)

end Sys2Proof.Machine
end

section
/-! SUPPORT. The reserved region as a set of modules (44_grid_layout.md R261-R266): what each region's test says of a module of the grid. -/

namespace Sys2Proof.Machine

theorem inRange_iff {lo hi x : Nat} : inRange lo hi x = true ↔ lo ≤ x ∧ x ≤ hi := by
  rw [inRange, Bool.and_eq_true, decide_eq_true_iff, decide_eq_true_iff]

theorem nearCentre_iff {a x : Nat} : nearCentre a x = true ↔ a ≤ x + 2 ∧ x ≤ a + 2 := by
  rw [nearCentre, Bool.and_eq_true, decide_eq_true_iff, decide_eq_true_iff]

theorem atFinder_eq_false_iff {n i j : Nat} :
    atFinder n i j = false ↔ ¬(i = 0 ∧ j = 0) ∧ ¬(i = 0 ∧ j = n - 1) ∧ ¬(i = n - 1 ∧ j = 0) := by
  simp [atFinder, and_assoc]

section
variable {d r c : Nat} (hr : r < d) (hc : c < d)
include hr hc

theorem finderRegion_iff :
    finderRegion d r c = true ↔ (r ≤ 7 ∧ c ≤ 7) ∨ (r ≤ 7 ∧ d - 8 ≤ c) ∨ (d - 8 ≤ r ∧ c ≤ 7) := by
  simp only [finderRegion, Bool.or_eq_true, Bool.and_eq_true, inRange_iff]
  omega

theorem formatRegion_iff :
    formatRegion d r c = true ↔ (r = 8 ∧ (c ≤ 8 ∨ d - 8 ≤ c)) ∨ (c = 8 ∧ (r ≤ 8 ∨ d - 8 ≤ r)) := by
  simp only [formatRegion, Bool.or_eq_true, Bool.and_eq_true, inRange_iff, beq_iff_eq]
  omega

end

theorem timingRegion_iff {r c : Nat} : timingRegion r c = true ↔ r = 6 ∨ c = 6 := by
  rw [timingRegion, Bool.or_eq_true, beq_iff_eq, beq_iff_eq]

theorem versionRegion_iff {v d r c : Nat} :
    versionRegion v d r c = true ↔
      7 ≤ v ∧ ((r ≤ 5 ∧ d - 11 ≤ c ∧ c ≤ d - 9) ∨ (d - 11 ≤ r ∧ r ≤ d - 9 ∧ c ≤ 5)) := by
  simp [versionRegion, inRange_iff, and_assoc]

theorem alignRegion_iff {A : List Nat} {r c : Nat} :
    alignRegion A r c = true ↔ ∃ i j, i < A.length ∧ j < A.length
      ∧ ¬(i = 0 ∧ j = 0) ∧ ¬(i = 0 ∧ j = A.length - 1) ∧ ¬(i = A.length - 1 ∧ j = 0)
      ∧ A.getD i 0 ≤ r + 2 ∧ r ≤ A.getD i 0 + 2 ∧ A.getD j 0 ≤ c + 2 ∧ c ≤ A.getD j 0 + 2 := by
  simp only [alignRegion, List.any_eq_true, List.mem_range, Bool.and_eq_true, Bool.not_eq_true', nearCentre_iff, atFinder_eq_false_iff]
  constructor
  · rintro ⟨i, hi, ⟨h1, h2⟩, j, hj, ⟨h3, h4⟩, n1, n2, n3⟩
    exact ⟨i, j, hi, hj, n1, n2, n3, h1, h2, h3, h4⟩
  · rintro ⟨i, j, hi, hj, n1, n2, n3, h1, h2, h3, h4⟩
    exact ⟨i, hi, ⟨h1, h2⟩, j, hj, ⟨h3, h4⟩, n1, n2, n3⟩

theorem reserved_iff {A : List Nat} {v r c : Nat} :
    reserved A v r c = true ↔ finderRegion (Config.dimOf v) r c = true ∨ timingRegion r c = true
      ∨ formatRegion (Config.dimOf v) r c = true ∨ versionRegion v (Config.dimOf v) r c = true ∨ alignRegion A r c = true := by
  rw [reserved, Bool.or_eq_true, Bool.or_eq_true, Bool.or_eq_true, Bool.or_eq_true, or_assoc, or_assoc, or_assoc]

/-- Settles O43: `reserved` is the disjunction of the five tests, each as its lemma says. -/
theorem reservedIsUnionOfRegions : Obligations.ReservedIsUnionOfRegions := by
  intro A v r c _ _ D hr hc
  rw [reserved_iff, finderRegion_iff (d := Config.dimOf v) hr hc, timingRegion_iff, formatRegion_iff (d := Config.dimOf v) hr hc,
    versionRegion_iff, alignRegion_iff]
  simp only [or_assoc]
  rfl

end Sys2Proof.Machine
end

section
/-! SUPPORT. The number of modules of the traversal of a blank grid (44_grid_layout.md R276). The modules clear of the finder, timing and
format regions are three blocks. The version blocks and the alignment squares, without row and column 6, lie in these blocks and do not
meet, and the modules that are left are the traversal's. -/

namespace Sys2Proof.Machine

open Finset

/-! ## Centres that keep a distance -/

/-- The centres of a version that has any: at least 7 apart, from 6 to DIM-7 (R260, I1). -/
structure WellSpaced (d : Nat) (A : List Nat) : Prop where
  apart : A.Pairwise fun a b => a + 7 ≤ b
  head : A.head? = some 6
  last : A.getLast? = some (d - 7)

theorem defaultAlignTable_apart : ∀ v ≤ 40, (alignPos defaultAlignTable v).Pairwise fun a b => a + 7 ≤ b := by
  decide

theorem defaultAlignTable_wellSpaced {v : Nat} (h2 : 2 ≤ v) (h40 : v ≤ 40) :
    WellSpaced (Config.dimOf v) (alignPos defaultAlignTable v) := by
  obtain ⟨-, -, hends⟩ := defaultAlignTable_row v h40 (by omega)
  obtain ⟨hhead, hlast⟩ := hends h2
  exact ⟨defaultAlignTable_apart v h40, hhead, hlast⟩

/-- The rows (or columns) within 2 of a centre. -/
def centreBand (A : List Nat) : Finset Nat := A.toFinset.biUnion fun a => Icc (a - 2) (a + 2)

theorem mem_centreBand {A : List Nat} {x : Nat} : x ∈ centreBand A ↔ ∃ a ∈ A, a ≤ x + 2 ∧ x ≤ a + 2 := by
  simp only [centreBand, mem_biUnion, List.mem_toFinset, mem_Icc, Nat.sub_le_iff_le_add]

section
variable {d : Nat} {A : List Nat} (hA : WellSpaced d A)
include hA

theorem WellSpaced.six_mem : 6 ∈ A := List.mem_of_head? hA.head

theorem WellSpaced.last_mem : d - 7 ∈ A := List.mem_of_getLast? hA.last

/-- A centre but the first is at least 13. -/
theorem WellSpaced.eq_six_or {a : Nat} (ha : a ∈ A) : a = 6 ∨ 13 ≤ a := by
  obtain ⟨as, rfl⟩ := List.head?_eq_some_iff.mp hA.head
  obtain ⟨hfirst, -⟩ := List.pairwise_cons.mp hA.apart
  obtain rfl | ha := List.mem_cons.mp ha
  · exact .inl rfl
  · exact .inr (hfirst a ha)

/-- A centre but the last is at most DIM-14. -/
theorem WellSpaced.eq_last_or {a : Nat} (ha : a ∈ A) : a = d - 7 ∨ a + 7 ≤ d - 7 := by
  obtain ⟨as, rfl⟩ := List.getLast?_eq_some_iff.mp hA.last
  obtain ⟨-, -, hbefore⟩ := List.pairwise_append.mp hA.apart
  obtain ha | ha := List.mem_append.mp ha
  · exact .inr (hbefore a ha _ (List.mem_singleton_self _))
  · exact .inl (List.mem_singleton.mp ha)

/-- Where the band is: around the first centre, around the last, or between them. -/
theorem WellSpaced.band_cases {x : Nat} (hx : x ∈ centreBand A) :
    (4 ≤ x ∧ x ≤ 8) ∨ (d - 9 ≤ x ∧ x ≤ d - 5) ∨ (11 ≤ x ∧ x + 5 ≤ d - 7) := by
  obtain ⟨a, ha, h1, h2⟩ := mem_centreBand.mp hx
  obtain h6 | h6 := hA.eq_six_or ha
  · omega
  · obtain hl | hl := hA.eq_last_or ha <;> omega

theorem WellSpaced.nodup : A.Nodup := hA.apart.imp fun {a b} h => by omega

/-- Around the first centre there is no other. -/
theorem WellSpaced.near_first_iff {a x : Nat} (ha : a ∈ A) (hx : a ≤ x + 2 ∧ x ≤ a + 2) : (4 ≤ x ∧ x ≤ 8) ↔ a = 6 := by
  obtain h | h := hA.eq_six_or ha <;> omega

/-- Around the last centre there is no other. -/
theorem WellSpaced.near_last_iff (hd : 21 ≤ d) {a x : Nat} (ha : a ∈ A) (hx : a ≤ x + 2 ∧ x ≤ a + 2) :
    (d - 9 ≤ x ∧ x ≤ d - 5) ↔ a = d - 7 := by
  obtain h | h := hA.eq_last_or ha <;> omega

theorem WellSpaced.getElem_eq_six_iff {i : Nat} (hi : i < A.length) : A[i] = 6 ↔ i = 0 := by
  have hfirst := hA.head
  rw [List.head?_eq_getElem?] at hfirst
  obtain ⟨h0, he⟩ := List.getElem?_eq_some_iff.mp hfirst
  rw [← he, hA.nodup.getElem_inj_iff]

theorem WellSpaced.getElem_eq_last_iff {i : Nat} (hi : i < A.length) : A[i] = d - 7 ↔ i = A.length - 1 := by
  have hlast := hA.last
  rw [List.getLast?_eq_getElem?] at hlast
  obtain ⟨h0, he⟩ := List.getElem?_eq_some_iff.mp hlast
  rw [← he, hA.nodup.getElem_inj_iff]

/-- The band has 5 rows for each centre. -/
theorem WellSpaced.card_centreBand : (centreBand A).card = 5 * A.length := by
  have hdisj : (A.toFinset : Set Nat).PairwiseDisjoint fun a => Icc (a - 2) (a + 2) :=
    (List.pairwiseDisjoint_iff_coe_toFinset_pairwise_disjoint hA.nodup).mpr <| hA.apart.imp fun {a b} h =>
      disjoint_left.mpr fun x hxa hxb => by rw [mem_Icc] at hxa hxb; omega
  have hfive : ∀ a ∈ A.toFinset, (Icc (a - 2) (a + 2)).card = 5 := by
    intro a ha
    obtain h6 | h6 := hA.eq_six_or (List.mem_toFinset.mp ha) <;> (rw [Nat.card_Icc]; omega)
  rw [centreBand, card_biUnion hdisj, sum_const_nat hfive, List.toFinset_card_of_nodup hA.nodup, Nat.mul_comm]

end

theorem freeCount_eq_card (d : Nat) (asg : BitGrid) :
    freeCount d asg = ((range d ×ˢ range d).filter fun p => p.2 ≠ 6 ∧ BitGrid.get asg p.1 p.2 = true).card := by
  rw [card_filter, sum_product, freeCount]
  refine congrArg List.sum (List.map_congr_left fun r _ => ?_)
  rw [← card_filter, ← Nat.count_eq_card_filter_range]
  exact List.countP_congr fun c _ => by rw [Bool.and_eq_true, decide_eq_true_iff, decide_eq_true_iff]

/-! ## The three blocks clear of the finder, timing and format regions (R261-R263) -/

/-- Right of the top-left finder, below it, and right of the bottom-left finder. -/
def clearModules (d : Nat) : Finset (Nat × Nat) :=
  (range 9).erase 6 ×ˢ Ico 9 (d - 8) ∪ Ico 9 (d - 8) ×ˢ (range d).erase 6 ∪ Ico (d - 8) d ×ˢ Ico 9 d

theorem mem_clearModules {d r c : Nat} (hd : 21 ≤ d) (hr : r < d) (hc : c < d) :
    (r, c) ∈ clearModules d ↔ ¬ finderRegion d r c = true ∧ ¬ timingRegion r c = true ∧ ¬ formatRegion d r c = true := by
  rw [finderRegion_iff hr hc, timingRegion_iff, formatRegion_iff hr hc]
  simp only [clearModules, mem_union, mem_product, mem_erase, mem_range, mem_Ico]
  omega

theorem lt_of_mem_clearModules {d r c : Nat} (hd : 21 ≤ d) (h : (r, c) ∈ clearModules d) : r < d ∧ c < d := by
  simp only [clearModules, mem_union, mem_product, mem_erase, mem_range, mem_Ico] at h
  omega

theorem card_clearModules {d : Nat} (hd : 21 ≤ d) :
    (clearModules d).card = 8 * (d - 17) + (d - 17) * (d - 1) + 8 * (d - 9) := by
  have h6 : 6 ∈ range d := mem_range.mpr (by omega)
  have hupper : Disjoint ((range 9).erase 6 ×ˢ Ico 9 (d - 8)) (Ico 9 (d - 8) ×ˢ (range d).erase 6) := by
    refine disjoint_left.mpr fun p hp hp' => ?_
    simp only [mem_product, mem_erase, mem_range, mem_Ico] at hp hp'
    omega
  have hlower : Disjoint ((range 9).erase 6 ×ˢ Ico 9 (d - 8) ∪ Ico 9 (d - 8) ×ˢ (range d).erase 6) (Ico (d - 8) d ×ˢ Ico 9 d) := by
    refine disjoint_left.mpr fun p hp hp' => ?_
    simp only [mem_union, mem_product, mem_erase, mem_range, mem_Ico] at hp hp'
    omega
  rw [clearModules, card_union_of_disjoint hlower, card_union_of_disjoint hupper, card_product, card_product, card_product,
    card_erase_of_mem h6, card_range, Nat.card_Ico, Nat.card_Ico, Nat.card_Ico, Nat.sub_sub, Nat.sub_sub_self (by omega)]
  rfl

/-! ## The version blocks (R264) -/

/-- The two version blocks, empty below version 7. -/
def versionModules (v d : Nat) : Finset (Nat × Nat) :=
  if 7 ≤ v then range 6 ×ˢ Ico (d - 11) (d - 8) ∪ Ico (d - 11) (d - 8) ×ˢ range 6 else ∅

theorem mem_versionModules {v d r c : Nat} (hd : 21 ≤ d) : (r, c) ∈ versionModules v d ↔ versionRegion v d r c = true := by
  rw [versionRegion_iff, versionModules]
  split
  · simp only [mem_union, mem_product, mem_range, mem_Ico]
    omega
  · exact iff_of_false (notMem_empty _) fun h => by omega

theorem card_versionModules (v : Nat) {d : Nat} (hd : 21 ≤ d) : (versionModules v d).card = if 7 ≤ v then 36 else 0 := by
  have hdisj : Disjoint (range 6 ×ˢ Ico (d - 11) (d - 8)) (Ico (d - 11) (d - 8) ×ˢ range 6) := by
    refine disjoint_left.mpr fun p hp hp' => ?_
    simp only [mem_product, mem_range, mem_Ico] at hp hp'
    omega
  have hthree : d - 8 - (d - 11) = 3 := by omega
  rw [versionModules]
  split
  · rw [card_union_of_disjoint hdisj, card_product, card_product, card_range, Nat.card_Ico, hthree]
  · rfl

theorem versionModules_subset {v d : Nat} (hd : 21 ≤ d) : versionModules v d ⊆ clearModules d := by
  rintro ⟨r, c⟩ hp
  rw [mem_versionModules hd, versionRegion_iff] at hp
  simp only [clearModules, mem_union, mem_product, mem_erase, mem_range, mem_Ico]
  omega

/-! ## The alignment squares without row and column 6 (R265) -/

/-- The three squares at the finder corners, without row and column 6. -/
def cornerModules (d : Nat) : Finset (Nat × Nat) :=
  (Icc 4 8).erase 6 ×ˢ (Icc 4 8).erase 6 ∪ (Icc 4 8).erase 6 ×ˢ Icc (d - 9) (d - 5) ∪ Icc (d - 9) (d - 5) ×ˢ (Icc 4 8).erase 6

/-- All squares but the three. -/
def alignModules (d : Nat) (A : List Nat) : Finset (Nat × Nat) :=
  (centreBand A).erase 6 ×ˢ (centreBand A).erase 6 \ cornerModules d

theorem card_cornerModules {d : Nat} (hd : 21 ≤ d) : (cornerModules d).card = 56 := by
  have hright : Disjoint ((Icc 4 8).erase 6 ×ˢ (Icc 4 8).erase 6) ((Icc 4 8).erase 6 ×ˢ Icc (d - 9) (d - 5)) := by
    refine disjoint_left.mpr fun p hp hp' => ?_
    simp only [mem_product, mem_erase, mem_Icc] at hp hp'
    omega
  have hbelow : Disjoint ((Icc 4 8).erase 6 ×ˢ (Icc 4 8).erase 6 ∪ (Icc 4 8).erase 6 ×ˢ Icc (d - 9) (d - 5))
      (Icc (d - 9) (d - 5) ×ˢ (Icc 4 8).erase 6) := by
    refine disjoint_left.mpr fun p hp hp' => ?_
    simp only [mem_union, mem_product, mem_erase, mem_Icc] at hp hp'
    omega
  have hfive : d - 5 + 1 - (d - 9) = 5 := by omega
  rw [cornerModules, card_union_of_disjoint hbelow, card_union_of_disjoint hright, card_product, card_product, card_product,
    Nat.card_Icc, hfive]
  rfl

section
variable {d : Nat} {A : List Nat} (hd : 21 ≤ d) (hA : WellSpaced d A)
include hd hA

theorem WellSpaced.cornerModules_subset : cornerModules d ⊆ (centreBand A).erase 6 ×ˢ (centreBand A).erase 6 := by
  have hfirst {x : Nat} (h : 4 ≤ x ∧ x ≤ 8) : x ∈ centreBand A := mem_centreBand.mpr ⟨6, hA.six_mem, by omega⟩
  have hlast {x : Nat} (h : d - 9 ≤ x ∧ x ≤ d - 5) : x ∈ centreBand A := mem_centreBand.mpr ⟨d - 7, hA.last_mem, by omega⟩
  have hne {x : Nat} (h : d - 9 ≤ x ∧ x ≤ d - 5) : x ≠ 6 := by omega
  rintro ⟨r, c⟩ hp
  simp only [cornerModules, mem_union, mem_product, mem_erase, mem_Icc] at hp
  rw [mem_product, mem_erase, mem_erase]
  obtain (⟨⟨hr6, hr⟩, hc6, hc⟩ | ⟨⟨hr6, hr⟩, hc⟩) | ⟨hr, hc6, hc⟩ := hp
  · exact ⟨⟨hr6, hfirst hr⟩, hc6, hfirst hc⟩
  · exact ⟨⟨hr6, hfirst hr⟩, hne hc, hlast hc⟩
  · exact ⟨⟨hne hr, hlast hr⟩, hc6, hfirst hc⟩

theorem WellSpaced.card_alignModules : (alignModules d A).card + 56 = (5 * A.length - 1) * (5 * A.length - 1) := by
  have h6 : 6 ∈ centreBand A := mem_centreBand.mpr ⟨6, hA.six_mem, by decide, by decide⟩
  rw [alignModules, ← card_cornerModules hd, card_sdiff_add_card_eq_card (hA.cornerModules_subset hd), card_product,
    card_erase_of_mem h6, hA.card_centreBand]

/-- The squares that are no corner lie in the clear blocks, apart from the version blocks: beside the first centre they are between the
finders, beside the last right of the bottom-left finder, and else below and right of the top-left one. -/
theorem WellSpaced.alignModules_clear {v r c : Nat} (h : (r, c) ∈ alignModules d A) :
    (r, c) ∈ clearModules d ∧ (r, c) ∉ versionModules v d := by
  rw [alignModules, mem_sdiff, mem_product, mem_erase, mem_erase] at h
  obtain ⟨⟨⟨hr6, hr⟩, hc6, hc⟩, hcorner⟩ := h
  have hcol := hA.band_cases hc
  rw [mem_versionModules hd, versionRegion_iff]
  simp only [cornerModules, clearModules, mem_union, mem_product, mem_erase, mem_range, mem_Icc, mem_Ico] at hcorner ⊢
  obtain hrow | hrow | hrow := hA.band_cases hr
  · have hmid : 11 ≤ c ∧ c + 5 ≤ d - 7 := by omega
    omega
  · have hright : 9 ≤ c ∧ c < d := by omega
    omega
  · have hin : c < d := by omega
    omega

/-- A module in a square is in a corner square exactly when the square is one of the three. -/
theorem WellSpaced.mem_cornerModules {i j r c : Nat} (hi : i < A.length) (hj : j < A.length)
    (hr : A[i] ≤ r + 2 ∧ r ≤ A[i] + 2) (hc : A[j] ≤ c + 2 ∧ c ≤ A[j] + 2) (hr6 : r ≠ 6) (hc6 : c ≠ 6) :
    (r, c) ∈ cornerModules d ↔ (i = 0 ∧ j = 0) ∨ (i = 0 ∧ j = A.length - 1) ∨ (i = A.length - 1 ∧ j = 0) := by
  rw [← hA.getElem_eq_six_iff hi, ← hA.getElem_eq_six_iff hj, ← hA.getElem_eq_last_iff hi, ← hA.getElem_eq_last_iff hj,
    ← hA.near_first_iff (List.getElem_mem hi) hr, ← hA.near_first_iff (List.getElem_mem hj) hc,
    ← hA.near_last_iff hd (List.getElem_mem hi) hr, ← hA.near_last_iff hd (List.getElem_mem hj) hc]
  simp only [cornerModules, mem_union, mem_product, mem_erase, mem_Icc, ne_eq, hr6, hc6, not_false_eq_true, true_and, or_assoc]

/-- The squares that are no corner, without row and column 6, are the alignment region outside the timing region. -/
theorem WellSpaced.mem_alignModules {r c : Nat} :
    (r, c) ∈ alignModules d A ↔ alignRegion A r c = true ∧ ¬ timingRegion r c = true := by
  rw [alignRegion_iff, timingRegion_iff, not_or, alignModules, mem_sdiff, mem_product, mem_erase, mem_erase, mem_centreBand,
    mem_centreBand]
  constructor
  · rintro ⟨⟨⟨hr6, a, ha, hr⟩, hc6, b, hb, hc⟩, hcorner⟩
    obtain ⟨i, hi, rfl⟩ := List.getElem_of_mem ha
    obtain ⟨j, hj, rfl⟩ := List.getElem_of_mem hb
    rw [hA.mem_cornerModules hd hi hj hr hc hr6 hc6, not_or, not_or] at hcorner
    obtain ⟨h1, h2, h3⟩ := hcorner
    refine ⟨⟨i, j, hi, hj, h1, h2, h3, ?_⟩, hr6, hc6⟩
    rw [List.getD_eq_getElem _ _ hi, List.getD_eq_getElem _ _ hj]
    exact and_assoc.mp ⟨hr, hc⟩
  · rintro ⟨⟨i, j, hi, hj, h1, h2, h3, hnear⟩, hr6, hc6⟩
    rw [List.getD_eq_getElem _ _ hi, List.getD_eq_getElem _ _ hj] at hnear
    obtain ⟨hr, hc⟩ := and_assoc.mpr hnear
    refine ⟨⟨⟨hr6, _, List.getElem_mem hi, hr⟩, hc6, _, List.getElem_mem hj, hc⟩, ?_⟩
    rw [hA.mem_cornerModules hd hi hj hr hc hr6 hc6, not_or, not_or]
    exact ⟨h1, h2, h3⟩

end

/-! ## The modules that are left (R276) -/

section
variable {A : AlignTable} {v : Nat} (h1 : 1 ≤ v) {align : Finset (Nat × Nat)}
  (halign : ∀ {r c}, (r, c) ∈ align ↔ alignRegion (alignPos A v) r c = true ∧ ¬ timingRegion r c = true)
include h1 halign

/-- The assignable modules of a blank grid outside column 6 are the clear blocks without version blocks and alignment squares. -/
theorem blankGrid_assignable_eq :
    ((range (Config.dimOf v) ×ˢ range (Config.dimOf v)).filter fun p =>
        p.2 ≠ 6 ∧ BitGrid.get (blankGrid A v).asg p.1 p.2 = true)
      = clearModules (Config.dimOf v) \ (versionModules v (Config.dimOf v) ∪ align) := by
  have hd : 21 ≤ Config.dimOf v := (isSide_dimOf h1).2
  ext ⟨r, c⟩
  have hinside (hr : r < Config.dimOf v) (hc : c < Config.dimOf v) :
      c ≠ 6 ∧ BitGrid.get (blankGrid A v).asg r c = true
        ↔ (r, c) ∈ clearModules (Config.dimOf v) ∧ (r, c) ∉ versionModules v (Config.dimOf v) ∪ align := by
    have hcol : c = 6 → timingRegion r c = true := fun h => timingRegion_iff.mpr (.inr h)
    rw [blankGrid_get_asg A hr hc, Bool.not_eq_true', ← Bool.not_eq_true, reserved_iff, mem_clearModules hd hr hc, mem_union,
      mem_versionModules hd, halign]
    tauto
  rw [mem_filter, mem_product, mem_range, mem_range, mem_sdiff]
  constructor
  · rintro ⟨⟨hr, hc⟩, hfree⟩
    exact (hinside hr hc).mp hfree
  · intro hleft
    obtain ⟨hr, hc⟩ := lt_of_mem_clearModules hd hleft.1
    exact ⟨⟨hr, hc⟩, (hinside hr hc).mpr hleft⟩

/-- The count of the clear blocks is that of the traversal's modules, the alignment squares and the version blocks. -/
theorem freeCount_blankGrid_add
    (hclear : ∀ {r c}, (r, c) ∈ align → (r, c) ∈ clearModules (Config.dimOf v) ∧ (r, c) ∉ versionModules v (Config.dimOf v)) :
    freeCount (Config.dimOf v) (blankGrid A v).asg + align.card + (if 7 ≤ v then 36 else 0) = (16 * v + 128) * v + 64 := by
  have hd : 21 ≤ Config.dimOf v := (isSide_dimOf h1).2
  have hdisj : Disjoint (versionModules v (Config.dimOf v)) align :=
    disjoint_left.mpr fun _ hver hal => (hclear hal).2 hver
  have hsub : versionModules v (Config.dimOf v) ∪ align ⊆ clearModules (Config.dimOf v) :=
    union_subset (versionModules_subset hd) fun _ hal => (hclear hal).1
  have hcount := card_sdiff_add_card_eq_card hsub
  rw [← blankGrid_assignable_eq h1 halign, ← freeCount_eq_card, card_union_of_disjoint hdisj, card_versionModules v hd,
    card_clearModules hd] at hcount
  have htotal : 8 * (Config.dimOf v - 17) + (Config.dimOf v - 17) * (Config.dimOf v - 1) + 8 * (Config.dimOf v - 9)
      = (16 * v + 128) * v + 64 := by
    have h17 : Config.dimOf v - 17 = 4 * v := rfl
    have h9 : Config.dimOf v - 9 = 4 * v + 8 := rfl
    have hone : Config.dimOf v - 1 = 4 * v + 16 := rfl
    rw [h17, h9, hone]
    ring
  omega

end

/-- The squares of `m` bands, less the three corners, in the form of R276. -/
theorem eq_alignCount_of_add_corners {m k : Nat} (hm : 2 ≤ m) (h : k + 56 = (5 * m - 1) * (5 * m - 1)) : k = (25 * m - 10) * m - 55 := by
  obtain ⟨n, rfl⟩ := Nat.exists_eq_add_of_le hm
  have h1 : 5 * (2 + n) - 1 = 5 * n + 9 := by omega
  have h2 : 25 * (2 + n) - 10 = 25 * n + 40 := by omega
  rw [h1] at h
  rw [h2]
  ring_nf at h ⊢
  omega

theorem freeCount_blankGrid_default {v : Nat} (h1 : 1 ≤ v) (h40 : v ≤ 40) :
    freeCount (Config.dimOf v) (blankGrid defaultAlignTable v).asg
        + (if v = 1 then 0 else (25 * (v / 7 + 2) - 10) * (v / 7 + 2) - 55) + (if 7 ≤ v then 36 else 0)
      = (16 * v + 128) * v + 64 := by
  have hd : 21 ≤ Config.dimOf v := (isSide_dimOf h1).2
  by_cases hv : v = 1
  · subst hv
    have hcount := freeCount_blankGrid_add (A := defaultAlignTable) (align := ∅) h1
      (iff_of_false (notMem_empty _) fun h => Bool.false_ne_true h.1) fun h => absurd h (notMem_empty _)
    rw [if_pos rfl]
    rwa [card_empty] at hcount
  · have hA := defaultAlignTable_wellSpaced (v := v) (by omega) h40
    obtain ⟨hlen, -, -⟩ := defaultAlignTable_row v h40 h1
    rw [if_neg hv] at hlen ⊢
    have hcard := hA.card_alignModules hd
    rw [hlen] at hcard
    rw [← eq_alignCount_of_add_corners (Nat.le_add_left 2 _) hcard]
    exact freeCount_blankGrid_add h1 (hA.mem_alignModules hd) (hA.alignModules_clear hd)

/-- Settles O45: GINIT's cursor has all modules of the traversal before it, and their number under the default table is N(v). -/
theorem ginitGridHasSpecModuleCount : Obligations.GinitGridHasSpecModuleCount := by
  intro ib s t htable h1 h40 h v m
  obtain rfl := Host.Outcome.next.inj (h.symm.trans (exec_ginit_of_version h1 h40))
  obtain ⟨-, hleft, -⟩ := beginCursor_spec (isSide_dimOf h1) (blankGrid s.alignTable ib.toNat).asg
  rw [State.succeed_cursor, State.setCursor_cursor, State.succeed_grid, State.setCursor_grid, State.setGrid_grid]
  have hdefault : s.alignTable = defaultAlignTable := htable
  rw [hdefault] at hleft ⊢
  have hcount := freeCount_blankGrid_default h1 h40
  rwa [← hleft] at hcount

end Sys2Proof.Machine
end

section
/-! SUPPORT. The lines of a grid and the four penalties (45_mask.md R312-R316): the runs of a line are its maximal blocks of one colour, each
penalty has its formula, and each is bounded line by line. -/

namespace Sys2Proof.Machine

/-! ## The runs of a line (section 2) -/

section
variable {b : Bool} {runs : List (Bool × Nat)}

/-- Putting a module in front of runs puts it in front of their modules. -/
theorem flatMap_replicate_consRun (b : Bool) (runs : List (Bool × Nat)) :
    (consRun b runs).flatMap (fun r => List.replicate r.2 r.1) = b :: runs.flatMap fun r => List.replicate r.2 r.1 := by
  match runs with
  | [] => rfl
  | (x, n) :: rest =>
    rw [consRun]
    split
    · next heq => rw [← heq]; rfl
    · rfl

theorem consRun_pos (h : ∀ r ∈ runs, 1 ≤ r.2) : ∀ r ∈ consRun b runs, 1 ≤ r.2 := by
  match runs with
  | [] => exact List.forall_mem_singleton.mpr (le_refl 1)
  | (x, n) :: rest =>
    rw [consRun]
    split
    · exact List.forall_mem_cons.mpr ⟨Nat.le_add_left 1 n, (List.forall_mem_cons.mp h).2⟩
    · exact List.forall_mem_cons.mpr ⟨le_refl 1, h⟩

theorem consRun_alternates (h : runs.IsChain fun x y => x.1 ≠ y.1) : (consRun b runs).IsChain fun x y => x.1 ≠ y.1 := by
  match runs with
  | [] => exact List.isChain_singleton _
  | (x, n) :: rest =>
    rw [consRun]
    split
    · exact List.isChain_cons.mpr (List.isChain_cons.mp h)
    · next hne => exact List.isChain_cons_cons.mpr ⟨Ne.symm hne, h⟩

end

theorem lineRuns_cons (b : Bool) (l : List Bool) : lineRuns (b :: l) = consRun b (lineRuns l) := rfl

theorem flatMap_replicate_lineRuns (l : List Bool) : (lineRuns l).flatMap (fun r => List.replicate r.2 r.1) = l := by
  induction l with
  | nil => rfl
  | cons b l ih => rw [lineRuns_cons, flatMap_replicate_consRun, ih]

theorem lineRuns_pos (l : List Bool) : ∀ r ∈ lineRuns l, 1 ≤ r.2 := by
  induction l with
  | nil => exact nofun
  | cons b l ih => exact consRun_pos ih

theorem lineRuns_alternates (l : List Bool) : (lineRuns l).IsChain fun x y => x.1 ≠ y.1 := by
  induction l with
  | nil => exact .nil
  | cons b l ih => exact consRun_alternates ih

theorem sum_lineRuns_lengths (l : List Bool) : ((lineRuns l).map fun r => r.2).sum = l.length := by
  have h := congrArg List.length (flatMap_replicate_lineRuns l)
  simpa [List.length_flatMap] using h

/-! ## Penalties a and c of one line (R312, R314) -/

/-- Penalty a of the runs of a line: at most the line's length less 2. -/
theorem sum_runPenalty_le (runs : List (Bool × Nat)) :
    (runs.map fun r => runPenalty r.2).sum ≤ (runs.map fun r => r.2).sum - 2 := by
  induction runs with
  | nil => exact le_refl 0
  | cons r rest ih =>
    rw [List.map_cons, List.sum_cons, List.map_cons, List.sum_cons, runPenalty]
    split <;> omega

/-- R314's pattern without the check `1 ≤ u`, which every run of a line meets. -/
def finderShape : List (Bool × Nat) → Bool
  | (dark, u) :: (_, l1) :: (_, l2) :: (_, l3) :: (_, l4) :: _ => dark && l1 == u && l2 == 3 * u && l3 == u && l4 == u
  | _ => false

theorem finderAt_eq_finderShape {runs : List (Bool × Nat)} (h : ∀ r ∈ runs, 1 ≤ r.2) : finderAt runs = finderShape runs := by
  fun_cases finderAt runs with
  | case1 dark u =>
    have hu : 1 ≤ u := h _ List.mem_cons_self
    simp [finderShape, hu]
  | case2 _ hshort => exact (finderShape.eq_2 _ hshort).symm

/-- The recursion over the runs counts the places where the pattern begins. -/
theorem finderCount_eq_countP (runs : List (Bool × Nat)) :
    finderCount runs = (List.range runs.length).countP fun t => finderAt (runs.drop t) := by
  induction runs with
  | nil => rfl
  | cons r rest ih =>
    rw [finderCount, ih, List.length_cons, List.range_succ_eq_map, List.countP_cons, List.countP_map, Nat.add_comm]
    congr 1
    rw [List.drop_zero]
    cases finderAt (r :: rest) <;> rfl

theorem finderCount_lineRuns (l : List Bool) :
    finderCount (lineRuns l) = (List.range (lineRuns l).length).countP fun t => finderShape ((lineRuns l).drop t) := by
  rw [finderCount_eq_countP]
  refine congrArg (List.countP · _) (funext fun t => finderAt_eq_finderShape fun r hr => ?_)
  exact lineRuns_pos l r (List.mem_of_mem_drop hr)

/-- The runs where a pattern begins. -/
theorem finderAt_iff {runs : List (Bool × Nat)} : finderAt runs = true ↔ ∃ u c1 c2 c3 c4 rest, 1 ≤ u ∧
    runs = (true, u) :: (c1, u) :: (c2, 3 * u) :: (c3, u) :: (c4, u) :: rest := by
  constructor
  · intro h
    unfold finderAt at h
    split at h
    · next u c1 l1 c2 l2 c3 l3 c4 l4 rest =>
      simp only [Bool.and_eq_true, decide_eq_true_eq, beq_iff_eq] at h
      obtain ⟨⟨⟨⟨⟨rfl, hu⟩, rfl⟩, rfl⟩, rfl⟩, rfl⟩ := h
      exact ⟨_, _, _, _, _, _, hu, rfl⟩
    · nomatch h
  · rintro ⟨u, c1, c2, c3, c4, rest, hu, rfl⟩
    simp [finderAt, hu]

/-- No pattern begins at a light run (R314). -/
theorem finderCount_cons_of_light {u : Nat} {rest : List (Bool × Nat)} :
    finderCount ((false, u) :: rest) = finderCount rest := by
  have h : finderAt ((false, u) :: rest) = false := by
    rw [Bool.eq_false_iff, Ne, finderAt_iff]
    rintro ⟨v, c1, c2, c3, c4, rest', -, heq⟩
    nomatch heq
  rw [finderCount, h]
  exact Nat.zero_add _

/-- No pattern begins at the long run of another: the run after it is shorter. -/
theorem finderCount_cons_of_length_ne {r r' : Bool × Nat} {rest : List (Bool × Nat)} (h : r'.2 ≠ r.2) :
    finderCount (r :: r' :: rest) = finderCount (r' :: rest) := by
  have h : finderAt (r :: r' :: rest) = false := by
    rw [Bool.eq_false_iff, Ne, finderAt_iff]
    rintro ⟨v, c1, c2, c3, c4, rest', -, heq⟩
    cases heq
    exact h rfl
  rw [finderCount, h]
  exact Nat.zero_add _

/-- After a pattern the next one begins at its last run at the earliest, so each pattern takes 6 modules of its own. -/
theorem six_mul_finderCount_le (runs : List (Bool × Nat)) (h : runs.IsChain fun x y => x.1 ≠ y.1) :
    6 * finderCount runs ≤ (runs.map fun r => r.2).sum := by
  match runs with
  | [] => exact le_refl 0
  | r :: rest =>
    by_cases hf : finderAt (r :: rest) = true
    · obtain ⟨u, c1, c2, c3, c4, rest', hu, heq⟩ := finderAt_iff.mp hf
      obtain ⟨rfl, rfl⟩ := List.cons.inj heq
      simp only [List.isChain_cons_cons] at h
      obtain ⟨h01, h12, h23, h34, hrest⟩ := h
      obtain rfl : c1 = false := by simpa using h01
      obtain rfl : c2 = true := by simpa using h12
      obtain rfl : c3 = false := by simpa using h23
      have ih := six_mul_finderCount_le ((c4, u) :: rest') hrest
      have hcount : finderCount ((true, u) :: (false, u) :: (true, 3 * u) :: (false, u) :: (c4, u) :: rest')
          = 1 + finderCount ((c4, u) :: rest') := by
        rw [finderCount, hf, finderCount_cons_of_light, finderCount_cons_of_length_ne (by dsimp; omega), finderCount_cons_of_light]
        rfl
      rw [hcount]
      simp only [List.map_cons, List.sum_cons] at ih ⊢
      omega
    · have ih := six_mul_finderCount_le rest h.tail
      rw [finderCount, Bool.eq_false_iff.mpr hf, List.map_cons, List.sum_cons]
      simp only [Bool.toNat_false]
      omega
termination_by runs.length

/-! ## Sums over the lines of a grid -/

theorem sum_map_le_length_mul {α : Type} {l : List α} {f : α → Nat} {n : Nat} (h : ∀ x ∈ l, f x ≤ n) :
    (l.map f).sum ≤ l.length * n := by
  have hsum := List.sum_le_card_nsmul (l.map f) n (List.forall_mem_map.mpr h)
  rwa [List.length_map, smul_eq_mul] at hsum

variable (d : Nat) (g : BitGrid)

theorem gridLines_length : (gridLines d g).length = 2 * d := by
  simp [gridLines, Nat.two_mul]

theorem length_of_mem_gridLines {l : List Bool} (h : l ∈ gridLines d g) : l.length = d := by
  simp only [gridLines, List.mem_append, List.mem_map] at h
  obtain ⟨i, -, rfl⟩ | ⟨j, -, rfl⟩ := h
  · simp [rowLine]
  · simp [colLine]

theorem sum_gridLines_le {f : List Bool → Nat} {n : Nat} (h : ∀ l : List Bool, l.length = d → f l ≤ n) :
    ((gridLines d g).map f).sum ≤ 2 * d * n := by
  have hsum := sum_map_le_length_mul fun l hl => h l (length_of_mem_gridLines d g hl)
  rwa [gridLines_length] at hsum

/-! ## The bounds of the penalties and of the score (R316) -/

theorem penaltyA_le : penaltyA d g ≤ 2 * d * (d - 2) := by
  refine sum_gridLines_le d g fun l hl => ?_
  rw [← hl, ← sum_lineRuns_lengths l]
  exact sum_runPenalty_le (lineRuns l)

theorem penaltyB_le : penaltyB d g ≤ 3 * (d - 1) ^ 2 := by
  have hrow : ∀ i ∈ List.range (d - 1), (List.range (d - 1)).countP (fun j => uniformBlock g i j) ≤ d - 1 := fun i _ =>
    List.countP_le_length.trans_eq List.length_range
  have hsum := sum_map_le_length_mul hrow
  rw [List.length_range] at hsum
  rw [pow_two]
  exact Nat.mul_le_mul_left 3 hsum

theorem penaltyC_le : penaltyC d g ≤ 40 * (2 * d) * ((d + 5) / 6) := by
  have hline : ∀ l : List Bool, l.length = d → finderCount (lineRuns l) ≤ (d + 5) / 6 := fun l hl => by
    have h := six_mul_finderCount_le _ (lineRuns_alternates l)
    rw [sum_lineRuns_lengths, hl] at h
    omega
  rw [Nat.mul_assoc]
  exact Nat.mul_le_mul_left 40 (sum_gridLines_le d g hline)

theorem darkCount_le : darkCount d g ≤ d * d := by
  have hrow : ∀ i ∈ List.range d, (rowLine d g i).countP (fun b => b) ≤ d := fun i _ =>
    List.countP_le_length.trans_eq (by simp [rowLine])
  have hsum := sum_map_le_length_mul hrow
  rwa [List.length_range] at hsum

/-- `|20k - 10T|` of R315: twenty times how far the number of dark modules is from half of all. -/
def darkDeviation : Nat := ((20 * darkCount d g : Int) - 10 * (d * d)).natAbs

theorem penaltyD_eq : penaltyD d g = 10 * ((darkDeviation d g + d * d - 1) / (d * d)) := by
  rw [penaltyD, darkDeviation]
  push_cast
  rfl

theorem darkDeviation_le : darkDeviation d g ≤ 10 * (d * d) := by
  have h := darkCount_le d g
  rw [darkDeviation]
  omega

theorem penaltyD_le : penaltyD d g ≤ 100 := by
  have hdev := darkDeviation_le d g
  rw [penaltyD_eq]
  generalize d * d = t at *
  have hdiv : (darkDeviation d g + t - 1) / t ≤ 10 := by
    rcases Nat.eq_zero_or_pos t with rfl | ht
    · rw [Nat.div_zero]; exact Nat.zero_le _
    · exact Nat.lt_succ_iff.mp (Nat.div_lt_of_lt_mul (by omega))
  omega

/-- The rounding of R315 is up: pd / 10 is the least number of modules of the grid that covers the deviation. -/
theorem penaltyD_rounds_up (hd : 0 < d) :
    darkDeviation d g ≤ penaltyD d g / 10 * (d * d) ∧ penaltyD d g / 10 * (d * d) < darkDeviation d g + d * d := by
  have ht : 0 < d * d := Nat.mul_pos hd hd
  rw [penaltyD_eq, Nat.mul_div_cancel_left _ (by decide : 0 < 10)]
  have hle := Nat.div_mul_le_self (darkDeviation d g + d * d - 1) (d * d)
  have hlt := Nat.lt_div_mul_add (a := darkDeviation d g + d * d - 1) ht
  omega

theorem score_lt {d : Nat} (hd : d ≤ 177) (g : BitGrid) : score d g < 2 ^ 20 := by
  have hA : penaltyA d g ≤ 2 * 177 * 175 := (penaltyA_le d g).trans (Nat.mul_le_mul (by omega) (by omega))
  have hB : penaltyB d g ≤ 3 * 176 ^ 2 := (penaltyB_le d g).trans
    (Nat.mul_le_mul_left 3 (Nat.pow_le_pow_left (by omega) 2))
  have hC : penaltyC d g ≤ 40 * (2 * 177) * 30 := (penaltyC_le d g).trans (Nat.mul_le_mul (by omega) (by omega))
  have hD := penaltyD_le d g
  rw [score]
  omega

/-! ## The formulas of the penalties (R312-R315) -/

theorem runPenalty_eq (n : Nat) : runPenalty n = if n < 5 then 0 else n - 2 := by
  rw [runPenalty]
  split <;> split <;> omega

theorem penaltyA_eq :
    penaltyA d g = ((gridLines d g).map fun l => ((lineRuns l).map fun r => if r.2 < 5 then 0 else r.2 - 2).sum).sum := by
  simp only [penaltyA, runPenalty_eq]

theorem penaltyC_eq : penaltyC d g = 40 * ((gridLines d g).map fun l =>
    (List.range (lineRuns l).length).countP fun t => finderShape ((lineRuns l).drop t)).sum := by
  simp only [penaltyC, finderCount_lineRuns]

theorem darkCount_eq :
    darkCount d g = ((List.range d).map fun i => (List.range d).countP fun j => BitGrid.get g i j).sum := by
  simp only [darkCount, rowLine, List.countP_map]
  rfl

end Sys2Proof.Machine
end

section
/-! SUPPORT. The mask commands (45_mask.md R317-R319): the next state of each on a defined grid, masking as an involution, the scores of the
eight candidates, and what the commands leave unchanged. -/

namespace Sys2Proof.Machine

variable {i : Instr} {s t : State}

/-! ## The next state of each command -/

section
variable (hv : s.grid.gvalid = true)
include hv

/-- MAPPLY on a defined grid (R317). -/
theorem exec_mapply_of_gvalid {ib : Byte} (hib : ib.toNat < 8) :
    exec (.mapply ib) s = .next (s.setGrid (s.maskedGrid ib.toNat)).succeed :=
  execMapply_iff.mpr (.inr ⟨hib, .inr ⟨hv, rfl⟩⟩)

/-- MSCORE on a defined grid (R318). -/
theorem exec_mscore_of_gvalid {n : BitVec 6} (hn : n.toNat ≤ 4) :
    exec (.mscore n) s = .next (s.setResult (resultNat (scorePart s.grid.dim s.grid.mod n.toNat))).succeed :=
  execMscore_iff.mpr (.inr ⟨hn, .inr ⟨hv, rfl⟩⟩)

/-- MSELECT on a defined grid (R319). -/
theorem exec_mselect_of_gvalid : exec .mselect s = .next (((s.setMask
      ⟨maskScores s.grid.dim s.grid.mod s.grid.asg,
        BitVec.ofNat 3 (bestMask (maskScores s.grid.dim s.grid.mod s.grid.asg))⟩).setGrid
      (s.maskedGrid (bestMask (maskScores s.grid.dim s.grid.mod s.grid.asg)))).setResult
      (resultNat (bestMask (maskScores s.grid.dim s.grid.mod s.grid.asg)))).succeed :=
  execMselect_iff.mpr (.inr ⟨hv, rfl⟩)

end

/-! ## MAPPLY (R310, R311, R317) -/

section
variable {d m : Nat} {mod asg : BitGrid}

theorem masked_get_ne_iff {r c : Nat} (hr : r < d) (hc : c < d) :
    BitGrid.get (masked d mod asg m) r c ≠ BitGrid.get mod r c ↔ BitGrid.get asg r c = true ∧ maskCond m r c = 0 := by
  rw [masked_get mod asg m hr hc]
  cases BitGrid.get mod r c <;> simp

/-- The same mask twice gives the grid back: its condition does not read the modules. -/
theorem masked_masked (h : BitGrid.Square d mod) : masked d (masked d mod asg m) asg m = mod := by
  refine BitGrid.ext_of_square (masked_square _ _ _ _) h fun r c hr hc => ?_
  rw [masked_get _ asg m hr hc, masked_get mod asg m hr hc, Bool.xor_assoc, Bool.xor_self, Bool.xor_false]

end

/-- Settles O56: one module of the masked grid by `masked_get_ne_iff`, the mask applied twice by `masked_masked`. -/
theorem mapplyFlipsMaskedModules : Obligations.MapplyFlipsMaskedModules := by
  intro ib s hib hv
  refine ⟨_, exec_mapply_of_gvalid hv hib, ⟨rfl, rfl⟩, rfl, rfl, fun r c hr hc => ?_, fun hg => ?_⟩
  · refine (masked_get_ne_iff hr hc).trans (and_congr_right' ?_)
    rcases ib.toNat with _ | _ | _ | _ | _ | _ | _ | m <;> exact Iff.rfl
  · refine ⟨_, exec_mapply_of_gvalid (s := (s.setGrid (s.maskedGrid ib.toNat)).succeed) hv hib, ?_⟩
    exact congrArg (fun mod => { s.grid with mod := mod }) (masked_masked hg.mod_square)

/-! ## MSCORE (R312-R316, R318) -/

/-- Settles O57: the runs by induction over the line, and MSCORE's result with each penalty in the form of its formula. -/
theorem mscoreReadsPenalties : Obligations.MscoreReadsPenalties := by
  refine ⟨fun l => ⟨flatMap_replicate_lineRuns l, lineRuns_pos l, lineRuns_alternates l⟩, fun n s hn hv => ?_⟩
  intro D M lines pa pb pc
  have hA : penaltyA D s.grid.mod = pa := penaltyA_eq D s.grid.mod
  have hB : penaltyB D s.grid.mod = pb := rfl
  have hC : penaltyC D s.grid.mod = pc := penaltyC_eq D s.grid.mod
  refine ⟨_, penaltyD D s.grid.mod, darkCount D s.grid.mod, exec_mscore_of_gvalid hv hn, ⟨rfl, rfl⟩,
    ⟨⟨rfl, rfl, rfl, rfl⟩, ⟨rfl, rfl, rfl⟩, rfl, rfl, rfl, rfl, rfl⟩, darkCount_eq D s.grid.mod, fun hD => ?_, ?_⟩
  · obtain ⟨hle, hlt⟩ := penaltyD_rounds_up D s.grid.mod hD
    exact ⟨hle, hlt, by rw [penaltyD_eq, Nat.mul_mod_right]⟩
  · rw [← hA, ← hB, ← hC]
    refine congrArg (BitVec.ofNat 32) ?_
    rcases n.toNat with _ | _ | _ | _ | k <;> rfl

/-! ## MSELECT (R316, R319) -/

theorem maskScore_toNat {d : Nat} (hd : d ≤ 177) (mod asg : BitGrid) (m : Nat) :
    (maskScore d mod asg m).toNat = score d (masked d mod asg m) := by
  rw [maskScore, BitVec.toNat_ofNat, Nat.mod_eq_of_lt ((score_lt hd _).trans (by decide))]

theorem maskScore_upper_eq_zero {d : Nat} (hd : d ≤ 177) (mod asg : BitGrid) (m : Nat) :
    (maskScore d mod asg m).extractLsb' 20 12 = 0 := by
  apply BitVec.eq_of_toNat_eq
  rw [BitVec.extractLsb'_toNat, maskScore_toNat hd, Nat.shiftRight_eq_div_pow, Nat.div_eq_of_lt (score_lt hd _)]
  rfl

theorem Grid.Wf.dim_le_max {g : Grid} (h : g.Wf) (hv : g.gvalid = true) : g.dim ≤ 177 := by
  obtain ⟨hver, -, hdim, -, -⟩ := h
  rw [hdim, if_pos hv]
  exact Nat.add_le_add_right (Nat.mul_le_mul_left 4 hver) 17

/-- Settles O58: the bounds line by line, and each SCOREm is a score below 2^20. -/
theorem scoreBounds : Obligations.ScoreBounds := by
  refine ⟨fun d g hd => ⟨rfl, penaltyA_le d g, penaltyB_le d g, penaltyC_le d g, penaltyD_le d g, score_lt hd g⟩,
    fun s t hg hv h m => ?_⟩
  obtain rfl := Host.Outcome.next.inj (h.symm.trans (exec_mselect_of_gvalid hv))
  have hd := hg.dim_le_max hv
  have hscore := maskScores_getElem s.grid.dim s.grid.mod s.grid.asg m
  exact ⟨(congrArg BitVec.toNat hscore).trans (maskScore_toNat hd _ _ _),
    (congrArg (BitVec.extractLsb' 20 12) hscore).trans (maskScore_upper_eq_zero hd _ _ _)⟩

/-- The best mask as an index of SCORE0..7: the lowest of the least. -/
theorem bestMask_eq_fin (scores : Vector Word 8) : ∃ b : Fin 8, bestMask scores = b ∧ (∀ m : Fin 8, scores[b] ≤ scores[m])
    ∧ ∀ m : Fin 8, m < b → scores[b] < scores[m] := by
  obtain ⟨hlt, hle, hstrict⟩ := bestMask_spec scores
  generalize bestMask scores = b at hlt hle hstrict ⊢
  have hget : ∀ m : Fin 8, (scores[m.val]?).getD 0 = scores[m] := fun m => by simp
  refine ⟨⟨b, hlt⟩, rfl, fun m => ?_, fun m hm => ?_⟩
  · rw [← hget ⟨b, hlt⟩, ← hget m]
    exact hle m m.isLt
  · rw [← hget ⟨b, hlt⟩, ← hget m]
    exact hstrict m hm

/-- SCOREm is what MSCORE 0 gives after MAPPLY m, and the grid after MAPPLY m is the one masked with m (R319). -/
theorem exec_mapply_mscore (hv : s.grid.gvalid = true) (m : Fin 8) : ∃ u v, exec (.mapply (BitVec.ofNat 8 m)) s = .next u
    ∧ exec (.mscore 0) u = .next v ∧ v.result = maskScore s.grid.dim s.grid.mod s.grid.asg m ∧ u.grid = s.maskedGrid m := by
  have hm : (BitVec.ofNat 8 m).toNat = m := Nat.mod_eq_of_lt (m.isLt.trans (by decide))
  have hu := exec_mapply_of_gvalid hv (hm.symm ▸ m.isLt)
  rw [hm] at hu
  exact ⟨_, _, hu, exec_mscore_of_gvalid (s := (s.setGrid (s.maskedGrid m)).succeed) hv (n := 0) (by decide), rfl, rfl⟩

/-- Settles O59: the scores by `exec_mapply_mscore`, the choice by `bestMask_eq_fin`. -/
theorem mselectPicksLowestScore : Obligations.MselectPicksLowestScore := by
  intro s hv
  obtain ⟨b, hb, hle, hstrict⟩ := bestMask_eq_fin (maskScores s.grid.dim s.grid.mod s.grid.asg)
  have hnext := exec_mselect_of_gvalid hv
  rw [hb] at hnext
  refine ⟨_, b, hnext, ⟨rfl, rfl⟩, fun m => ?_, hle, hstrict, Nat.mod_eq_of_lt b.isLt, rfl, rfl⟩
  obtain ⟨u, v, hu, hread, hresult, hgrid⟩ := exec_mapply_mscore hv m
  refine ⟨u, v, hu, hread, (maskScores_getElem _ _ _ m).trans hresult.symm, ?_⟩
  rintro rfl
  exact hgrid.symm

/-! ## What the mask commands leave unchanged -/

theorem isMask_writes_no_other_unit (h : i.isMask = true) :
    i ≠ .reset ∧ i.writesFlags = false ∧ i.writesStreams = false ∧ i.writesRs = false ∧ i.movesCursor = false := by
  cases i with
  | mapply | mscore | mselect => exact ⟨nofun, rfl, rfl, rfl, rfl⟩
  | _ => nomatch h

/-- A mask command leaves the grid as it is or masks it. -/
theorem exec_mask_grid (hi : i.isMask = true) (h : exec i s = .next t) : t.grid = s.grid ∨ ∃ m, t.grid = s.maskedGrid m := by
  cases i with
  | mapply ib =>
    obtain ⟨-, rfl⟩ | ⟨-, ⟨-, rfl⟩ | ⟨-, rfl⟩⟩ := execMapply_iff.mp h
    exacts [.inl rfl, .inl rfl, .inr ⟨_, rfl⟩]
  | mscore n => exact .inl ((exec_frame h nofun).grid rfl)
  | mselect =>
    obtain ⟨-, rfl⟩ | ⟨-, rfl⟩ := execMselect_iff.mp h
    exacts [.inl rfl, .inr ⟨_, rfl⟩]
  | _ => nomatch hi

/-- Settles O60: the other units by `exec_frame`, the grid by `exec_mask_grid`. -/
theorem maskCommandFrame : Obligations.MaskCommandFrame := by
  intro i s t hi h
  obtain ⟨hreset, hflags, hstreams, hrs, hcursor⟩ := isMask_writes_no_other_unit hi
  have hf := exec_frame h hreset
  have hgrid : t.grid.ver = s.grid.ver ∧ t.grid.dim = s.grid.dim ∧ t.grid.gvalid = s.grid.gvalid ∧ t.grid.asg = s.grid.asg
      ∧ ∀ r c, r < s.grid.dim → c < s.grid.dim → s.asgAt r c = false → t.modAt r c = s.modAt r c := by
    unfold State.modAt
    obtain heq | ⟨m, heq⟩ := exec_mask_grid hi h
    · rw [heq]
      exact ⟨rfl, rfl, rfl, rfl, fun _ _ _ _ _ => rfl⟩
    · rw [heq]
      exact ⟨rfl, rfl, rfl, rfl, fun r c hr hc => masked_get_of_reserved s.grid.mod m hr hc⟩
  obtain ⟨hver, hdim, hgvalid, hasg, hreserved⟩ := hgrid
  refine ⟨hf.hostSide, hf.flags hflags, hf.streams hstreams, hf.rs hrs, hf.cursor hcursor, hver, hdim, hgvalid, hasg, hreserved,
    hf.mask, hf.result, ?_⟩
  rintro n rfl
  exact hf.grid rfl

end Sys2Proof.Machine
end

section
/-! SUPPORT. The error fields (60_exceptions.md R341-R343, R355): what a command makes of LASTERR and FIRSTERR, the errors each legal
command can raise, and the host accesses that clear FIRSTERR. -/

namespace Sys2Proof

/-- CLRERR and RESET: the commands that set FIRSTERR to 0 (R343). -/
def Instr.clearsErrors : Instr → Bool
  | .clrerr | .reset => true
  | _ => false

theorem Instr.clearsErrors_eq_false {i : Instr} (hclrerr : i ≠ .clrerr) (hreset : i ≠ .reset) : i.clearsErrors = false := by
  cases i with
  | clrerr => exact absurd rfl hclrerr
  | reset => exact absurd rfl hreset
  | _ => rfl

end Sys2Proof

namespace Sys2Proof.Machine

variable {i : Instr} {s t : State} {j k r : Except ErrCode State} {w : Word}

/-! ## Illegal field values (R109, log 12) -/

/-- The legal-values condition of a command stands before its other checks. -/
theorem exec_of_not_wf (hwf : i.wf = false) (s : State) : exec i s = .next (s.raise .illegal) := by
  cases i with
  | sread | swrite | scopy | sconcat | fmtenc | modw | amw | pwrite | pread | mapply | mscore =>
    exact complete_ifLegal_iff.mpr (.inl ⟨hwf, rfl⟩)
  | _ => nomatch hwf

/-! ## The errors of a legal command (R355) -/

/-- A result a legal command `i` may come to in state `s`: an error of its list, or a new state in which FIRSTERR is as it was, but
for the commands that clear it. -/
inductive ListedResult (i : Instr) (s : State) : Except ErrCode State → Prop
  | error {e : ErrCode} (he : e ∈ i.errors) : ListedResult i s (.error e)
  | ok {u : State} (hu : i.clearsErrors = false → u.status.firstErr = s.status.firstErr) : ListedResult i s (.ok u)

/-- The state after a legal command `i` issued in `s`: an error of its list is taken, or it succeeds (R341, R343). -/
inductive ListedEnd (i : Instr) (s : State) : State → Prop
  | raise {e : ErrCode} (he : e ∈ i.errors) : ListedEnd i s (s.raise e)
  | succeed {u : State} (hu : i.clearsErrors = false → u.status.firstErr = s.status.firstErr) : ListedEnd i s u.succeed

namespace ListedResult

theorem ite {c : Prop} [Decidable c] (hj : ListedResult i s j) (hk : ListedResult i s k) :
    ListedResult i s (if c then j else k) := by
  split
  · exact hj
  · exact hk

theorem ifLegal {b : Bool} (hb : b = true) (hk : ListedResult i s k) : ListedResult i s (ifLegal b k) := by
  rw [ifLegal_of hb]
  exact hk

theorem ifGrid (he : .range ∈ i.errors) (hk : ListedResult i s k) : ListedResult i s (ifGrid s k) := ite hk (error he)

theorem ifModule {row col : Byte} (he : .range ∈ i.errors) (hk : ListedResult i s k) : ListedResult i s (ifModule s row col k) :=
  ifGrid he (ite hk (error he))

theorem ifPlacing (he : .range ∈ i.errors) (hk : ListedResult i s k) : ListedResult i s (ifPlacing s k) :=
  ifGrid he (ite (error he) hk)

end ListedResult

/-- A command that comes to a listed result ends as listed. -/
theorem ListedEnd.of_complete (h : complete s r = .next t) (hr : ListedResult i s r) : ListedEnd i s t := by
  cases hr with
  | error he => exact complete_error_iff.mp h ▸ .raise he
  | ok hu => exact complete_ok_iff.mp h ▸ .succeed hu

/-- Every legal command ends as listed. The commands stand together by the checks they make. -/
theorem exec_listedEnd (hwf : i.wf = true) (h : exec i s = .next t) : ListedEnd i s t := by
  cases i with
  | clrerr | reset => cases h; exact .succeed nofun
  | nop | screate | sdup | stell | sremain | gfmul | rsclr | rsfeedi => cases h; exact .succeed fun _ => rfl
  | fmtenc => exact .of_complete h (.ifLegal hwf <| .ok fun _ => rfl)
  | sseek | polymod | rsgen | rsrdg | rsrdr | rsrds | verenc | dimchk | ginit =>
    exact .of_complete h (.ite (.error (.head _)) <| .ok fun _ => rfl)
  | fmtdec | verdec => exact .of_complete h (.ite (.ok fun _ => rfl) <| .error (.head _))
  | pbegin | mselect => exact .of_complete h (.ifGrid (.head _) <| .ok fun _ => rfl)
  | mapply | mscore => exact .of_complete h (.ifLegal hwf <| .ifGrid (.head _) <| .ok fun _ => rfl)
  | modr | modw32 | modr32 => exact .of_complete h (.ifModule (.head _) <| .ok fun _ => rfl)
  | modw | amw => exact .of_complete h (.ifLegal hwf <| .ifModule (.head _) <| .ok fun _ => rfl)
  | pwrite | pread =>
    exact .of_complete h (.ifLegal hwf <| .ifPlacing (.head _) <| .ite (.error (.head _)) <| .ok fun _ => rfl)
  | pstore =>
    exact .of_complete h (.ifPlacing (.head _) <| .ite (.error (.head _)) <| .ite (.error (.head _)) <| .ok fun _ => rfl)
  | pload =>
    exact .of_complete h (.ifPlacing (.head _) <| .ite (.error (.head _)) <| .ite (.ok fun _ => rfl) <|
      .ite (.error (.tail _ (.head _))) <| .ok fun _ => rfl)
  | sresize => exact .of_complete h (.ite (.error (.head _)) <| .ite (.error (.tail _ (.head _))) <| .ok fun _ => rfl)
  | rsemit => exact .of_complete h (.ite (.error (.head _)) <| .ite (.ok fun _ => rfl) <| .ok fun _ => rfl)
  | fmtdec2 =>
    exact .of_complete h (.ite (.ite (.ok fun _ => rfl) <| .ite (.ok fun _ => rfl) <| .error (.tail _ (.head _))) <|
      .error (.head _))
  | sread a n =>
    obtain ⟨hn, rfl⟩ | ⟨-, ⟨-, rfl⟩ | ⟨-, rfl⟩⟩ := execSread_iff.mp h
    exacts [absurd (of_decide_eq_true hwf) hn.not_ge, .raise (.head _), .succeed fun _ => rfl]
  | swrite a n =>
    obtain ⟨hn, rfl⟩ | ⟨-, ⟨-, rfl⟩ | ⟨-, rfl⟩⟩ := execSwrite_iff.mp h
    exacts [absurd (of_decide_eq_true hwf) hn.not_ge, .raise (.head _), .succeed fun _ => rfl]
  | scopy a b =>
    obtain ⟨hab, rfl⟩ | ⟨-, ⟨-, rfl⟩ | ⟨-, ⟨-, rfl⟩ | ⟨-, ⟨-, rfl⟩ | ⟨-, rfl⟩⟩⟩⟩ := execScopy_iff.mp h
    exacts [absurd hab (of_decide_eq_true hwf), .raise (.head _), .succeed fun _ => rfl, .raise (.tail _ (.head _)),
      .succeed fun _ => rfl]
  | sconcat a b =>
    obtain ⟨hab, rfl⟩ | ⟨-, ⟨-, rfl⟩ | ⟨-, ⟨-, rfl⟩ | ⟨-, rfl⟩⟩⟩ := execSconcat_iff.mp h
    exacts [absurd hab (of_decide_eq_true hwf), .succeed fun _ => rfl, .raise (.head _), .succeed fun _ => rfl]
  | rsfeed a =>
    obtain ⟨-, rfl⟩ | ⟨-, rfl⟩ := execRsfeed_iff.mp h
    exacts [.raise (.head _), .succeed fun _ => rfl]
  | rssyn a =>
    obtain ⟨-, rfl⟩ | ⟨-, rfl⟩ := execRssyn_iff.mp h
    exacts [.raise (.head _), .succeed fun _ => rfl]

theorem ListedEnd.lastErr (h : ListedEnd i s t) : t.status.lastErr = .ok ∨ t.status.lastErr ∈ i.errors := by
  cases h with
  | raise he => exact .inr he
  | succeed hu => exact .inl rfl

/-- FIRSTERR takes the error raised when it was 0 and is kept otherwise (R343). -/
theorem ListedEnd.firstErr (h : ListedEnd i s t) (hi : i.clearsErrors = false) :
    t.status.firstErr = if s.status.firstErr = .ok then t.status.lastErr else s.status.firstErr := by
  cases h with
  | raise he => rfl
  | @succeed u hu =>
    calc u.status.firstErr = s.status.firstErr := hu hi
      _ = if s.status.firstErr = .ok then .ok else s.status.firstErr := (ite_eq_right_iff.mpr Eq.symm).symm

/-- The host's port and the alignment table are no command's to write, RESET included (R6, log 9, log 11). -/
theorem exec_keeps_host_alignTable (h : exec i s = .next t) : t.host = s.host ∧ t.alignTable = s.alignTable := by
  by_cases hi : i = .reset
  · subst hi
    obtain rfl := execReset_iff.mp h
    exact ⟨rfl, rfl⟩
  · obtain ⟨-, -, htable, hhost⟩ := (exec_frame h hi).hostSide
    exact ⟨hhost, htable⟩

/-- Settles O12: a command with an illegal field value by `exec_of_not_wf`, a legal one by `exec_listedEnd`. -/
theorem everyCommandCompletesWithItsErrors : Obligations.EveryCommandCompletesWithItsErrors := by
  intro i s
  obtain ⟨t, h⟩ := exec_is_next i s
  obtain ⟨hhost, htable⟩ := exec_keeps_host_alignTable h
  exact ⟨t, h, hhost, htable, fun hwf => Host.Outcome.next.inj (h.symm.trans (exec_of_not_wf hwf s)),
    fun hwf => (exec_listedEnd hwf h).lastErr⟩

/-! ## All or nothing (R342) -/

theorem exec_eq_withError (h : exec i s = .next t) (he : t.status.lastErr ≠ .ok) : t = s.withError t.status.lastErr := by
  by_cases hi : i = .reset
  · subst hi
    obtain rfl := execReset_iff.mp h
    exact absurd rfl he
  · cases exec_end h hi with
    | raise e => rfl
    | succeed hu => exact absurd rfl he

/-- Settles O13: of the ends of `exec_end`, only the taking of an error leaves LASTERR at one; an illegal word takes ILLEGAL. -/
theorem failingCommandChangesOnlyErrorFields : Obligations.FailingCommandChangesOnlyErrorFields := by
  refine ⟨fun w s t h he => ?_, fun i s t => exec_eq_withError⟩
  cases hw : decode w with
  | ok i => exact exec_eq_withError (issue_of_ok hw ▸ h) he
  | error e =>
    cases (issue_of_error hw).symm.trans h
    rfl

/-! ## The first error (R343) -/

theorem issue_firstErr (h : issue w s = .next t) (hclrerr : decode w ≠ .ok .clrerr) (hreset : decode w ≠ .ok .reset) :
    t.status.firstErr = if s.status.firstErr = .ok then t.status.lastErr else s.status.firstErr := by
  cases hw : decode w with
  | ok i =>
    have hi : i.clearsErrors = false :=
      Instr.clearsErrors_eq_false (fun h' => hclrerr (h' ▸ hw)) (fun h' => hreset (h' ▸ hw))
    obtain ⟨hwf, -⟩ := decode_eq_ok_iff.mp hw
    exact (exec_listedEnd hwf (issue_of_ok hw ▸ h)).firstErr hi
  | error e =>
    cases (issue_of_error hw).symm.trans h
    rfl

/-- A word that turns a FIRSTERR other than 0 into 0 is CLRERR's or RESET's. -/
theorem decode_of_issue_clears (h : issue w s = .next t) (hs : s.status.firstErr ≠ .ok) (ht : t.status.firstErr = .ok) :
    decode w = .ok .clrerr ∨ decode w = .ok .reset := by
  by_contra hw
  obtain ⟨hclrerr, hreset⟩ := not_or.mp hw
  have hkept := issue_firstErr h hclrerr hreset
  rw [if_neg hs] at hkept
  exact hs (hkept.symm.trans ht)

/-- A write to the window issues its word, at the offset of CMD, or leaves STATUS as it is (R89). -/
theorem writeOffset_issues_or_keeps_status {off : Nat} {v : Word} (h : writeOffset off v s = .next t) :
    (Reg.ofOffset off = some .cmd ∧ issue v s = .next t) ∨ t.status = s.status := by
  unfold writeOffset at h
  split at h
  · exact .inl ⟨‹_›, h⟩
  all_goals
    cases h
    exact .inr rfl

/-- The accesses that turn a FIRSTERR other than 0 into 0: the platform's reset, and a write of CLRERR's or RESET's word to CMD. -/
theorem perform_clears {a : Access} (h : perform a s = .next t) (hs : s.status.firstErr ≠ .ok) (ht : t.status.firstErr = .ok) :
    a = .reset ∨ ∃ w, a = .write 0x004 4 w ∧ (decode w = .ok .clrerr ∨ decode w = .ok .reset) := by
  cases a with
  | reset => exact .inl rfl
  | read off size =>
    rw [perform] at h
    split at h <;> cases h
    exact absurd ht hs
  | write off size v =>
    rw [perform] at h
    split at h
    · next hsupported =>
      obtain ⟨rfl, h4, hle⟩ := supportedAccess_iff.mp hsupported
      obtain ⟨hcmd, hissue⟩ | hstatus := writeOffset_issues_or_keeps_status h
      · have hoff : 0x004 = off := Reg.offset_of_ofOffset h4 hle hcmd
        exact .inr ⟨v, hoff ▸ rfl, decode_of_issue_clears hissue hs ht⟩
      · exact absurd (hstatus ▸ ht) hs
    · cases h

theorem step_clears (h : step s = .next t) (hs : s.status.firstErr ≠ .ok) (ht : t.status.firstErr = .ok) :
    (∃ rest, s.host.pending = .reset :: rest)
      ∨ ∃ w rest, s.host.pending = .write 0x004 4 w :: rest ∧ (decode w = .ok .clrerr ∨ decode w = .ok .reset) := by
  cases hp : s.host.pending with
  | nil =>
    rw [step_of_idle hp] at h
    cases h
    exact absurd ht hs
  | cons a rest =>
    rw [step_of_pending hp] at h
    obtain rfl | ⟨w, rfl, hw⟩ := perform_clears h hs ht
    · exact .inl ⟨rest, rfl⟩
    · exact .inr ⟨w, rest, rfl, hw⟩

/-- Settles O14: FIRSTERR after a word by `issue_firstErr`, along a step by `step_clears`, after CLRERR and RESET by their next states. -/
theorem firstErrIsSticky : Obligations.FirstErrIsSticky :=
  ⟨fun _ _ _ => issue_firstErr, fun _ _ => step_clears, fun _ => ⟨⟨_, exec_clrerr, rfl⟩, _, exec_reset, rfl⟩⟩

end Sys2Proof.Machine
end
